-- ==== Sys2Proof/Word.lean ====
section
/-! DEFINITION. The words of the bcsos field engine: register contents, bytes, command words and CSRs. -/

namespace Sys2Proof

/-- `ELEN` = 256: the contents of an element register, and one element of a vector register
(00_scope.md R7, 10_state.md R20, R23). -/
abbrev Elem := BitVec 256

/-- One byte of the byte buffer (10_state.md R38). -/
abbrev Byte := BitVec 8

/-- A command word (30_encoding.md R70). Bit 63 is the most significant bit. -/
abbrev CommandWord := BitVec 64

/-- A 64-bit control and status register (10_state.md R28). -/
abbrev Csr := BitVec 64

end Sys2Proof
end

