-- ==== Sys2Proof/Config.lean ====
section
/-! DEFINITION. What is fixed for one engine: the two hardwired moduli, the sizes the spec fixes, and the three
implementation parameters it leaves open. -/

namespace Sys2Proof.Config

/-- The prime-field modulus `P` (00_scope.md R7, 10_state.md R29). -/
def primeP : Nat := 2 ^ 256 - 351 * 2 ^ 32 + 1

/-- The binary-field reduction polynomial `Q` as an integer, bit `i` the coefficient of `x^i`
(00_scope.md R7, 10_state.md R30). -/
def binaryQ : Nat := 2 ^ 256 + 2 ^ 241 + 2 ^ 178 + 2 ^ 121 + 1

/-- Transform sizes up to this one use the direct kernel (00_scope.md R7, 43_root_of_unity_fft.md R193). -/
def directKernelMax : Nat := 4

/-- The number of samples `PLAG4` takes (42_polynomial.md R172). -/
def fastLagrangeSamples : Nat := 4

/-- DESIGN CHOICE (log 4), safe. What picks the open parameter `NMAX`: a constant about which nothing is known. -/
opaque nmaxChoice : Nat

/-- DESIGN CHOICE (log 4), safe. What picks the open parameter `VCAP`: a constant about which nothing is known. -/
opaque vcapChoice : Nat

/-- DESIGN CHOICE (log 4), safe. What picks the open parameter `BCAP`: a constant about which nothing is known. -/
opaque bcapChoice : Nat

/-- `NMAX`: some power of two with `256 ≤ NMAX ≤ 2^32` (00_scope.md R8). -/
def nmax : Nat := 2 ^ (8 + nmaxChoice % 25)

/-- `VCAP`: some number with `NMAX ≤ VCAP < 2^64` (00_scope.md R8). -/
def vcap : Nat := nmax + vcapChoice % (2 ^ 64 - nmax)

/-- `BCAP`: some number with `32 ≤ BCAP ≤ 2^24` (00_scope.md R8). -/
def bcap : Nat := 32 + bcapChoice % (2 ^ 24 - 31)

end Sys2Proof.Config
end

