-- ==== Sys2Proof/Syntax.lean ====
section
/-! DEFINITION. The 26 commands (30_encoding.md R76), one constructor for each row of the opcode map. -/

namespace Sys2Proof

/-- Operand class `e`: the index of an element register `e0` … `e15` (30_encoding.md R73). -/
abbrev EReg := Fin 16

/-- Operand class `v`: the index of a vector register `v0` … `v7` (30_encoding.md R73). -/
abbrev VReg := Fin 8

/-- The chunk widths a `PLOADV` can select (30_encoding.md R74). -/
inductive ChunkWidth where
  | w8
  | w31
  | w32
deriving DecidableEq, Repr

/-- A command with its operands, destination first (30_encoding.md R81). The immediates `off` and `len` are the
numbers the assembler writes; that they fit their 24-bit fields is `Instr.wf`. -/
inductive Instr where
  -- prime field (40_prime_field.md)
  | padd (rd ra rb : EReg)
  | psub (rd ra rb : EReg)
  | pmul (rd ra rb : EReg)
  | pexp (rd ra rb : EReg)
  | pinv (rd ra : EReg)
  | pinve (rd ra : EReg)
  | pbinv (rd ra : VReg)
  -- binary field (41_binary_field.md)
  | badd (rd ra rb : EReg)
  | bsub (rd ra rb : EReg)
  | bmul (rd ra rb : EReg)
  | bexp (rd ra rb : EReg)
  | binv (rd ra : EReg)
  | binve (rd ra : EReg)
  | bdiv (rd ra rb : EReg)
  -- polynomials (42_polynomial.md)
  | peval (rd : EReg) (ra : VReg) (rb : EReg)
  | pvanish (rd ra : VReg)
  | ppmul (rd ra rb : VReg)
  | ppdiv (rd ra rb : VReg)
  | pprem (rd ra rb : VReg)
  | plag (rd ra rb : VReg)
  | plag4 (rd ra rb : VReg)
  -- roots of unity and transforms (43_root_of_unity_fft.md)
  | order (rd : VReg) (ra : EReg) (inverse : Bool)
  | fft (rd ra : VReg) (rb : EReg)
  | ifft (rd ra : VReg) (rb : EReg)
  -- byte loading (44_byte_loading.md)
  | pfromb (rd : EReg) (off len : Nat)
  | ploadv (rd : VReg) (off len : Nat) (w : ChunkWidth)
deriving DecidableEq, Repr

end Sys2Proof
end

