-- ==== Sys2Proof/Machine/State.lean ====
section
/-! DEFINITION. The state of one engine as plain data (10_state.md), the host events it performs (20_memory.md section 6)
and the state after reset. -/

namespace Sys2Proof.Machine

/-- The eight failure codes (60_exceptions.md R231). -/
inductive FailCode where
  /-- 1: sequence lengths do not fit the operation. -/
  | length
  /-- 2: a prime-field operand is not canonical, or a load reaches past `BFILL`. -/
  | range
  /-- 3: interpolation points are not pairwise distinct. -/
  | distinct
  /-- 4: the generator's order is not a power of two. -/
  | order
  /-- 5: inversion of, or division by, zero. -/
  | zero
  /-- 6: order above `NMAX`, or result longer than `VCAP`. -/
  | capacity
  /-- 7: a source register holds `none`. -/
  | invalid
  /-- 8: the word encodes no command. -/
  | illegal
deriving DecidableEq, Repr

/-- What happens to the engine, one after another (20_memory.md R55): the host's eight transactions (R58 to R66) and the
platform's reset (70_reset_and_hazards.md R260). The arguments are what the host sends, in range or not (R67). -/
inductive HostEvent where
  | hWriteE (i val : Nat)
  | hReadE (i : Nat)
  | hWriteV (i : Nat) (seq : List Nat)
  | hReadV (i : Nat)
  | hLoadBuf (bytes : List Byte)
  | hReadCsr (n : Nat)
  | hClearErr (mask : BitVec 64)
  | hIssue (word : CommandWord)
  | reset
deriving DecidableEq, Repr

/-- What the host gets back from a transaction (20_memory.md R58, column "host gets back"). -/
inductive Answer where
  /-- A transaction that returns nothing. -/
  | done
  /-- `H_READ_E` of a register that holds a value. -/
  | element (x : Elem)
  /-- `H_READ_V` of a register that holds a value. -/
  | sequence (xs : List Elem)
  /-- A read of a register that holds `none`. -/
  | noValue
  /-- `H_READ_CSR`, zero-extended to the widest CSR's 257 bits. -/
  | csr (x : BitVec 257)
  /-- `H_ISSUE`: the new `STATUS`. -/
  | status (x : Csr)
  /-- The port-level error of a refused transaction (R67). -/
  | portError
deriving DecidableEq, Repr

/-- The byte buffer's contents: (offset, byte) pairs in the canonical form `Memory.wf`. -/
abbrev Memory := List Host.Cell

/-- The engine's state. `pending` and `answer` are the model's own (log 1, log 8); every other field is the spec's. -/
structure State where
  /-- `e0` … `e15`; `none` is the spec's "holds no value" (10_state.md R20, R21). -/
  e : Vector (Option Elem) 16
  /-- `v0` … `v7`, each `none` or a sequence with its length (10_state.md R23). -/
  v : Vector (Option (List Elem)) 8
  /-- `STATUS`: `CODE` in bits 7:0, `ZSKIP` in bit 8 (10_state.md R32). -/
  status : Csr
  /-- `ERRSUM`: sticky bit `k` for failure code `k` (10_state.md R33). -/
  errsum : Csr
  /-- `BUF` (10_state.md R38). -/
  buf : Memory
  /-- `BFILL`: number of valid bytes (10_state.md R34). -/
  bfill : Csr
  /-- What the host has still to do, first event first (10_state.md R26; the model's own, log 1). -/
  pending : List HostEvent
  /-- What the host got back from the latest event (the model's own, log 8). -/
  answer : Option Answer
  /-- `NMAX`, read-only (10_state.md R31). -/
  nmax : Csr
  /-- `VCAP`, read-only (10_state.md R31). -/
  vcap : Csr
  /-- `BCAP`, read-only (10_state.md R31). -/
  bcap : Csr
deriving DecidableEq, Repr

/-- No constructor: nothing stops the engine (60_exceptions.md R238, 70_reset_and_hazards.md R268). A failing command is a
next state with its code in `STATUS`. Safe: no step can answer a fault. -/
inductive Fault where
deriving DecidableEq, Repr

/-- Why the model has no step. -/
inductive Refusal where
  /-- Raised only by an arm of `exec` whose instruction has no meaning yet. Safe: the run stops. No arm raises it. -/
  | notModelled (mnemonic : String)
deriving DecidableEq, Repr

/-- The state right after reset (10_state.md R41): every register `none`, `STATUS`, `ERRSUM` and `BFILL` zero, the parameters
at the configured values. The buffer lists nothing (log 5); the host has nothing left to do (log 1). -/
def State.reset : State where
  e := Vector.replicate 16 none
  v := Vector.replicate 8 none
  status := 0#64
  errsum := 0#64
  buf := []
  bfill := 0#64
  pending := []
  answer := none
  nmax := BitVec.ofNat 64 Config.nmax
  vcap := BitVec.ofNat 64 Config.vcap
  bcap := BitVec.ofNat 64 Config.bcap

end Sys2Proof.Machine
end

