-- ==== Sys2Proof/Machine/PrimeArith.lean ====
section
/-! DEFINITION. Prime-field arithmetic as pure functions on canonical integers (40_prime_field.md R101, R102, R108, R109), and
the square-and-multiply schedule both fields share. -/

namespace Sys2Proof.Machine

/-- `bitlen(v)`: the number of bits needed to write `v`, 0 for 0 (00_scope.md R10). -/
def bitLen (v : Nat) : Nat := if v = 0 then 0 else Nat.log2 v + 1

/-- The loop of `squareAndMultiply` over exponent bits `k - 1` down to 0. -/
def squareAndMultiplyLoop {α : Type} (mul : α → α → α) (x : α) (e : Nat) : Nat → α → α
  | 0, r => r
  | k + 1, r =>
    let sq := mul r r
    squareAndMultiplyLoop mul x e k (if e.testBit k then mul sq x else sq)

/-- Repeated squaring, most significant exponent bit first, accumulator starting at `one` (R102, R134). -/
def squareAndMultiply {α : Type} (mul : α → α → α) (one x : α) (e : Nat) : α :=
  squareAndMultiplyLoop mul x e (bitLen e) one

/-- `pf.add` (R101). -/
def pfAdd (x y : Nat) : Nat :=
  let s := x + y
  if Config.primeP ≤ s then s - Config.primeP else s

/-- `pf.sub`, without negative numbers (R101). -/
def pfSub (x y : Nat) : Nat := if y ≤ x then x - y else Config.primeP - (y - x)

/-- `pf.mul`: the exact product, then the residue (R101). -/
def pfMul (x y : Nat) : Nat := x * y % Config.primeP

/-- `pf.neg` (R101). -/
def pfNeg (x : Nat) : Nat := pfSub 0 x

/-- `pf.exp` (R102). -/
def pfExp (x e : Nat) : Nat := squareAndMultiply pfMul 1 x e

/-- `pf.inv` where it does not raise: the Fermat exponent `P - 2` (R102). -/
def pfInvNonzero (x : Nat) : Nat := pfExp x (Config.primeP - 2)

/-- `pf.inv`, raising `E_ZERO` at 0 (R102). -/
def pfInv (x : Nat) : Except FailCode Nat := if x = 0 then .error .zero else .ok (pfInvNonzero x)

/-- `pf.div` (R102). -/
def pfDiv (x y : Nat) : Except FailCode Nat := do
  let i ← pfInv y
  .ok (pfMul x i)

/-- The elementwise value of `PBINV`: zeros stay zero (R109). -/
def pfBatchInv (xs : List Nat) : List Nat := xs.map fun x => if x = 0 then 0 else pfInvNonzero x

/-! ### The algorithms the spec describes for values it defines otherwise

`PINVE` and `PBINV` are defined by their values (R108, R109; log 9). The two algorithms below are the ones the rules write
out; that they give those values is stated in Certificates/Slice0/Obligations.lean. -/

/-- The loop of the extended Euclidean inverse (R108), `fuel` bounding the division steps (70_reset_and_hazards.md R265). -/
def pfEuclidLoop : Nat → Int → Int → Nat → Nat → Int
  | 0, lm, _, _, _ => lm
  | fuel + 1, lm, hm, low, high =>
    if 1 < low then
      let q := high / low
      pfEuclidLoop fuel (hm - lm * (q : Int)) lm (high - low * q) low
    else lm

/-- The extended Euclidean inverse (R108), fewer than `2 · 256` division steps (R265). -/
def pfEuclidInv (x : Nat) : Nat := (pfEuclidLoop 512 1 0 x Config.primeP % (Config.primeP : Int)).toNat

/-- The running products `pref[1] … pref[n]` of R109, zeros skipped, after the product `p` so far. -/
def batchRunningProducts : Nat → List Nat → List Nat
  | _, [] => []
  | p, x :: xs =>
    let p' := pfMul p (if x = 0 then 1 else x)
    p' :: batchRunningProducts p' xs

/-- The unwinding of R109: from the last element to the first, `pairs` holding each element with the product before it,
`acc` the inverse of the product up to and including it. -/
def batchUnwind (acc : Nat) : List (Nat × Nat) → List Nat → List Nat
  | [], out => out
  | (x, before) :: rest, out =>
    if x = 0 then batchUnwind acc rest (0 :: out)
    else batchUnwind (pfMul acc x) rest (pfMul before acc :: out)

/-- The schedule of `BatchInverse`: running products, one inversion, unwind (R109). -/
def pfBatchSchedule (xs : List Nat) : List Nat :=
  let products := 1 :: batchRunningProducts 1 xs
  batchUnwind (pfInvNonzero (products.getLastD 1)) (xs.zip products).reverse []

end Sys2Proof.Machine
end

