-- ==== Sys2Proof/Machine/BinaryArith.lean ====
section
/-! DEFINITION. Arithmetic of GF(2^256) as pure functions (41_binary_field.md R130 to R135, R141). -/

namespace Sys2Proof.Machine

/-- `bf.add` and `bf.sub` (R132). -/
def bfAdd (x y : Elem) : Elem := x ^^^ y

/-- One doubling of the working value of `bf.mul`: shift left by one into 257 bits and, when bit 256 is set, bring the value
back below degree 256 by adding `Q` (R133). -/
def bfTimesX (a : Elem) : Elem :=
  let a' : BitVec 257 := a.setWidth 257 <<< 1
  (if a'.getLsbD 256 then a' ^^^ BitVec.ofNat 257 Config.binaryQ else a').setWidth 256

/-- The loop of `bf.mul` (R133): `n` iterations left, the next one for bit `i` of `y`. -/
def bfMulLoop (y : Elem) : Nat → Nat → Elem → Elem → Elem
  | 0, _, acc, _ => acc
  | n + 1, i, acc, a => bfMulLoop y n (i + 1) (if y.getLsbD i then acc ^^^ a else acc) (bfTimesX a)

/-- `bf.mul`: shift-and-add over the bits of `y` (R133). -/
def bfMul (x y : Elem) : Elem := bfMulLoop y 256 0 0#256 x

/-- `bf.exp` (R134). -/
def bfExp (x : Elem) (e : Nat) : Elem := squareAndMultiply bfMul 1#256 x e

/-- `bf.inv` where it does not raise: the Fermat exponent `2^256 - 2` (R134). -/
def bfInvNonzero (x : Elem) : Elem := bfExp x (2 ^ 256 - 2)

/-- `bf.inv`, raising `E_ZERO` at 0 (R134). -/
def bfInv (x : Elem) : Except FailCode Elem := if x = 0#256 then .error .zero else .ok (bfInvNonzero x)

/-- `bf.div` (R134). -/
def bfDiv (x y : Elem) : Except FailCode Elem := do
  let i ← bfInv y
  .ok (bfMul x i)

/-! ### The Euclidean inverse

`BINVE` is defined by its value (R141; log 9). The algorithm below is the one R135 and R141 write out, on unbounded integers read
as polynomials. -/

/-- The loop of `bf.divide` (R135); each pass lowers `bitlen(r)`. -/
def bfDivideLoop (b : Nat) : Nat → Nat → Nat → Nat × Nat
  | 0, q, r => (q, r)
  | fuel + 1, q, r =>
    if r ≠ 0 ∧ bitLen b ≤ bitLen r then
      let s := bitLen r - bitLen b
      bfDivideLoop b fuel (q ^^^ (1 <<< s)) (r ^^^ (b <<< s))
    else (q, r)

/-- `bf.divide`: quotient and remainder without reduction, at most `bitlen(a) - bitlen(b) + 1` passes (R135). -/
def bfDivide (a b : Nat) : Nat × Nat := bfDivideLoop b (bitLen a + 1 - bitLen b) 0 a

/-- The loop of `clmul` over the bits of `b`. -/
def clmulLoop (a b : Nat) : Nat → Nat
  | 0 => 0
  | k + 1 => clmulLoop a b k ^^^ (if b.testBit k then a <<< k else 0)

/-- `clmul`: the carry-less product without reduction (R135). -/
def clmul (a b : Nat) : Nat := clmulLoop a b (bitLen b)

/-- The outer loop of the Euclidean inverse (R141), `fuel` bounding the passes (70_reset_and_hazards.md R265). -/
def bfEuclidLoop : Nat → Nat → Nat → Nat → Nat → Nat
  | 0, _, _, t0, _ => t0
  | fuel + 1, r0, r1, t0, t1 =>
    if r1 ≠ 0 then
      let qr := bfDivide r0 r1
      bfEuclidLoop fuel r1 qr.2 t1 (t0 ^^^ clmul qr.1 t1)
    else t0

/-- The Euclidean inverse, at most 256 passes (R141, R265). -/
def bfEuclidInv (x : Elem) : Elem := BitVec.ofNat 256 (bfEuclidLoop 256 Config.binaryQ x.toNat 0 1)

end Sys2Proof.Machine
end

