-- ==== Sys2Proof/Machine/Flags.lean ====
section
/-! DEFINITION. `STATUS`, its flag `ZSKIP`, and `ERRSUM` (10_state.md R27, R32, R33). -/

namespace Sys2Proof.Machine

/-- The number of a failure code (60_exceptions.md R231). -/
def FailCode.number : FailCode → Nat
  | .length => 1
  | .range => 2
  | .distinct => 3
  | .order => 4
  | .zero => 5
  | .capacity => 6
  | .invalid => 7
  | .illegal => 8

/-- `STATUS` after a failure: `CODE = k`, `ZSKIP = 0` (60_exceptions.md R236). -/
def failureStatus (c : FailCode) : Csr := BitVec.ofNat 64 c.number

/-- `STATUS` after a success: 0, or `0x100` with `ZSKIP` (60_exceptions.md R237). -/
def successStatus (zskip : Bool) : Csr := if zskip then 0x100#64 else 0#64

/-- Bit `k` of `ERRSUM` for code `k` (10_state.md R33). -/
def errsumBit (c : FailCode) : Csr := BitVec.ofNat 64 (2 ^ c.number)

/-- The bits of `ERRSUM` that exist: 8:1 (10_state.md R33). -/
def errsumBits : Csr := 0x1fe#64

/-- The flag of `PBINV`: some source element is zero (10_state.md R27, 40_prime_field.md R109). -/
def zeroSkipped (xs : List Nat) : Bool := xs.any (· == 0)

/-- The field `CODE` of `STATUS` (10_state.md R32). -/
def statusCode (st : Csr) : Nat := (st.extractLsb' 0 8).toNat

/-- The flag `ZSKIP` of `STATUS` (10_state.md R27, R32). -/
def statusZskip (st : Csr) : Bool := st.getLsbD 8

end Sys2Proof.Machine
end

