-- ==== Sys2Proof/Machine/Ops.lean ====
section
/-! DEFINITION. The named operations over registers and the byte buffer, and the one way a command ends: success or failure
(30_encoding.md R79, 60_exceptions.md R236, R237). -/

namespace Sys2Proof.Machine

/-! ### The byte buffer (10_state.md R38) -/

/-- What an unlisted offset reads as. No command can see it (R41); DESIGN CHOICE (log 5). -/
def unlistedByte : Byte := 0#8

/-- The canonical form: offsets strictly rising, no entry equal to what an unlisted offset reads as. -/
abbrev Memory.wf (m : Memory) : Prop := m.Pairwise (fun a b => a.1 < b.1) ∧ ∀ c ∈ m, c.2 ≠ unlistedByte

/-- The byte at an offset. -/
def Memory.read : Memory → Nat → Byte
  | [], _ => unlistedByte
  | (c, x) :: rest, a => if c = a then x else Memory.read rest a

/-- An entry for `a` unless `b` is what an unlisted offset reads as. -/
def Memory.entry (a : Nat) (b : Byte) (rest : Memory) : Memory := if b = unlistedByte then rest else (a, b) :: rest

/-- The byte at one offset replaced, in canonical form. -/
def Memory.write : Memory → Nat → Byte → Memory
  | [], a, b => Memory.entry a b []
  | (c, x) :: rest, a, b =>
    if a < c then Memory.entry a b ((c, x) :: rest)
    else if a = c then Memory.entry a b rest
    else (c, x) :: Memory.write rest a b

/-- Consecutive bytes stored from an offset up, in order (20_memory.md R63). -/
def Memory.writeBytes : Memory → Nat → List Byte → Memory
  | m, _, [] => m
  | m, a, b :: bs => Memory.writeBytes (Memory.write m a b) (a + 1) bs

/-- `MemRead(addr, n)`: `n` bytes, lowest offset first (00_scope.md R11). -/
def memRead (m : Memory) (addr n : Nat) : List Byte := (List.range n).map fun k => Memory.read m (addr + k)

/-! ### Registers -/

/-- `e[i] <- x`. -/
def State.setE (s : State) (i : EReg) (x : Option Elem) : State := { s with e := s.e.set i.val x i.isLt }

/-- `v[i] <- xs`. -/
def State.setV (s : State) (i : VReg) (xs : Option (List Elem)) : State := { s with v := s.v.set i.val xs i.isLt }

/-- A register by class and index, as a command names it (30_encoding.md R73, R79 step 2). -/
inductive Reg where
  | e (i : EReg)
  | v (i : VReg)
deriving DecidableEq, Repr

/-- The named register becomes `none`. -/
def State.clearReg (s : State) : Reg → State
  | .e i => s.setE i none
  | .v i => s.setV i none

/-! ### How a command ends -/

/-- `raise E_X`, the failure entry (60_exceptions.md R236): the destination, if the word decoded, becomes `none`; `STATUS <- k`;
`ERRSUM <- ERRSUM OR 2^k`. There is nothing to return from (R238). -/
def enterFailure (d : Option Reg) (c : FailCode) (s : State) : State :=
  let s' := match d with
    | none => s
    | some d => s.clearReg d
  { s' with status := failureStatus c, errsum := s.errsum ||| errsumBit c }

/-- Success of a command with an element destination (60_exceptions.md R237). -/
def completeE (rd : EReg) (x : Elem) (s : State) : State := { s.setE rd (some x) with status := successStatus false }

/-- Success of a command with a vector destination, with the command's flag (60_exceptions.md R237). -/
def completeV (rd : VReg) (xs : List Elem) (zskip : Bool) (s : State) : State :=
  { s.setV rd (some xs) with status := successStatus zskip }

/-- The end of a command with an element destination: steps 3 to 6 of 30_encoding.md R79 gave a result or raised. -/
def finishE (rd : EReg) (r : Except FailCode Elem) (s : State) : Host.Outcome State Fault Refusal :=
  match r with
  | .ok x => .next (completeE rd x s)
  | .error c => .next (enterFailure (some (.e rd)) c s)

/-- The end of a command with a vector destination; the result carries the command's flag. -/
def finishV (rd : VReg) (r : Except FailCode (List Elem × Bool)) (s : State) : Host.Outcome State Fault Refusal :=
  match r with
  | .ok (xs, zskip) => .next (completeV rd xs zskip s)
  | .error c => .next (enterFailure (some (.v rd)) c s)

end Sys2Proof.Machine
end

