-- ==== Sys2Proof/Machine/Operands.lean ====
section
/-! DEFINITION. Every operand form: how a command reads its sources and checks their range, steps 3 and 4 of
30_encoding.md R79, and how a prime-field result goes back into a register. -/

namespace Sys2Proof.Machine

/-- Source `e[i]`: `E_INVALID` if it holds `none` (R79 step 3). -/
def sourceE (i : EReg) (s : State) : Except FailCode Elem :=
  match s.e[i] with
  | some x => .ok x
  | none => .error .invalid

/-- Source `v[i]`: `E_INVALID` if it holds `none` (R79 step 3). -/
def sourceV (i : VReg) (s : State) : Except FailCode (List Elem) :=
  match s.v[i] with
  | some xs => .ok xs
  | none => .error .invalid

/-- The range check of a scalar prime-field operand (R79 step 4, 40_prime_field.md R100). -/
def canonical (x : Elem) : Except FailCode Nat :=
  if x.toNat < Config.primeP then .ok x.toNat else .error .range

/-- The range check of a vector prime-field operand (R79 step 4, 42_polynomial.md R160). -/
def canonicalSeq (xs : List Elem) : Except FailCode (List Nat) :=
  if xs.all (fun x => x.toNat < Config.primeP) then .ok (xs.map BitVec.toNat) else .error .range

/-- Two scalar sources, neither range-checked (binary-field commands, 41_binary_field.md R130). -/
def pairE (ra rb : EReg) (s : State) : Except FailCode (Elem × Elem) := do
  let x ← sourceE ra s
  let y ← sourceE rb s
  .ok (x, y)

/-- One scalar prime-field source. -/
def primeE (ra : EReg) (s : State) : Except FailCode Nat := do
  let x ← sourceE ra s
  canonical x

/-- Two scalar prime-field sources: both read, then both range-checked. -/
def primePairE (ra rb : EReg) (s : State) : Except FailCode (Nat × Nat) := do
  let x ← sourceE ra s
  let y ← sourceE rb s
  let a ← canonical x
  let b ← canonical y
  .ok (a, b)

/-- The sources of `PEXP`: the base is a prime-field element, the exponent any 256-bit value (40_prime_field.md R106). -/
def primeBaseExponent (ra rb : EReg) (s : State) : Except FailCode (Nat × Nat) := do
  let x ← sourceE ra s
  let y ← sourceE rb s
  let a ← canonical x
  .ok (a, y.toNat)

/-- One vector prime-field source. -/
def primeV (ra : VReg) (s : State) : Except FailCode (List Nat) := do
  let xs ← sourceV ra s
  canonicalSeq xs

/-- Two vector prime-field sources. -/
def primePairV (ra rb : VReg) (s : State) : Except FailCode (List Nat × List Nat) := do
  let xs ← sourceV ra s
  let ys ← sourceV rb s
  let a ← canonicalSeq xs
  let b ← canonicalSeq ys
  .ok (a, b)

/-- A vector and a scalar prime-field source (`PEVAL`, `FFT`, `IFFT`). -/
def primeVE (ra : VReg) (rb : EReg) (s : State) : Except FailCode (List Nat × Nat) := do
  let xs ← sourceV ra s
  let y ← sourceE rb s
  let a ← canonicalSeq xs
  let b ← canonical y
  .ok (a, b)

/-- The byte string of a load command: `off + len > BFILL` raises `E_RANGE`, and nothing is read (R79 step 4,
44_byte_loading.md R222, R223). -/
def bufferOperand (off len : Nat) (s : State) : Except FailCode (List Byte) :=
  if s.bfill.toNat < off + len then .error .range else .ok (memRead s.buf off len)

/-- A result longer than a vector register raises `E_CAPACITY` (60_exceptions.md R246). -/
def fitsVector (n : Nat) (s : State) : Except FailCode Unit :=
  if s.vcap.toNat < n then .error .capacity else .ok ()

/-- A canonical integer as a register value. -/
def toElem (n : Nat) : Elem := BitVec.ofNat 256 n

/-- A sequence of canonical integers as a vector register's value. -/
def toElems (xs : List Nat) : List Elem := xs.map toElem

/-- The end of a command whose result is one prime-field element. -/
def finishPrimeE (rd : EReg) (r : Except FailCode Nat) (s : State) : Host.Outcome State Fault Refusal :=
  finishE rd (r.map toElem) s

/-- The end of a command whose result is a sequence of prime-field elements, `ZSKIP` staying 0. -/
def finishPrimeV (rd : VReg) (r : Except FailCode (List Nat)) (s : State) : Host.Outcome State Fault Refusal :=
  finishV rd (r.map fun xs => (toElems xs, false)) s

end Sys2Proof.Machine
end

