-- ==== Sys2Proof/Machine/BinaryField.lean ====
section
/-! DEFINITION. The binary-field commands (41_binary_field.md R136 to R142). No range check: every 256-bit value is an element
(R130). -/

namespace Sys2Proof.Machine

/-- `BADD` (R136). -/
def execBadd (rd ra rb : EReg) (s : State) : Host.Outcome State Fault Refusal :=
  finishE rd (do let (x, y) ← pairE ra rb s; .ok (bfAdd x y)) s

/-- `BSUB` (R137): in characteristic 2 the same as addition. -/
def execBsub (rd ra rb : EReg) (s : State) : Host.Outcome State Fault Refusal :=
  finishE rd (do let (x, y) ← pairE ra rb s; .ok (bfAdd x y)) s

/-- `BMUL` (R138). -/
def execBmul (rd ra rb : EReg) (s : State) : Host.Outcome State Fault Refusal :=
  finishE rd (do let (x, y) ← pairE ra rb s; .ok (bfMul x y)) s

/-- `BEXP` (R139): the exponent is the second source as an unsigned integer. -/
def execBexp (rd ra rb : EReg) (s : State) : Host.Outcome State Fault Refusal :=
  finishE rd (do let (x, y) ← pairE ra rb s; .ok (bfExp x y.toNat)) s

/-- `BINV` (R140). -/
def execBinv (rd ra : EReg) (s : State) : Host.Outcome State Fault Refusal :=
  finishE rd (do let x ← sourceE ra s; bfInv x) s

/-- `BINVE`, whose result is `bf.inv` by R141: the same value as `BINV` (log 9). -/
def execBinve (rd ra : EReg) (s : State) : Host.Outcome State Fault Refusal :=
  finishE rd (do let x ← sourceE ra s; bfInv x) s

/-- `BDIV` (R142). -/
def execBdiv (rd ra rb : EReg) (s : State) : Host.Outcome State Fault Refusal :=
  finishE rd (do let (x, y) ← pairE ra rb s; bfDiv x y) s

end Sys2Proof.Machine
end

