-- ==== Sys2Proof/Machine/ByteLoading.lean ====
section
/-! DEFINITION. Bytes into prime-field elements, and the byte-loading commands (44_byte_loading.md). -/

namespace Sys2Proof.Machine

/-- `be`: the big-endian value of a byte string (20_memory.md R50). -/
def bigEndian (bytes : List Byte) : Nat := bytes.foldl (fun acc b => acc * 256 + b.toNat) 0

/-- `load.from_bytes` (R220). -/
def loadFromBytes (bytes : List Byte) : Nat := bigEndian bytes % Config.primeP

/-- The chunk width in bytes (30_encoding.md R74). -/
def chunkBytes : ChunkWidth → Nat
  | .w8 => 8
  | .w31 => 31
  | .w32 => 32

/-- `ceil(n / W)`. -/
def chunkCount (n w : Nat) : Nat := (n + w - 1) / w

/-- Chunk `k` of a byte string, zero bytes appended after the data of a short last chunk (R221). -/
def chunkAt (bytes : List Byte) (w k : Nat) : List Byte :=
  let c := (bytes.drop (k * w)).take w
  c ++ List.replicate (w - c.length) 0#8

/-- `load.chunks` (R221). -/
def loadChunks (bytes : List Byte) (w : Nat) : List Nat :=
  (List.range (chunkCount bytes.length w)).map fun k => loadFromBytes (chunkAt bytes w k)

/-- `PFROMB` (R222). -/
def execPfromb (rd : EReg) (off len : Nat) (s : State) : Host.Outcome State Fault Refusal :=
  finishPrimeE rd (do
    let bytes ← bufferOperand off len s
    .ok (loadFromBytes bytes)) s

/-- `PLOADV` (R223). -/
def execPloadv (rd : VReg) (off len : Nat) (w : ChunkWidth) (s : State) : Host.Outcome State Fault Refusal :=
  finishPrimeV rd (do
    let bytes ← bufferOperand off len s
    fitsVector (chunkCount len (chunkBytes w)) s
    .ok (loadChunks bytes (chunkBytes w))) s

end Sys2Proof.Machine
end

