-- ==== Sys2Proof/Machine/PolyArith.lean ====
section
/-! DEFINITION. Polynomial arithmetic over the prime field as pure functions on coefficient sequences, lowest degree first
(42_polynomial.md R160 to R165). -/

namespace Sys2Proof.Machine

/-- `efflen`: one more than the highest index of a non-zero element, 0 if there is none (R160). -/
def effLen : List Nat → Nat
  | [] => 0
  | x :: xs =>
    let n := effLen xs
    if n ≠ 0 then n + 1 else if x ≠ 0 then 1 else 0

/-- The loop of `poly.eval`: running sum `y`, running power `pw` (R161). -/
def polyEvalLoop (x : Nat) : List Nat → Nat → Nat → Nat
  | [], y, _ => y
  | c :: cs, y, pw => polyEvalLoop x cs (pfAdd y (pfMul c pw)) (pfMul pw x)

/-- `poly.eval` (R161). -/
def polyEval (cs : List Nat) (x : Nat) : Nat := polyEvalLoop x cs 0 1

/-- Multiplication by `(x - r)`: coefficient `j` of the result is `cs[j-1] - r·cs[j]`, absent coefficients being 0 (R162). -/
def polyTimesRoot (cs : List Nat) (r : Nat) : List Nat :=
  List.zipWith pfSub (0 :: cs) (cs.map (pfMul r) ++ [0])

/-- `poly.vanish`: start with `[1]`, one root after another (R162). -/
def polyVanish (roots : List Nat) : List Nat := roots.foldl polyTimesRoot [1]

/-- Coefficient by coefficient sum, the shorter sequence padded with zeros. -/
def polyAddPadded : List Nat → List Nat → List Nat
  | [], b => b
  | x :: xs, [] => x :: xs
  | x :: xs, y :: ys => pfAdd x y :: polyAddPadded xs ys

/-- The rows of the convolution for a non-empty `b`: row `i` is `a[i]·b` shifted by `i`. -/
def polyMulRows (b : List Nat) : List Nat → List Nat
  | [] => []
  | x :: xs => polyAddPadded (b.map (pfMul x)) (match xs with | [] => [] | _ :: _ => 0 :: polyMulRows b xs)

/-- `poly.mul`: the convolution, of length `len(a) + len(b) - 1`, and empty if a factor is empty (R163). -/
def polyMul (a b : List Nat) : List Nat := if b = [] then [] else polyMulRows b a

/-- `r[j] - c·b[j]` for the indices of `b`, the rest of `r` unchanged. -/
def subScaled (c : Nat) : List Nat → List Nat → List Nat
  | [], r => r
  | _ :: _, [] => []
  | y :: ys, x :: xs => pfSub x (pfMul c y) :: subScaled c ys xs

/-- The loop of long division for `k - 1` down to 0 (R164 step 4): `li` the inverse of `b[db]`, `b` cut to `b[0 … db]`, `r` the
running remainder, `q` the quotient coefficients found so far. -/
def polyDivLoop (li db : Nat) (b : List Nat) : Nat → List Nat → List Nat → List Nat × List Nat
  | 0, r, q => (q, r)
  | k + 1, r, q =>
    let c := pfMul (r.getD (k + db) 0) li
    polyDivLoop li db b k (r.take k ++ subScaled c b (r.drop k)) (c :: q)

/-- `poly.divrem`: quotient and remainder (R164). -/
def polyDivrem (a b : List Nat) : Except FailCode (List Nat × List Nat) :=
  if a.length < b.length then .error .length
  else if effLen b = 0 then .error .zero
  else do
    let db := effLen b - 1
    let li ← pfInv (b.getD db 0)
    let qr := polyDivLoop li db (b.take (db + 1)) (a.length - db) a []
    .ok (qr.1, qr.2.take db)

/-- The share of one sample in `poly.lagrange` (R165 step 3): `D_i · (y / D_i(x))`. -/
def lagrangeTerm (z : List Nat) (x y : Nat) : Except FailCode (List Nat) := do
  let qr ← polyDivrem z [pfNeg x, 1]
  let i ← pfInv (polyEval qr.1 x)
  .ok (qr.1.map (pfMul (pfMul y i)))

/-- The accumulation of R165 step 3 over the samples, `z` the vanishing polynomial of all abscissas. -/
def lagrangeLoop (z : List Nat) : List (Nat × Nat) → List Nat → Except FailCode (List Nat)
  | [], res => .ok res
  | (x, y) :: rest, res => do
    let t ← lagrangeTerm z x y
    lagrangeLoop z rest (List.zipWith pfAdd res t)

/-- `poly.lagrange` (R165). -/
def polyLagrange (xs ys : List Nat) : Except FailCode (List Nat) :=
  if ys.length ≠ xs.length then .error .length
  else if ¬ xs.Nodup then .error .distinct
  else lagrangeLoop (polyVanish xs) (xs.zip ys) (List.replicate xs.length 0)

end Sys2Proof.Machine
end

