-- ==== Sys2Proof/Machine/Polynomial.lean ====
section
/-! DEFINITION. The polynomial commands (42_polynomial.md R166 to R172). -/

namespace Sys2Proof.Machine

/-- `PEVAL` (R166). -/
def execPeval (rd : EReg) (ra : VReg) (rb : EReg) (s : State) : Host.Outcome State Fault Refusal :=
  finishPrimeE rd (do let (cs, x) ← primeVE ra rb s; .ok (polyEval cs x)) s

/-- `PVANISH` (R167). -/
def execPvanish (rd ra : VReg) (s : State) : Host.Outcome State Fault Refusal :=
  finishPrimeV rd (do
    let roots ← primeV ra s
    fitsVector (roots.length + 1) s
    .ok (polyVanish roots)) s

/-- The capacity check of `PPMUL`, for two non-empty factors (R168). -/
def productFits (a b : List Nat) (s : State) : Except FailCode Unit :=
  if a = [] ∨ b = [] then .ok () else fitsVector (a.length + b.length - 1) s

/-- `PPMUL` (R168). -/
def execPpmul (rd ra rb : VReg) (s : State) : Host.Outcome State Fault Refusal :=
  finishPrimeV rd (do
    let (a, b) ← primePairV ra rb s
    productFits a b s
    .ok (polyMul a b)) s

/-- `PPDIV`: the quotient (R169). -/
def execPpdiv (rd ra rb : VReg) (s : State) : Host.Outcome State Fault Refusal :=
  finishPrimeV rd (do
    let (a, b) ← primePairV ra rb s
    let qr ← polyDivrem a b
    .ok qr.1) s

/-- `PPREM`: the remainder (R170). -/
def execPprem (rd ra rb : VReg) (s : State) : Host.Outcome State Fault Refusal :=
  finishPrimeV rd (do
    let (a, b) ← primePairV ra rb s
    let qr ← polyDivrem a b
    .ok qr.2) s

/-- `PLAG` (R171). -/
def execPlag (rd ra rb : VReg) (s : State) : Host.Outcome State Fault Refusal :=
  finishPrimeV rd (do
    let (xs, ys) ← primePairV ra rb s
    polyLagrange xs ys) s

/-- The length condition `PLAG4` adds: exactly four samples on both sides (R172). -/
def fourSamples (xs ys : List Nat) : Except FailCode Unit :=
  if xs.length = Config.fastLagrangeSamples ∧ ys.length = Config.fastLagrangeSamples then .ok () else .error .length

/-- `PLAG4`: the general algorithm's result for exactly four samples (R172; log 9). -/
def execPlag4 (rd ra rb : VReg) (s : State) : Host.Outcome State Fault Refusal :=
  finishPrimeV rd (do
    let (xs, ys) ← primePairV ra rb s
    fourSamples xs ys
    polyLagrange xs ys) s

end Sys2Proof.Machine
end

