-- ==== Sys2Proof/Machine/PrimeField.lean ====
section
/-! DEFINITION. The prime-field commands (40_prime_field.md R103 to R109). -/

namespace Sys2Proof.Machine

/-- `PADD` (R103). -/
def execPadd (rd ra rb : EReg) (s : State) : Host.Outcome State Fault Refusal :=
  finishPrimeE rd (do let (x, y) ← primePairE ra rb s; .ok (pfAdd x y)) s

/-- `PSUB` (R104). -/
def execPsub (rd ra rb : EReg) (s : State) : Host.Outcome State Fault Refusal :=
  finishPrimeE rd (do let (x, y) ← primePairE ra rb s; .ok (pfSub x y)) s

/-- `PMUL` (R105). -/
def execPmul (rd ra rb : EReg) (s : State) : Host.Outcome State Fault Refusal :=
  finishPrimeE rd (do let (x, y) ← primePairE ra rb s; .ok (pfMul x y)) s

/-- `PEXP` (R106). -/
def execPexp (rd ra rb : EReg) (s : State) : Host.Outcome State Fault Refusal :=
  finishPrimeE rd (do let (x, e) ← primeBaseExponent ra rb s; .ok (pfExp x e)) s

/-- `PINV` (R107). -/
def execPinv (rd ra : EReg) (s : State) : Host.Outcome State Fault Refusal :=
  finishPrimeE rd (do let x ← primeE ra s; pfInv x) s

/-- `PINVE`, whose result is `pf.inv` by R108: the same value as `PINV` (log 9). -/
def execPinve (rd ra : EReg) (s : State) : Host.Outcome State Fault Refusal :=
  finishPrimeE rd (do let x ← primeE ra s; pfInv x) s

/-- `PBINV` (R109): the only command that can set `ZSKIP`. -/
def execPbinv (rd ra : VReg) (s : State) : Host.Outcome State Fault Refusal :=
  finishV rd (do let xs ← primeV ra s; .ok (toElems (pfBatchInv xs), zeroSkipped xs)) s

end Sys2Proof.Machine
end

