-- ==== Sys2Proof/Machine/TransformArith.lean ====
section
/-! DEFINITION. Root-of-unity tables and the transforms as pure functions (43_root_of_unity_fft.md R190 to R195). -/

namespace Sys2Proof.Machine

/-- The entries of a root-of-unity table from the power `cur` on, `room` being how many more the table may take (R191). -/
def rootPowers (g : Nat) : Nat → Nat → Except FailCode (List Nat)
  | 0, cur => if cur = 1 then .ok [] else .error .capacity
  | room + 1, cur =>
    if cur = 1 then .ok []
    else do
      let t ← rootPowers g room (pfMul cur g)
      .ok (cur :: t)

/-- A power of two, `1 = 2^0` among them. -/
def isPowerOfTwo (n : Nat) : Bool := n == 2 ^ Nat.log2 n

/-- The generator the table is built from: `root`, or its inverse when `inverse` is requested (R191). -/
def orderGenerator (root : Nat) (inverse : Bool) : Except FailCode Nat := if inverse then pfInv root else .ok root

/-- `fft.order` (R191), with the parameter `NMAX` as an argument. -/
def fftOrder (nmax root : Nat) (inverse : Bool) : Except FailCode (List Nat) := do
  let g ← orderGenerator root inverse
  let t ← rootPowers g (nmax - 1) g
  if isPowerOfTwo (1 :: t).length then .ok (1 :: t) else .error .order

/-- `Σ_j y[j] · T[(i·j) mod n]` modulo `P`, `n` the length of `T`. -/
def dftSum (y t : List Nat) (i : Nat) : Nat :=
  (List.range y.length).foldl (fun acc j => pfAdd acc (pfMul (y.getD j 0) (t.getD (i * j % t.length) 0))) 0

/-- `fft.dft`: the transform as a sum, the normative value (R192). -/
def fftDft (y t : List Nat) : List Nat := (List.range t.length).map (dftSum y t)

/-- `fft.direct`: the direct kernel scaled by the twist factor `w` (R193). -/
def fftDirect (y t : List Nat) (w : Nat) : List Nat := (fftDft y t).map (pfMul w)

/-- The elements at even indices. -/
def evens : List Nat → List Nat
  | [] => []
  | [x] => [x]
  | x :: _ :: rest => x :: evens rest

/-- The elements at odd indices. -/
def odds : List Nat → List Nat
  | [] => []
  | [_] => []
  | _ :: y :: rest => y :: odds rest

/-- The butterfly: `L[i] + T[i]·R[i]` in the first half, `L[i] - T[i]·R[i]` in the second (R194). -/
def butterfly (t l r : List Nat) : List Nat :=
  let tr := List.zipWith pfMul t r
  List.zipWith pfAdd l tr ++ List.zipWith pfSub l tr

/-- The recursion of `fft.radix2`, `depth` bounding its levels (R194; 70_reset_and_hazards.md R265). -/
def fftRadix2Levels (w : Nat) : Nat → List Nat → List Nat → List Nat
  | 0, y, t => fftDirect y t w
  | depth + 1, y, t =>
    if y.length ≤ Config.directKernelMax then fftDirect y t w
    else
      let te := evens t
      butterfly t (fftRadix2Levels w depth (evens y) te) (fftRadix2Levels w depth (odds y) te)

/-- `fft.radix2`: depth at most `log2(m)` (R194, R265). -/
def fftRadix2 (y t : List Nat) (w : Nat) : List Nat := fftRadix2Levels w (Nat.log2 y.length) y t

/-- `ForwardTransform` after the table is built: length check, zero padding, transform with twist 1 (R197). -/
def forwardTransform (cs t : List Nat) : Except FailCode (List Nat) :=
  if t.length < cs.length then .error .length
  else .ok (fftRadix2 (cs ++ List.replicate (t.length - cs.length) 0) t 1)

/-- `InverseTransform` after the table is built: exact length, transform with twist `pf.inv(n mod P)` (R195, R198). -/
def inverseTransform (evals t : List Nat) : Except FailCode (List Nat) :=
  if evals.length ≠ t.length then .error .length
  else do
    let w ← pfInv (t.length % Config.primeP)
    .ok (fftRadix2 evals t w)

end Sys2Proof.Machine
end

