-- ==== Sys2Proof/Machine/RootTransform.lean ====
section
/-! DEFINITION. The root-of-unity and transform commands (43_root_of_unity_fft.md R196 to R198). -/

namespace Sys2Proof.Machine

/-- `ORDER` (R196). -/
def execOrder (rd : VReg) (ra : EReg) (inverse : Bool) (s : State) : Host.Outcome State Fault Refusal :=
  finishPrimeV rd (do
    let root ← primeE ra s
    fftOrder s.nmax.toNat root inverse) s

/-- `FFT` (R197). -/
def execFft (rd ra : VReg) (rb : EReg) (s : State) : Host.Outcome State Fault Refusal :=
  finishPrimeV rd (do
    let (cs, root) ← primeVE ra rb s
    let t ← fftOrder s.nmax.toNat root false
    forwardTransform cs t) s

/-- `IFFT` (R198). -/
def execIfft (rd ra : VReg) (rb : EReg) (s : State) : Host.Outcome State Fault Refusal :=
  finishPrimeV rd (do
    let (evals, root) ← primeVE ra rb s
    let t ← fftOrder s.nmax.toNat root true
    inverseTransform evals t) s

end Sys2Proof.Machine
end

