-- ==== Sys2Proof/Machine/Dispatch.lean ====
section
/-! DEFINITION. One arm for each command. -/

namespace Sys2Proof.Machine

def exec (i : Instr) (s : State) : Host.Outcome State Fault Refusal :=
  match i with
  | .padd rd ra rb => Sys2Proof.Machine.execPadd rd ra rb s
  | .psub rd ra rb => Sys2Proof.Machine.execPsub rd ra rb s
  | .pmul rd ra rb => Sys2Proof.Machine.execPmul rd ra rb s
  | .pexp rd ra rb => Sys2Proof.Machine.execPexp rd ra rb s
  | .pinv rd ra => Sys2Proof.Machine.execPinv rd ra s
  | .pinve rd ra => Sys2Proof.Machine.execPinve rd ra s
  | .pbinv rd ra => Sys2Proof.Machine.execPbinv rd ra s
  | .badd rd ra rb => Sys2Proof.Machine.execBadd rd ra rb s
  | .bsub rd ra rb => Sys2Proof.Machine.execBsub rd ra rb s
  | .bmul rd ra rb => Sys2Proof.Machine.execBmul rd ra rb s
  | .bexp rd ra rb => Sys2Proof.Machine.execBexp rd ra rb s
  | .binv rd ra => Sys2Proof.Machine.execBinv rd ra s
  | .binve rd ra => Sys2Proof.Machine.execBinve rd ra s
  | .bdiv rd ra rb => Sys2Proof.Machine.execBdiv rd ra rb s
  | .peval rd ra rb => Sys2Proof.Machine.execPeval rd ra rb s
  | .pvanish rd ra => Sys2Proof.Machine.execPvanish rd ra s
  | .ppmul rd ra rb => Sys2Proof.Machine.execPpmul rd ra rb s
  | .ppdiv rd ra rb => Sys2Proof.Machine.execPpdiv rd ra rb s
  | .pprem rd ra rb => Sys2Proof.Machine.execPprem rd ra rb s
  | .plag rd ra rb => Sys2Proof.Machine.execPlag rd ra rb s
  | .plag4 rd ra rb => Sys2Proof.Machine.execPlag4 rd ra rb s
  | .order rd ra inverse => Sys2Proof.Machine.execOrder rd ra inverse s
  | .fft rd ra rb => Sys2Proof.Machine.execFft rd ra rb s
  | .ifft rd ra rb => Sys2Proof.Machine.execIfft rd ra rb s
  | .pfromb rd off len => Sys2Proof.Machine.execPfromb rd off len s
  | .ploadv rd off len w => Sys2Proof.Machine.execPloadv rd off len w s

end Sys2Proof.Machine
end

