-- ==== Sys2Proof/WellFormed.lean ====
section
/-! DEFINITION. Which commands have an encoding: the register indices and the chunk width are legal by their types, and
the two immediates must fit their fields (30_encoding.md R72, R74). -/

namespace Sys2Proof

/-- An immediate fits a 24-bit unsigned field (30_encoding.md R72). -/
def fitsImmediate (n : Nat) : Bool := n < 2 ^ 24

/-- The command has an encoding (30_encoding.md R71 to R75). -/
def Instr.wf : Instr → Bool
  | .padd _ _ _ => true
  | .psub _ _ _ => true
  | .pmul _ _ _ => true
  | .pexp _ _ _ => true
  | .pinv _ _ => true
  | .pinve _ _ => true
  | .pbinv _ _ => true
  | .badd _ _ _ => true
  | .bsub _ _ _ => true
  | .bmul _ _ _ => true
  | .bexp _ _ _ => true
  | .binv _ _ => true
  | .binve _ _ => true
  | .bdiv _ _ _ => true
  | .peval _ _ _ => true
  | .pvanish _ _ => true
  | .ppmul _ _ _ => true
  | .ppdiv _ _ _ => true
  | .pprem _ _ _ => true
  | .plag _ _ _ => true
  | .plag4 _ _ _ => true
  | .order _ _ _ => true
  | .fft _ _ _ => true
  | .ifft _ _ _ => true
  | .pfromb _ off len => fitsImmediate off && fitsImmediate len
  | .ploadv _ off len _ => fitsImmediate off && fitsImmediate len

end Sys2Proof
end

