-- ==== Sys2Proof/Decode.lean ====
section
/-! DEFINITION. The decoder, total on every 64-bit word and refusing by name, and after it the encoder
(30_encoding.md R70 to R78). -/

namespace Sys2Proof

/-- Why a word is illegal (30_encoding.md R77). The host sees only `E_ILLEGAL`; the names are the model's (log 10). -/
inductive Illegal where
  /-- An `op` value that is not in the table of R76. -/
  | opcode
  /-- A bit of a must-be-zero range (39:0 of an R-format word, 49:48 of an L-format word) is one. -/
  | reservedBits
  /-- A class-`v` register field has bit 3 set. -/
  | vectorIndex
  /-- A class-`-` register field is not zero. -/
  | unusedField
  /-- A `fl` bit the command does not define is set. -/
  | flagBits
  /-- `w = 3` in `PLOADV`, or `w ≠ 0` in `PFROMB`. -/
  | chunkSelector
deriving DecidableEq, Repr

/-! ### The fields of a word (30_encoding.md R71, R72) -/

/-- Bits 63:56. -/
def opField (w : CommandWord) : BitVec 8 := w.extractLsb' 56 8
/-- Bits 55:52. -/
def rdField (w : CommandWord) : BitVec 4 := w.extractLsb' 52 4
/-- Bits 51:48 of an R-format word. -/
def raField (w : CommandWord) : BitVec 4 := w.extractLsb' 48 4
/-- Bits 47:44 of an R-format word. -/
def rbField (w : CommandWord) : BitVec 4 := w.extractLsb' 44 4
/-- Bits 43:40 of an R-format word. -/
def flField (w : CommandWord) : BitVec 4 := w.extractLsb' 40 4
/-- Bits 39:0 of an R-format word. -/
def restField (w : CommandWord) : BitVec 40 := w.extractLsb' 0 40
/-- Bits 51:50 of an L-format word. -/
def widthField (w : CommandWord) : BitVec 2 := w.extractLsb' 50 2
/-- Bits 49:48 of an L-format word. -/
def padField (w : CommandWord) : BitVec 2 := w.extractLsb' 48 2
/-- Bits 47:24 of an L-format word. -/
def offField (w : CommandWord) : BitVec 24 := w.extractLsb' 24 24
/-- Bits 23:0 of an L-format word. -/
def lenField (w : CommandWord) : BitVec 24 := w.extractLsb' 0 24

/-! ### Operand decoding (30_encoding.md R73 to R75) -/

/-- Class `e`: every 4-bit value names an element register. -/
def decodeEReg (f : BitVec 4) : EReg := f.toFin

/-- Class `v`: bit 3 of the field must be zero. -/
def decodeVReg (f : BitVec 4) : Except Illegal VReg :=
  if h : f.toNat < 8 then .ok ⟨f.toNat, h⟩ else .error .vectorIndex

/-- Class `-`: the field must be zero. -/
def decodeUnused (f : BitVec 4) : Except Illegal Unit :=
  if f = 0#4 then .ok () else .error .unusedField

/-- The `fl` field of a command without flags. -/
def decodeNoFlags (f : BitVec 4) : Except Illegal Unit :=
  if f = 0#4 then .ok () else .error .flagBits

/-- The `fl` field of `ORDER`: bit 0 is `i`, the others must be zero (R75). -/
def decodeInverseFlag (f : BitVec 4) : Except Illegal Bool :=
  if f = 0#4 then .ok false else if f = 1#4 then .ok true else .error .flagBits

/-- Bits 39:0 of an R-format word must be zero (R71). -/
def decodeRest (f : BitVec 40) : Except Illegal Unit :=
  if f = 0#40 then .ok () else .error .reservedBits

/-- Bits 49:48 of an L-format word must be zero (R72). -/
def decodePad (f : BitVec 2) : Except Illegal Unit :=
  if f = 0#2 then .ok () else .error .reservedBits

/-- The chunk-width selector of `PLOADV` (R74). -/
def decodeWidth (f : BitVec 2) : Except Illegal ChunkWidth :=
  if f = 0#2 then .ok .w8 else if f = 1#2 then .ok .w31 else if f = 2#2 then .ok .w32 else .error .chunkSelector

/-- The selector of `PFROMB`, which does no chunking, must be zero (R74). -/
def decodeNoWidth (f : BitVec 2) : Except Illegal Unit :=
  if f = 0#2 then .ok () else .error .chunkSelector

/-! ### The operand shapes of the opcode map (30_encoding.md R76) -/

/-- Shape `e e e`. -/
def decodeEEE (w : CommandWord) (mk : EReg → EReg → EReg → Instr) : Except Illegal Instr := do
  decodeNoFlags (flField w)
  decodeRest (restField w)
  .ok (mk (decodeEReg (rdField w)) (decodeEReg (raField w)) (decodeEReg (rbField w)))

/-- Shape `e e -`. -/
def decodeEE (w : CommandWord) (mk : EReg → EReg → Instr) : Except Illegal Instr := do
  decodeUnused (rbField w)
  decodeNoFlags (flField w)
  decodeRest (restField w)
  .ok (mk (decodeEReg (rdField w)) (decodeEReg (raField w)))

/-- Shape `v v -`. -/
def decodeVV (w : CommandWord) (mk : VReg → VReg → Instr) : Except Illegal Instr := do
  let rd ← decodeVReg (rdField w)
  let ra ← decodeVReg (raField w)
  decodeUnused (rbField w)
  decodeNoFlags (flField w)
  decodeRest (restField w)
  .ok (mk rd ra)

/-- Shape `v v v`. -/
def decodeVVV (w : CommandWord) (mk : VReg → VReg → VReg → Instr) : Except Illegal Instr := do
  let rd ← decodeVReg (rdField w)
  let ra ← decodeVReg (raField w)
  let rb ← decodeVReg (rbField w)
  decodeNoFlags (flField w)
  decodeRest (restField w)
  .ok (mk rd ra rb)

/-- Shape `e v e`. -/
def decodeEVE (w : CommandWord) (mk : EReg → VReg → EReg → Instr) : Except Illegal Instr := do
  let ra ← decodeVReg (raField w)
  decodeNoFlags (flField w)
  decodeRest (restField w)
  .ok (mk (decodeEReg (rdField w)) ra (decodeEReg (rbField w)))

/-- Shape `v v e`. -/
def decodeVVE (w : CommandWord) (mk : VReg → VReg → EReg → Instr) : Except Illegal Instr := do
  let rd ← decodeVReg (rdField w)
  let ra ← decodeVReg (raField w)
  decodeNoFlags (flField w)
  decodeRest (restField w)
  .ok (mk rd ra (decodeEReg (rbField w)))

/-- Shape `v e -` with the flag `i`: `ORDER`. -/
def decodeOrder (w : CommandWord) : Except Illegal Instr := do
  let rd ← decodeVReg (rdField w)
  decodeUnused (rbField w)
  let i ← decodeInverseFlag (flField w)
  decodeRest (restField w)
  .ok (.order rd (decodeEReg (raField w)) i)

/-- L-format with an element destination: `PFROMB`. -/
def decodeFromb (w : CommandWord) : Except Illegal Instr := do
  decodeNoWidth (widthField w)
  decodePad (padField w)
  .ok (.pfromb (decodeEReg (rdField w)) (offField w).toNat (lenField w).toNat)

/-- L-format with a vector destination: `PLOADV`. -/
def decodeLoadv (w : CommandWord) : Except Illegal Instr := do
  let rd ← decodeVReg (rdField w)
  let cw ← decodeWidth (widthField w)
  decodePad (padField w)
  .ok (.ploadv rd (offField w).toNat (lenField w).toNat cw)

/-- The decoder: the opcode map of R76; a word that matches no row is illegal (R77, R78). -/
def decode (w : CommandWord) : Except Illegal Instr :=
  match (opField w).toNat with
  | 0x10 => decodeEEE w .padd
  | 0x11 => decodeEEE w .psub
  | 0x12 => decodeEEE w .pmul
  | 0x13 => decodeEEE w .pexp
  | 0x14 => decodeEE w .pinv
  | 0x15 => decodeEE w .pinve
  | 0x16 => decodeVV w .pbinv
  | 0x20 => decodeEEE w .badd
  | 0x21 => decodeEEE w .bsub
  | 0x22 => decodeEEE w .bmul
  | 0x23 => decodeEEE w .bexp
  | 0x24 => decodeEE w .binv
  | 0x25 => decodeEE w .binve
  | 0x26 => decodeEEE w .bdiv
  | 0x30 => decodeEVE w .peval
  | 0x31 => decodeVV w .pvanish
  | 0x32 => decodeVVV w .ppmul
  | 0x33 => decodeVVV w .ppdiv
  | 0x34 => decodeVVV w .pprem
  | 0x35 => decodeVVV w .plag
  | 0x36 => decodeVVV w .plag4
  | 0x40 => decodeOrder w
  | 0x41 => decodeVVE w .fft
  | 0x42 => decodeVVE w .ifft
  | 0x50 => decodeFromb w
  | 0x51 => decodeLoadv w
  | _ => .error .opcode

/-- The instruction the decoder reads from a table row's bits: a command is one 64-bit word (R70), so the row's number is
the word itself. -/
def decodeTableWord (nbits w : Nat) : Option Instr :=
  match decode (BitVec.ofNat 64 (w % 2 ^ nbits)) with
  | .ok i => some i
  | .error _ => none

/-! ### The encoder, from the same tables -/

/-- A class-`e` register field. -/
def encodeEReg (i : EReg) : BitVec 4 := BitVec.ofNat 4 i.val

/-- A class-`v` register field. -/
def encodeVReg (i : VReg) : BitVec 4 := BitVec.ofNat 4 i.val

/-- The chunk-width selector (R74). -/
def encodeWidth : ChunkWidth → BitVec 2
  | .w8 => 0#2
  | .w31 => 1#2
  | .w32 => 2#2

/-- An R-format word (R71). -/
def encodeR (op : BitVec 8) (rd ra rb fl : BitVec 4) : CommandWord := op ++ rd ++ ra ++ rb ++ fl ++ 0#40

/-- An L-format word (R72). -/
def encodeL (op : BitVec 8) (rd : BitVec 4) (w : BitVec 2) (off len : Nat) : CommandWord :=
  op ++ rd ++ w ++ 0#2 ++ BitVec.ofNat 24 off ++ BitVec.ofNat 24 len

/-- The word of a well-formed command (R71 to R76). -/
def encode : Instr → CommandWord
  | .padd rd ra rb => encodeR 0x10 (encodeEReg rd) (encodeEReg ra) (encodeEReg rb) 0
  | .psub rd ra rb => encodeR 0x11 (encodeEReg rd) (encodeEReg ra) (encodeEReg rb) 0
  | .pmul rd ra rb => encodeR 0x12 (encodeEReg rd) (encodeEReg ra) (encodeEReg rb) 0
  | .pexp rd ra rb => encodeR 0x13 (encodeEReg rd) (encodeEReg ra) (encodeEReg rb) 0
  | .pinv rd ra => encodeR 0x14 (encodeEReg rd) (encodeEReg ra) 0 0
  | .pinve rd ra => encodeR 0x15 (encodeEReg rd) (encodeEReg ra) 0 0
  | .pbinv rd ra => encodeR 0x16 (encodeVReg rd) (encodeVReg ra) 0 0
  | .badd rd ra rb => encodeR 0x20 (encodeEReg rd) (encodeEReg ra) (encodeEReg rb) 0
  | .bsub rd ra rb => encodeR 0x21 (encodeEReg rd) (encodeEReg ra) (encodeEReg rb) 0
  | .bmul rd ra rb => encodeR 0x22 (encodeEReg rd) (encodeEReg ra) (encodeEReg rb) 0
  | .bexp rd ra rb => encodeR 0x23 (encodeEReg rd) (encodeEReg ra) (encodeEReg rb) 0
  | .binv rd ra => encodeR 0x24 (encodeEReg rd) (encodeEReg ra) 0 0
  | .binve rd ra => encodeR 0x25 (encodeEReg rd) (encodeEReg ra) 0 0
  | .bdiv rd ra rb => encodeR 0x26 (encodeEReg rd) (encodeEReg ra) (encodeEReg rb) 0
  | .peval rd ra rb => encodeR 0x30 (encodeEReg rd) (encodeVReg ra) (encodeEReg rb) 0
  | .pvanish rd ra => encodeR 0x31 (encodeVReg rd) (encodeVReg ra) 0 0
  | .ppmul rd ra rb => encodeR 0x32 (encodeVReg rd) (encodeVReg ra) (encodeVReg rb) 0
  | .ppdiv rd ra rb => encodeR 0x33 (encodeVReg rd) (encodeVReg ra) (encodeVReg rb) 0
  | .pprem rd ra rb => encodeR 0x34 (encodeVReg rd) (encodeVReg ra) (encodeVReg rb) 0
  | .plag rd ra rb => encodeR 0x35 (encodeVReg rd) (encodeVReg ra) (encodeVReg rb) 0
  | .plag4 rd ra rb => encodeR 0x36 (encodeVReg rd) (encodeVReg ra) (encodeVReg rb) 0
  | .order rd ra i => encodeR 0x40 (encodeVReg rd) (encodeEReg ra) 0 (if i then 1 else 0)
  | .fft rd ra rb => encodeR 0x41 (encodeVReg rd) (encodeVReg ra) (encodeEReg rb) 0
  | .ifft rd ra rb => encodeR 0x42 (encodeVReg rd) (encodeVReg ra) (encodeEReg rb) 0
  | .pfromb rd off len => encodeL 0x50 (encodeEReg rd) 0 off len
  | .ploadv rd off len w => encodeL 0x51 (encodeVReg rd) (encodeWidth w) off len

end Sys2Proof
end

