-- ==== Sys2Proof/Machine/HostPort.lean ====
section
/-! DEFINITION. The host port: CSR reads, the seven transactions that run no command, refusal of transactions with arguments out of
range, and the platform's reset (10_state.md R28 to R37, 20_memory.md R58 to R67, 70_reset_and_hazards.md R260). -/

namespace Sys2Proof.Machine

/-! ### The CSRs (10_state.md R28) -/

/-- A 64-bit word whose bit `i` says whether register `i` of a file holds a value. -/
def validBits {α : Type} : List (Option α) → Nat
  | [] => 0
  | r :: rest => (if r.isSome then 1 else 0) + 2 * validBits rest

/-- `EVALID` (R35). -/
def State.evalid (s : State) : Csr := BitVec.ofNat 64 (validBits s.e.toList)

/-- `VVALID` (R35). -/
def State.vvalid (s : State) : Csr := BitVec.ofNat 64 (validBits s.v.toList)

/-- `VLEN<i>` (R36). -/
def State.vlen (s : State) (i : VReg) : Csr :=
  match s.v[i] with
  | some xs => BitVec.ofNat 64 xs.length
  | none => 0#64

/-- The value of CSR `n`, zero-extended to 257 bits, or nothing where there is no such CSR (R28 to R37). -/
def State.csr (s : State) (n : Nat) : Option (BitVec 257) :=
  match n with
  | 0x00 => some (BitVec.ofNat 257 Config.primeP)
  | 0x01 => some (BitVec.ofNat 257 Config.binaryQ)
  | 0x02 => some (s.nmax.setWidth 257)
  | 0x03 => some (s.vcap.setWidth 257)
  | 0x04 => some (s.bcap.setWidth 257)
  | 0x05 => some (s.status.setWidth 257)
  | 0x06 => some (s.errsum.setWidth 257)
  | 0x07 => some (s.bfill.setWidth 257)
  | 0x08 => some (s.evalid.setWidth 257)
  | 0x09 => some (s.vvalid.setWidth 257)
  | n =>
    if h : 0x10 ≤ n ∧ n < 0x18 then some ((s.vlen ⟨n - 0x10, by omega⟩).setWidth 257) else none

/-! ### The transactions -/

/-- The state with what the host gets back. -/
def State.answering (s : State) (a : Answer) : State := { s with answer := some a }

/-- A refused transaction: no engine state changes, the port reports an error (20_memory.md R67; log 3). -/
def refuseTransaction (s : State) : State := s.answering .portError

/-- `H_WRITE_E` (20_memory.md R59). -/
def hostWriteE (i val : Nat) (s : State) : State :=
  if h : i < 16 ∧ val < 2 ^ 256 then (s.setE ⟨i, h.1⟩ (some (BitVec.ofNat 256 val))).answering .done
  else refuseTransaction s

/-- `H_READ_E` (20_memory.md R60). -/
def hostReadE (i : Nat) (s : State) : State :=
  if h : i < 16 then
    match s.e[i] with
    | some x => s.answering (.element x)
    | none => s.answering .noValue
  else refuseTransaction s

/-- `H_WRITE_V` (20_memory.md R61). -/
def hostWriteV (i : Nat) (seq : List Nat) (s : State) : State :=
  if h : i < 8 ∧ seq.length ≤ s.vcap.toNat ∧ seq.all (· < 2 ^ 256) then
    (s.setV ⟨i, h.1⟩ (some (seq.map (BitVec.ofNat 256)))).answering .done
  else refuseTransaction s

/-- `H_READ_V` (20_memory.md R62). -/
def hostReadV (i : Nat) (s : State) : State :=
  if h : i < 8 then
    match s.v[i] with
    | some xs => s.answering (.sequence xs)
    | none => s.answering .noValue
  else refuseTransaction s

/-- `H_LOAD_BUF` (20_memory.md R63). -/
def hostLoadBuf (bytes : List Byte) (s : State) : State :=
  if bytes.length ≤ s.bcap.toNat then
    ({ s with buf := Memory.writeBytes s.buf 0 bytes, bfill := BitVec.ofNat 64 bytes.length } : State).answering .done
  else refuseTransaction s

/-- `H_READ_CSR` (20_memory.md R64). -/
def hostReadCsr (n : Nat) (s : State) : State :=
  match s.csr n with
  | some x => s.answering (.csr x)
  | none => refuseTransaction s

/-- `H_CLEAR_ERR`: bits of the mask outside 8:1 have no effect (20_memory.md R65). -/
def hostClearErr (mask : BitVec 64) (s : State) : State :=
  ({ s with errsum := s.errsum &&& ~~~(mask &&& errsumBits) } : State).answering .done

/-- The end of `H_ISSUE`: the host gets the new `STATUS` (20_memory.md R66). -/
def answerStatus (s : State) : State := s.answering (.status s.status)

/-- `H_ISSUE` of a word that encodes no command: `E_ILLEGAL` without a destination (30_encoding.md R79 step 1,
60_exceptions.md R239). -/
def issueIllegal (s : State) : State := answerStatus (enterFailure none .illegal s)

/-- Reset: every register back to its reset value, the parameters as they are; what the host has still to do is not the
engine's and stays (70_reset_and_hazards.md R260, R261; log 6). -/
def platformReset (s : State) : State where
  e := Vector.replicate 16 none
  v := Vector.replicate 8 none
  status := 0#64
  errsum := 0#64
  buf := []
  bfill := 0#64
  pending := s.pending
  answer := none
  nmax := s.nmax
  vcap := s.vcap
  bcap := s.bcap

/-- What comes next for the engine after the port has looked at an event: a state, or a command to execute. -/
inductive PortResult where
  /-- The event is over and leaves this state. -/
  | settled (s : State)
  /-- The word decoded: the command is to be executed. -/
  | command (i : Instr)

/-- One event at the port. -/
def portEvent (ev : HostEvent) (s : State) : PortResult :=
  match ev with
  | .hWriteE i val => .settled (hostWriteE i val s)
  | .hReadE i => .settled (hostReadE i s)
  | .hWriteV i seq => .settled (hostWriteV i seq s)
  | .hReadV i => .settled (hostReadV i s)
  | .hLoadBuf bytes => .settled (hostLoadBuf bytes s)
  | .hReadCsr n => .settled (hostReadCsr n s)
  | .hClearErr mask => .settled (hostClearErr mask s)
  | .hIssue word =>
    match decode word with
    | .ok i => .command i
    | .error _ => .settled (issueIllegal s)
  | .reset => .settled (platformReset s)

end Sys2Proof.Machine
end

