-- ==== Sys2Proof/Machine/Step.lean ====
section
/-! DEFINITION. One step: the engine performs the next event of the host, whole (20_memory.md R55). -/

namespace Sys2Proof.Machine

/-- The end of `H_ISSUE` after the command has been executed: the new `STATUS` goes back to the host (20_memory.md R66). -/
def issued : Host.Outcome State Fault Refusal → Host.Outcome State Fault Refusal
  | .next s => .next (answerStatus s)
  | .fault f => .fault f
  | .refused r => .refused r

/-- One step. With nothing left to do the engine holds its state (60_exceptions.md R254); otherwise it performs the first
pending event (10_state.md R26; log 1). -/
def step (s : State) : Host.Outcome State Fault Refusal :=
  match s.pending with
  | [] => .next s
  | ev :: rest =>
    let s' : State := { s with pending := rest }
    match portEvent ev s' with
    | .settled t => .next t
    | .command i => issued (exec i s')

/-- The state in which the host's next transaction is `H_ISSUE` of the word (log 2). -/
def State.withFetchWord (s : State) (nbits w : Nat) : State :=
  { s with pending := .hIssue (BitVec.ofNat 64 (w % 2 ^ nbits)) :: s.pending }

end Sys2Proof.Machine
end

