-- ==== Sys2Proof/Safety.lean ====
section
/-! DEFINITION. What the statements speak of: the legal states of an engine, what a command names, and the two ways it ends,
written from the spec beside the machine's own functions. -/

namespace Sys2Proof.Machine

/-! ### Legal states -/

/-- The parameters are within the bounds of 00_scope.md R8. -/
def State.paramsLegal (s : State) : Prop :=
  (∃ k, s.nmax.toNat = 2 ^ k) ∧ 256 ≤ s.nmax.toNat ∧ s.nmax.toNat ≤ 2 ^ 32 ∧
    s.nmax.toNat ≤ s.vcap.toNat ∧ 32 ≤ s.bcap.toNat ∧ s.bcap.toNat ≤ 2 ^ 24

/-- Every vector register holds at most `VCAP` elements (10_state.md R23). -/
def State.vectorsFit (s : State) : Prop := ∀ i : VReg, (s.v[i].getD []).length ≤ s.vcap.toNat

/-- The buffer is in canonical form, holds only offsets below `BCAP`, and `BFILL` is at most `BCAP` (10_state.md R34, R38). -/
def State.bufferLegal (s : State) : Prop :=
  Memory.wf s.buf ∧ (∀ c ∈ s.buf, c.1 < s.bcap.toNat) ∧ s.bfill.toNat ≤ s.bcap.toNat

/-- `CODE` is at most 8, `ZSKIP` is set only with `CODE = 0`, bits 63:9 are 0 (10_state.md R27, R32). -/
def State.statusLegal (s : State) : Prop := s.status = 0x100#64 ∨ s.status.toNat ≤ 8

/-- Bit 0 and bits 63:9 of `ERRSUM` are 0 (10_state.md R33). -/
def State.errsumLegal (s : State) : Prop := ∀ k, s.errsum.getLsbD k = true → 1 ≤ k ∧ k ≤ 8

/-- The legal states of an engine. -/
structure State.Legal (s : State) : Prop where
  params : s.paramsLegal
  vectors : s.vectorsFit
  buffer : s.bufferLegal
  status : s.statusLegal
  errsum : s.errsumLegal

/-! ### What a command names -/

/-- The destination register (30_encoding.md R76, column `rd`). -/
def destination : Instr → Reg
  | .padd rd _ _ => .e rd
  | .psub rd _ _ => .e rd
  | .pmul rd _ _ => .e rd
  | .pexp rd _ _ => .e rd
  | .pinv rd _ => .e rd
  | .pinve rd _ => .e rd
  | .pbinv rd _ => .v rd
  | .badd rd _ _ => .e rd
  | .bsub rd _ _ => .e rd
  | .bmul rd _ _ => .e rd
  | .bexp rd _ _ => .e rd
  | .binv rd _ => .e rd
  | .binve rd _ => .e rd
  | .bdiv rd _ _ => .e rd
  | .peval rd _ _ => .e rd
  | .pvanish rd _ => .v rd
  | .ppmul rd _ _ => .v rd
  | .ppdiv rd _ _ => .v rd
  | .pprem rd _ _ => .v rd
  | .plag rd _ _ => .v rd
  | .plag4 rd _ _ => .v rd
  | .order rd _ _ => .v rd
  | .fft rd _ _ => .v rd
  | .ifft rd _ _ => .v rd
  | .pfromb rd _ _ => .e rd
  | .ploadv rd _ _ _ => .v rd

/-- The source registers, `ra` then `rb` (30_encoding.md R76). -/
def sources : Instr → List Reg
  | .padd _ ra rb => [.e ra, .e rb]
  | .psub _ ra rb => [.e ra, .e rb]
  | .pmul _ ra rb => [.e ra, .e rb]
  | .pexp _ ra rb => [.e ra, .e rb]
  | .pinv _ ra => [.e ra]
  | .pinve _ ra => [.e ra]
  | .pbinv _ ra => [.v ra]
  | .badd _ ra rb => [.e ra, .e rb]
  | .bsub _ ra rb => [.e ra, .e rb]
  | .bmul _ ra rb => [.e ra, .e rb]
  | .bexp _ ra rb => [.e ra, .e rb]
  | .binv _ ra => [.e ra]
  | .binve _ ra => [.e ra]
  | .bdiv _ ra rb => [.e ra, .e rb]
  | .peval _ ra rb => [.v ra, .e rb]
  | .pvanish _ ra => [.v ra]
  | .ppmul _ ra rb => [.v ra, .v rb]
  | .ppdiv _ ra rb => [.v ra, .v rb]
  | .pprem _ ra rb => [.v ra, .v rb]
  | .plag _ ra rb => [.v ra, .v rb]
  | .plag4 _ ra rb => [.v ra, .v rb]
  | .order _ ra _ => [.e ra]
  | .fft _ ra rb => [.v ra, .e rb]
  | .ifft _ ra rb => [.v ra, .e rb]
  | .pfromb _ _ _ => []
  | .ploadv _ _ _ _ => []

/-- The commands that may look at the byte buffer and at `BFILL`: the two load commands (10_state.md R38). -/
def readsBuffer : Instr → Bool
  | .padd _ _ _ => false
  | .psub _ _ _ => false
  | .pmul _ _ _ => false
  | .pexp _ _ _ => false
  | .pinv _ _ => false
  | .pinve _ _ => false
  | .pbinv _ _ => false
  | .badd _ _ _ => false
  | .bsub _ _ _ => false
  | .bmul _ _ _ => false
  | .bexp _ _ _ => false
  | .binv _ _ => false
  | .binve _ _ => false
  | .bdiv _ _ _ => false
  | .peval _ _ _ => false
  | .pvanish _ _ => false
  | .ppmul _ _ _ => false
  | .ppdiv _ _ _ => false
  | .pprem _ _ _ => false
  | .plag _ _ _ => false
  | .plag4 _ _ _ => false
  | .order _ _ _ => false
  | .fft _ _ _ => false
  | .ifft _ _ _ => false
  | .pfromb _ _ _ => true
  | .ploadv _ _ _ _ => true

/-- The buffer offsets a command names: `off … off + len - 1` (44_byte_loading.md R222, R223). -/
def namesByte (a : Nat) : Instr → Prop
  | .padd _ _ _ => False
  | .psub _ _ _ => False
  | .pmul _ _ _ => False
  | .pexp _ _ _ => False
  | .pinv _ _ => False
  | .pinve _ _ => False
  | .pbinv _ _ => False
  | .badd _ _ _ => False
  | .bsub _ _ _ => False
  | .bmul _ _ _ => False
  | .bexp _ _ _ => False
  | .binv _ _ => False
  | .binve _ _ => False
  | .bdiv _ _ _ => False
  | .peval _ _ _ => False
  | .pvanish _ _ => False
  | .ppmul _ _ _ => False
  | .ppdiv _ _ _ => False
  | .pprem _ _ _ => False
  | .plag _ _ _ => False
  | .plag4 _ _ _ => False
  | .order _ _ _ => False
  | .fft _ _ _ => False
  | .ifft _ _ _ => False
  | .pfromb _ off len => off ≤ a ∧ a < off + len
  | .ploadv _ off len _ => off ≤ a ∧ a < off + len

/-- The commands whose sources and result are prime-field elements or sequences of them (60_exceptions.md R241), and the
loads, whose result is (44_byte_loading.md R224): all but the binary-field commands. -/
def givesPrimeResult : Instr → Bool
  | .padd _ _ _ => true
  | .psub _ _ _ => true
  | .pmul _ _ _ => true
  | .pexp _ _ _ => true
  | .pinv _ _ => true
  | .pinve _ _ => true
  | .pbinv _ _ => true
  | .badd _ _ _ => false
  | .bsub _ _ _ => false
  | .bmul _ _ _ => false
  | .bexp _ _ _ => false
  | .binv _ _ => false
  | .binve _ _ => false
  | .bdiv _ _ _ => false
  | .peval _ _ _ => true
  | .pvanish _ _ => true
  | .ppmul _ _ _ => true
  | .ppdiv _ _ _ => true
  | .pprem _ _ _ => true
  | .plag _ _ _ => true
  | .plag4 _ _ _ => true
  | .order _ _ _ => true
  | .fft _ _ _ => true
  | .ifft _ _ _ => true
  | .pfromb _ _ _ => true
  | .ploadv _ _ _ _ => true

/-- The failure codes the rule of each command lists, `E_ILLEGAL` apart, which belongs to words and not to commands. -/
def listedFailures : Instr → List FailCode
  | .padd _ _ _ => [.invalid, .range]
  | .psub _ _ _ => [.invalid, .range]
  | .pmul _ _ _ => [.invalid, .range]
  | .pexp _ _ _ => [.invalid, .range]
  | .pinv _ _ => [.invalid, .range, .zero]
  | .pinve _ _ => [.invalid, .range, .zero]
  | .pbinv _ _ => [.invalid, .range]
  | .badd _ _ _ => [.invalid]
  | .bsub _ _ _ => [.invalid]
  | .bmul _ _ _ => [.invalid]
  | .bexp _ _ _ => [.invalid]
  | .binv _ _ => [.invalid, .zero]
  | .binve _ _ => [.invalid, .zero]
  | .bdiv _ _ _ => [.invalid, .zero]
  | .peval _ _ _ => [.invalid, .range]
  | .pvanish _ _ => [.invalid, .range, .capacity]
  | .ppmul _ _ _ => [.invalid, .range, .capacity]
  | .ppdiv _ _ _ => [.invalid, .range, .length, .zero]
  | .pprem _ _ _ => [.invalid, .range, .length, .zero]
  | .plag _ _ _ => [.invalid, .range, .length, .distinct]
  | .plag4 _ _ _ => [.invalid, .range, .length, .distinct]
  | .order _ _ _ => [.invalid, .range, .zero, .capacity, .order]
  | .fft _ _ _ => [.invalid, .range, .capacity, .order, .length]
  | .ifft _ _ _ => [.invalid, .range, .zero, .capacity, .order, .length]
  | .pfromb _ _ _ => [.range]
  | .ploadv _ _ _ _ => [.range, .capacity]

/-- A register's contents, one type for both classes. -/
def State.contents (s : State) : Reg → Option Elem × Option (List Elem)
  | .e i => (s.e[i], none)
  | .v i => (none, s.v[i])

/-- The register holds `none`. -/
abbrev State.isNone (s : State) (r : Reg) : Prop := s.contents r = (none, none)

/-! ### The two ways a command ends, written out (60_exceptions.md R236, R237) -/

/-- Success with an element destination: the register, and `STATUS = 0`; nothing else. -/
def State.gaveE (s : State) (rd : EReg) (x : Elem) : State :=
  { s with e := s.e.set rd.val (some x) rd.isLt, status := 0#64 }

/-- Success with a vector destination: the register, and `STATUS`; nothing else. -/
def State.gaveV (s : State) (rd : VReg) (xs : List Elem) (status : Csr) : State :=
  { s with v := s.v.set rd.val (some xs) rd.isLt, status := status }

/-- Failure with code `k` and an element destination: the register `none`, `STATUS = k`, bit `k` of `ERRSUM`; nothing else. -/
def State.failedE (s : State) (rd : EReg) (k : Nat) : State :=
  { s with e := s.e.set rd.val none rd.isLt, status := BitVec.ofNat 64 k, errsum := s.errsum ||| BitVec.ofNat 64 (2 ^ k) }

/-- Failure with code `k` and a vector destination. -/
def State.failedV (s : State) (rd : VReg) (k : Nat) : State :=
  { s with v := s.v.set rd.val none rd.isLt, status := BitVec.ofNat 64 k, errsum := s.errsum ||| BitVec.ofNat 64 (2 ^ k) }

/-- Failure with code `k` and the destination named. -/
def State.failed (s : State) (k : Nat) : Reg → State
  | .e rd => s.failedE rd k
  | .v rd => s.failedV rd k

/-- A command with a source that holds `none` fails with `E_INVALID` (60_exceptions.md R240). -/
def FailsOnMissingSource (i : Instr) (s : State) : Prop :=
  (∃ r ∈ sources i, s.isNone r) → exec i s = .next (s.failed 7 (destination i))

/-! ### Prime-field sequences and orders -/

/-- Every element is canonical: below `P` (40_prime_field.md R100). -/
abbrev Canonical (xs : List Elem) : Prop := ∀ x ∈ xs, x.toNat < Config.primeP

/-- Some element is not canonical. -/
abbrev NotCanonical (xs : List Elem) : Prop := ∃ x ∈ xs, Config.primeP ≤ x.toNat

/-- `n` is the multiplicative order of `g`: the minimal positive `n` with `g^n = 1` (00_scope.md glossary). -/
abbrev HasOrder (g n : Nat) : Prop :=
  0 < n ∧ g ^ n % Config.primeP = 1 ∧ ∀ m < n, 0 < m → g ^ m % Config.primeP ≠ 1

/-- No `k` in `1 … n` gives `g^k = 1` (60_exceptions.md R246). -/
def NoOrderUpTo (g n : Nat) : Prop := ∀ k, 1 ≤ k → k ≤ n → g ^ k % Config.primeP ≠ 1

/-- Two scalar prime-field sources, one of them not canonical: `E_RANGE` (60_exceptions.md R241). -/
def FailsOutOfRangePair (i : Instr) (rd ra rb : EReg) (s : State) : Prop :=
  ∀ x y, s.e[ra] = some x → s.e[rb] = some y → (Config.primeP ≤ x.toNat ∨ Config.primeP ≤ y.toNat) →
    exec i s = .next (s.failedE rd 2)

/-- Two vector prime-field sources, one of them with an element that is not canonical: `E_RANGE` (60_exceptions.md R241). -/
def FailsOutOfRangeSequences (i : Instr) (rd ra rb : VReg) (s : State) : Prop :=
  ∀ xs ys, s.v[ra] = some xs → s.v[rb] = some ys → (NotCanonical xs ∨ NotCanonical ys) →
    exec i s = .next (s.failedV rd 2)

/-- A vector and a scalar prime-field source, one of them out of range: `E_RANGE` (60_exceptions.md R241). -/
def FailsOutOfRangeMixed (i : Instr) (ra : VReg) (rb : EReg) (s : State) : Prop :=
  ∀ xs y, s.v[ra] = some xs → s.e[rb] = some y → (NotCanonical xs ∨ Config.primeP ≤ y.toNat) →
    exec i s = .next (s.failed 2 (destination i))

/-! ### Host transactions -/

/-- The transaction's arguments fall outside the ranges of 20_memory.md R59 to R64 (R67). -/
def outOfRange (s : State) : HostEvent → Prop
  | .hWriteE i val => 16 ≤ i ∨ 2 ^ 256 ≤ val
  | .hReadE i => 16 ≤ i
  | .hWriteV i seq => 8 ≤ i ∨ s.vcap.toNat < seq.length ∨ ∃ x ∈ seq, 2 ^ 256 ≤ x
  | .hReadV i => 8 ≤ i
  | .hLoadBuf bytes => s.bcap.toNat < bytes.length
  | .hReadCsr n => (0x09 < n ∧ n < 0x10) ∨ 0x17 < n
  | .hClearErr _ => False
  | .hIssue _ => False
  | .reset => False

/-! ### The opcode map (30_encoding.md R76) -/

/-- A row: opcode number, `match`, `mask`. -/
structure OpcodeRow where
  op : Nat
  pattern : CommandWord
  mask : CommandWord
deriving DecidableEq, Repr

/-- The 26 rows of R76. -/
def opcodeRows : List OpcodeRow :=
  [ ⟨0x10, 0x1000000000000000, 0xff000fffffffffff⟩, ⟨0x11, 0x1100000000000000, 0xff000fffffffffff⟩,
    ⟨0x12, 0x1200000000000000, 0xff000fffffffffff⟩, ⟨0x13, 0x1300000000000000, 0xff000fffffffffff⟩,
    ⟨0x14, 0x1400000000000000, 0xff00ffffffffffff⟩, ⟨0x15, 0x1500000000000000, 0xff00ffffffffffff⟩,
    ⟨0x16, 0x1600000000000000, 0xff88ffffffffffff⟩, ⟨0x20, 0x2000000000000000, 0xff000fffffffffff⟩,
    ⟨0x21, 0x2100000000000000, 0xff000fffffffffff⟩, ⟨0x22, 0x2200000000000000, 0xff000fffffffffff⟩,
    ⟨0x23, 0x2300000000000000, 0xff000fffffffffff⟩, ⟨0x24, 0x2400000000000000, 0xff00ffffffffffff⟩,
    ⟨0x25, 0x2500000000000000, 0xff00ffffffffffff⟩, ⟨0x26, 0x2600000000000000, 0xff000fffffffffff⟩,
    ⟨0x30, 0x3000000000000000, 0xff080fffffffffff⟩, ⟨0x31, 0x3100000000000000, 0xff88ffffffffffff⟩,
    ⟨0x32, 0x3200000000000000, 0xff888fffffffffff⟩, ⟨0x33, 0x3300000000000000, 0xff888fffffffffff⟩,
    ⟨0x34, 0x3400000000000000, 0xff888fffffffffff⟩, ⟨0x35, 0x3500000000000000, 0xff888fffffffffff⟩,
    ⟨0x36, 0x3600000000000000, 0xff888fffffffffff⟩, ⟨0x40, 0x4000000000000000, 0xff80feffffffffff⟩,
    ⟨0x41, 0x4100000000000000, 0xff880fffffffffff⟩, ⟨0x42, 0x4200000000000000, 0xff880fffffffffff⟩,
    ⟨0x50, 0x5000000000000000, 0xff0f000000000000⟩, ⟨0x51, 0x5100000000000000, 0xff83000000000000⟩ ]

/-- The opcode of each command (R76, column `op`). -/
def opcodeOf : Instr → Nat
  | .padd _ _ _ => 0x10
  | .psub _ _ _ => 0x11
  | .pmul _ _ _ => 0x12
  | .pexp _ _ _ => 0x13
  | .pinv _ _ => 0x14
  | .pinve _ _ => 0x15
  | .pbinv _ _ => 0x16
  | .badd _ _ _ => 0x20
  | .bsub _ _ _ => 0x21
  | .bmul _ _ _ => 0x22
  | .bexp _ _ _ => 0x23
  | .binv _ _ => 0x24
  | .binve _ _ => 0x25
  | .bdiv _ _ _ => 0x26
  | .peval _ _ _ => 0x30
  | .pvanish _ _ => 0x31
  | .ppmul _ _ _ => 0x32
  | .ppdiv _ _ _ => 0x33
  | .pprem _ _ _ => 0x34
  | .plag _ _ _ => 0x35
  | .plag4 _ _ _ => 0x36
  | .order _ _ _ => 0x40
  | .fft _ _ _ => 0x41
  | .ifft _ _ _ => 0x42
  | .pfromb _ _ _ => 0x50
  | .ploadv _ _ _ _ => 0x51

/-- A word matches a row (R76): `x AND mask = match`, and `w ≠ 3` for `PLOADV`. -/
def OpcodeRow.accepts (r : OpcodeRow) (w : CommandWord) : Prop :=
  w &&& r.mask = r.pattern ∧ (r.op = 0x51 → w.extractLsb' 50 2 ≠ 3#2)

end Sys2Proof.Machine
end

