-- ==== Sys2Proof/Certificates/Slice0/Obligations.lean ====
section
/-! DEFINITION. The statements for the provers. Each formalises what the spec says the engine does; the docstring names the rule.
Two notions of ordinary mathematics are used to say what the arithmetic means: the polynomial a coefficient sequence denotes
and the polynomial over GF(2) a bit pattern denotes. -/

namespace Sys2Proof.Meaning

/-- The polynomial over the integers modulo `P` that a coefficient sequence denotes, lowest degree first (42_polynomial.md R160). -/
noncomputable def seqPolynomial : List Nat → Polynomial (ZMod Config.primeP)
  | [] => 0
  | c :: cs => Polynomial.C (c : ZMod Config.primeP) + Polynomial.X * seqPolynomial cs

/-- The polynomial over GF(2) whose coefficient of `x^i` is bit `i` (41_binary_field.md R130, R131). -/
noncomputable def bitPolynomial (n : Nat) : Polynomial (ZMod 2) :=
  ∑ i ∈ Finset.range (n + 1), if n.testBit i then Polynomial.X ^ i else 0

/-- The residue of a polynomial over GF(2) modulo `Q` (41_binary_field.md R131). -/
noncomputable def modQ (p : Polynomial (ZMod 2)) : Polynomial (ZMod 2) := p.modByMonic (bitPolynomial Config.binaryQ)

end Sys2Proof.Meaning

open Sys2Proof Sys2Proof.Machine Sys2Proof.Meaning

/-- Decoding the encoding of any well-formed command gives the command back. (30_encoding.md section 1, 30_encoding.md
section 2, 30_encoding.md section 3) -/
def Obligations.DecodeInvertsEncode : Prop :=
  ∀ i : Instr, i.wf = true → decode (encode i) = .ok i

/-- A legal word is the encoding of the one well-formed command it decodes to. (30_encoding.md section 1, 30_encoding.md
section 3) -/
def Obligations.EncodeInvertsDecode : Prop :=
  ∀ (w : CommandWord) (i : Instr), decode w = .ok i → i.wf = true ∧ encode i = w

/-- A word encodes a command of the opcode map exactly if it matches the row. (R76) -/
def Obligations.DecoderAcceptsExactlyTheOpcodeMap : Prop :=
  (∀ r ∈ opcodeRows, ∀ w : CommandWord, (∃ i, decode w = .ok i ∧ opcodeOf i = r.op) ↔ r.accepts w) ∧
    ∀ (w : CommandWord) (i : Instr), decode w = .ok i → ∃ r ∈ opcodeRows, r.op = opcodeOf i

/-- Words written out in the spec decode to the commands written beside them. (95_test_vectors.md section 2.6) -/
def Obligations.SpecWordsDecode : Prop :=
  decode 0x11fed00000000000 = .ok (.psub 15 14 13) ∧ decode 0x154a000000000000 = .ok (.pinve 4 10) ∧
    decode 0x1617000000000000 = .ok (.pbinv 1 7) ∧ decode 0x2389a00000000000 = .ok (.bexp 8 9 10) ∧
    decode 0x30f7e00000000000 = .ok (.peval 15 7 14) ∧ decode 0x3275200000000000 = .ok (.ppmul 7 5 2) ∧
    decode 0x403f010000000000 = .ok (.order 3 15 true) ∧ decode 0x4221c00000000000 = .ok (.ifft 2 1 12) ∧
    decode 0x501000001c000002 = .ok (.pfromb 1 28 2) ∧ decode 0x5138000100001000 = .ok (.ploadv 3 256 4096 .w32)

/-- Issuing a word that decodes runs that command and returns the new STATUS. The list of events and the answer are the
model's own bookkeeping (log 1, log 8). (20_memory.md section 6, 30_encoding.md section 5) -/
def Obligations.StepRunsTheDecodedCommand : Prop :=
  ∀ (s : State) (w : CommandWord) (rest : List HostEvent) (i : Instr),
    s.pending = .hIssue w :: rest → decode w = .ok i →
    i.wf = true ∧ ∃ t, exec i { s with pending := rest } = .next t ∧ t.pending = rest ∧
      step s = .next { t with answer := some (.status t.status) }

/-- An illegal word completes with E_ILLEGAL and changes no register. The list of events and the answer are the model's own
(log 1, log 8). (60_exceptions.md section 4, 30_encoding.md section 4, 30_encoding.md section 5) -/
def Obligations.IllegalWordChangesNoRegister : Prop :=
  ∀ (s : State) (w : CommandWord) (rest : List HostEvent),
    s.pending = .hIssue w :: rest → (∀ i, decode w ≠ .ok i) →
    step s = .next { s with pending := rest, status := 8#64, errsum := s.errsum ||| 0x100#64,
                            answer := some (.status 8#64) }

/-- With no transaction to perform, a step leaves the state as it is. (That there is a step at all then is the model's
choice, log 7.) (60_exceptions.md section 7) -/
def Obligations.EngineHoldsItsStateBetweenTransactions : Prop :=
  ∀ s : State, s.pending = [] → step s = .next s

/-- Every state has a next state: no command, failure or transaction stops the engine. That there is a step with no event
left is the model's choice (log 7; R268 says that a run ends when the list ends). That there is a step over a refused
transaction is the model's choice too (log 3; R67 says that a model gives it none). (70_reset_and_hazards.md section 5,
60_exceptions.md section 3) -/
def Obligations.NothingEndsARun : Prop :=
  ∀ s : State, ∃ t, step s = .next t

/-- The reset state is legal and holds what the reset table gives. The parameters' values and the empty buffer list are the
model's choices (log 4, log 5). (10_state.md section 8, 00_scope.md section 4) -/
def Obligations.ResetStateIsLegal : Prop :=
  (∀ i : EReg, State.reset.e[i] = none) ∧ (∀ i : VReg, State.reset.v[i] = none) ∧ State.reset.bfill = 0#64 ∧
    State.reset.status = 0#64 ∧ State.reset.errsum = 0#64 ∧ State.reset.evalid = 0#64 ∧ State.reset.vvalid = 0#64 ∧
    (∀ i : VReg, State.reset.vlen i = 0#64) ∧ State.reset.Legal

/-- Every step keeps the state legal. (10_state.md sections 2, 4, 5, 6, 00_scope.md section 4, 60_exceptions.md section 4) -/
def Obligations.EveryStepKeepsTheStateLegal : Prop :=
  ∀ s t : State, s.Legal → step s = .next t → t.Legal

/-- pf.add, pf.sub, pf.mul and pf.neg are the exact integer results reduced modulo P. (R101) -/
def Obligations.PrimeFieldOperationsAreResidues : Prop :=
  ∀ x y : Nat, x < Config.primeP → y < Config.primeP →
    pfAdd x y = (x + y) % Config.primeP ∧ (pfSub x y : Int) = ((x : Int) - y) % Config.primeP ∧
      pfMul x y = x * y % Config.primeP ∧ pfNeg x = pfSub 0 x ∧
      pfAdd x y < Config.primeP ∧ pfSub x y < Config.primeP ∧ pfMul x y < Config.primeP ∧ pfNeg x < Config.primeP

/-- pf.exp is the power modulo P; pf.inv and pf.div are the Fermat power and raise E_ZERO at zero. (40_prime_field.md section
1) -/
def Obligations.PrimeFieldPowersAndInverses : Prop :=
  ∀ x y e : Nat, x < Config.primeP → y < Config.primeP →
    pfExp x e = x ^ e % Config.primeP ∧
      (x ≠ 0 → pfInv x = .ok (x ^ (Config.primeP - 2) % Config.primeP)) ∧ pfInv 0 = .error .zero ∧
      (y ≠ 0 → pfDiv x y = .ok (x * y ^ (Config.primeP - 2) % Config.primeP)) ∧ pfDiv x 0 = .error .zero

/-- The field laws of the prime field: sums cancel, non-zero elements have inverses, Fermat. (R110) -/
def Obligations.PrimeFieldLaws : Prop :=
  (∀ x y : Nat, x < Config.primeP → y < Config.primeP → pfAdd x y = pfAdd y x ∧ pfSub (pfAdd x y) y = x) ∧
    (∀ x : Nat, x < Config.primeP → x ≠ 0 →
      (∃ i, pfInv x = .ok i ∧ pfMul x i = 1) ∧ pfExp x (Config.primeP - 1) = 1) ∧
    (∀ (rd ra : EReg) (s : State), exec (.pinve rd ra) s = exec (.pinv rd ra) s) ∧
    (∀ xs : List Nat, (∀ x ∈ xs, x < Config.primeP ∧ x ≠ 0) → xs.map pfInv = (pfBatchInv xs).map .ok) ∧
    (Config.primeP - 1) % 3 ≠ 0

/-- The extended Euclidean inverse equals the Fermat inverse for every non-zero element. The loop and its number of steps are
from general knowledge and not from the source (R108, R265; log 9, log 15), and no meaning uses them. (40_prime_field.md
section 2, 70_reset_and_hazards.md section 3) -/
def Obligations.ExtendedEuclidGivesTheFermatInverse : Prop :=
  ∀ x : Nat, 0 < x → x < Config.primeP → pfEuclidInv x = x ^ (Config.primeP - 2) % Config.primeP

/-- Prefix products, one inversion and the unwinding give every inverse of a batch. PBINV itself is defined by these values
and does not run the schedule (log 9). (40_prime_field.md section 2) -/
def Obligations.BatchScheduleGivesElementwiseInverses : Prop :=
  ∀ xs : List Nat, (∀ x ∈ xs, x < Config.primeP) → pfBatchSchedule xs = pfBatchInv xs

/-- PADD writes the sum modulo P. (R103) -/
def Obligations.PaddWritesTheSumModuloP : Prop :=
  ∀ (rd ra rb : EReg) (s : State),
    (∀ x y, s.e[ra] = some x → s.e[rb] = some y → x.toNat < Config.primeP → y.toNat < Config.primeP →
      exec (.padd rd ra rb) s = .next (s.gaveE rd (BitVec.ofNat 256 ((x.toNat + y.toNat) % Config.primeP)))) ∧
    FailsOnMissingSource (.padd rd ra rb) s ∧ FailsOutOfRangePair (.padd rd ra rb) rd ra rb s ∧
    opField (encode (.padd rd ra rb)) = 0x10#8

/-- PSUB writes the difference modulo P. (R104) -/
def Obligations.PsubWritesTheDifferenceModuloP : Prop :=
  ∀ (rd ra rb : EReg) (s : State),
    (∀ x y, s.e[ra] = some x → s.e[rb] = some y → x.toNat < Config.primeP → y.toNat < Config.primeP →
      exec (.psub rd ra rb) s = .next (s.gaveE rd (BitVec.ofNat 256 ((x.toNat + (Config.primeP - y.toNat)) % Config.primeP)))) ∧
    FailsOnMissingSource (.psub rd ra rb) s ∧ FailsOutOfRangePair (.psub rd ra rb) rd ra rb s ∧
    opField (encode (.psub rd ra rb)) = 0x11#8

/-- PMUL writes the product modulo P. (R105) -/
def Obligations.PmulWritesTheProductModuloP : Prop :=
  ∀ (rd ra rb : EReg) (s : State),
    (∀ x y, s.e[ra] = some x → s.e[rb] = some y → x.toNat < Config.primeP → y.toNat < Config.primeP →
      exec (.pmul rd ra rb) s = .next (s.gaveE rd (BitVec.ofNat 256 (x.toNat * y.toNat % Config.primeP)))) ∧
    FailsOnMissingSource (.pmul rd ra rb) s ∧ FailsOutOfRangePair (.pmul rd ra rb) rd ra rb s ∧
    opField (encode (.pmul rd ra rb)) = 0x12#8

/-- PEXP writes the power modulo P, for every 256-bit exponent. (R106) -/
def Obligations.PexpWritesThePowerModuloP : Prop :=
  ∀ (rd ra rb : EReg) (s : State),
    (∀ x y, s.e[ra] = some x → s.e[rb] = some y → x.toNat < Config.primeP →
      exec (.pexp rd ra rb) s = .next (s.gaveE rd (BitVec.ofNat 256 (x.toNat ^ y.toNat % Config.primeP)))) ∧
    FailsOnMissingSource (.pexp rd ra rb) s ∧
    (∀ x y, s.e[ra] = some x → s.e[rb] = some y → Config.primeP ≤ x.toNat →
      exec (.pexp rd ra rb) s = .next (s.failedE rd 2)) ∧
    opField (encode (.pexp rd ra rb)) = 0x13#8

/-- PINV and PINVE write the inverse modulo P and fail with E_ZERO at zero. (40_prime_field.md section 2) -/
def Obligations.PinvAndPinveWriteTheInverse : Prop :=
  ∀ (rd ra : EReg) (s : State), ∀ i ∈ [Instr.pinv rd ra, Instr.pinve rd ra],
    (∀ x, s.e[ra] = some x → x.toNat < Config.primeP → x ≠ 0#256 →
      exec i s = .next (s.gaveE rd (BitVec.ofNat 256 (x.toNat ^ (Config.primeP - 2) % Config.primeP)))) ∧
    (s.e[ra] = some 0#256 → exec i s = .next (s.failedE rd 5)) ∧
    (∀ x, s.e[ra] = some x → Config.primeP ≤ x.toNat → exec i s = .next (s.failedE rd 2)) ∧
    FailsOnMissingSource i s ∧ (opField (encode i)).toNat = opcodeOf i

/-- PBINV inverts every non-zero element, keeps zeros, and sets ZSKIP for them. (40_prime_field.md section 2) -/
def Obligations.PbinvInvertsEveryElement : Prop :=
  ∀ (rd ra : VReg) (s : State),
    (∀ xs, s.v[ra] = some xs → Canonical xs →
      exec (.pbinv rd ra) s = .next (s.gaveV rd
        (xs.map fun x => if x = 0#256 then 0#256 else BitVec.ofNat 256 (x.toNat ^ (Config.primeP - 2) % Config.primeP))
        (if 0#256 ∈ xs then 0x100#64 else 0#64))) ∧
    (∀ xs, s.v[ra] = some xs → NotCanonical xs → exec (.pbinv rd ra) s = .next (s.failedV rd 2)) ∧
    FailsOnMissingSource (.pbinv rd ra) s ∧ opField (encode (.pbinv rd ra)) = 0x16#8

/-- bf.mul is the product of polynomials over GF(2) reduced modulo Q. (41_binary_field.md section 1) -/
def Obligations.BinaryProductIsThePolynomialProductModuloQ : Prop :=
  ∀ x y z : Elem,
    bitPolynomial (bfMul x y).toNat = modQ (bitPolynomial x.toNat * bitPolynomial y.toNat) ∧
      bfMul x 1#256 = x ∧ bfMul x 0#256 = 0#256 ∧ bfMul x y = bfMul y x ∧
      bfMul (bfMul x y) z = bfMul x (bfMul y z)

/-- bf.divide gives a quotient and a remainder shorter than the divisor. (41_binary_field.md section 1) -/
def Obligations.PolynomialDivisionOverGf2HasSmallerRemainder : Prop :=
  ∀ a b : Nat, b ≠ 0 →
    a = clmul (bfDivide a b).1 b ^^^ (bfDivide a b).2 ∧ bitLen (bfDivide a b).2 < bitLen b

/-- BADD and BSUB write the exclusive-or of any two values. (R136, R137) -/
def Obligations.BaddAndBsubWriteTheExclusiveOr : Prop :=
  ∀ (rd ra rb : EReg) (s : State), ∀ i ∈ [Instr.badd rd ra rb, Instr.bsub rd ra rb],
    (∀ x y, s.e[ra] = some x → s.e[rb] = some y → exec i s = .next (s.gaveE rd (x ^^^ y))) ∧
    FailsOnMissingSource i s ∧ opField (encode (.badd rd ra rb)) = 0x20#8 ∧ opField (encode (.bsub rd ra rb)) = 0x21#8

/-- BMUL writes the product modulo Q. (R138) -/
def Obligations.BmulWritesTheProductModuloQ : Prop :=
  ∀ (rd ra rb : EReg) (s : State),
    (∀ x y, s.e[ra] = some x → s.e[rb] = some y →
      ∃ z, exec (.bmul rd ra rb) s = .next (s.gaveE rd z) ∧
        z = bfMul x y ∧ bitPolynomial z.toNat = modQ (bitPolynomial x.toNat * bitPolynomial y.toNat)) ∧
    FailsOnMissingSource (.bmul rd ra rb) s ∧ opField (encode (.bmul rd ra rb)) = 0x22#8

/-- BEXP writes the power modulo Q, for every 256-bit exponent. (41_binary_field.md sections 1 and 2) -/
def Obligations.BexpWritesThePowerModuloQ : Prop :=
  ∀ (rd ra rb : EReg) (s : State),
    (∀ x y, s.e[ra] = some x → s.e[rb] = some y →
      ∃ z, exec (.bexp rd ra rb) s = .next (s.gaveE rd z) ∧
        bitPolynomial z.toNat = modQ (bitPolynomial x.toNat ^ y.toNat)) ∧
    FailsOnMissingSource (.bexp rd ra rb) s ∧ opField (encode (.bexp rd ra rb)) = 0x23#8

/-- BINV and BINVE write the power with exponent 2^256 - 2 and fail with E_ZERO at zero. (41_binary_field.md sections 1 and
2) -/
def Obligations.BinvAndBinveWriteTheFermatInverse : Prop :=
  ∀ (rd ra : EReg) (s : State), ∀ i ∈ [Instr.binv rd ra, Instr.binve rd ra],
    (∀ x, s.e[ra] = some x → x ≠ 0#256 →
      ∃ z, exec i s = .next (s.gaveE rd z) ∧ bitPolynomial z.toNat = modQ (bitPolynomial x.toNat ^ (2 ^ 256 - 2))) ∧
    (s.e[ra] = some 0#256 → exec i s = .next (s.failedE rd 5)) ∧
    FailsOnMissingSource i s ∧ (opField (encode i)).toNat = opcodeOf i

/-- BDIV multiplies by the inverse of the divisor and fails with E_ZERO for a zero divisor. (41_binary_field.md sections 1
and 2) -/
def Obligations.BdivWritesTheQuotient : Prop :=
  ∀ (rd ra rb : EReg) (s : State),
    (∀ x y, s.e[ra] = some x → s.e[rb] = some y → y ≠ 0#256 →
      ∃ z, exec (.bdiv rd ra rb) s = .next (s.gaveE rd z) ∧
        bitPolynomial z.toNat = modQ (bitPolynomial x.toNat * bitPolynomial y.toNat ^ (2 ^ 256 - 2))) ∧
    (∀ x, s.e[ra] = some x → s.e[rb] = some 0#256 → exec (.bdiv rd ra rb) s = .next (s.failedE rd 5)) ∧
    FailsOnMissingSource (.bdiv rd ra rb) s ∧ opField (encode (.bdiv rd ra rb)) = 0x26#8

/-- In the binary field division undoes multiplication, and both inverse algorithms agree. The Euclidean loop is the one R141
supplies from general knowledge, here with the 256 passes of R265 at most, and no meaning uses it (log 9, log 15). It rests
on the irreducibility of Q, which the spec asserts and does not prove (log 13). (41_binary_field.md section 3,
41_binary_field.md section 2, 70_reset_and_hazards.md section 3) -/
def Obligations.BinaryDivisionUndoesMultiplication : Prop :=
  (∀ x y : Elem, y ≠ 0#256 → bfDiv (bfMul x y) y = .ok x) ∧
    (∀ x : Elem, x ≠ 0#256 → bfMul x (bfInvNonzero x) = 1#256 ∧ bfEuclidInv x = bfInvNonzero x) ∧
    ∀ (rd ra : EReg) (s : State), exec (.binve rd ra) s = exec (.binv rd ra) s

/-- PEVAL writes the sum of the coefficients times the powers of the point. (42_polynomial.md sections 1 and 2) -/
def Obligations.PevalWritesTheSumOfPowers : Prop :=
  ∀ (rd : EReg) (ra : VReg) (rb : EReg) (s : State),
    (∀ cs x, s.v[ra] = some cs → s.e[rb] = some x → Canonical cs → x.toNat < Config.primeP →
      exec (.peval rd ra rb) s = .next (s.gaveE rd (BitVec.ofNat 256
        ((∑ i ∈ Finset.range cs.length, (cs.getD i 0#256).toNat * x.toNat ^ i) % Config.primeP)))) ∧
    FailsOutOfRangeMixed (.peval rd ra rb) ra rb s ∧ FailsOnMissingSource (.peval rd ra rb) s ∧
    opField (encode (.peval rd ra rb)) = 0x30#8

/-- PVANISH writes the monic polynomial with the given roots. (42_polynomial.md sections 1 and 2) -/
def Obligations.PvanishWritesTheVanishingPolynomial : Prop :=
  ∀ (rd ra : VReg) (s : State),
    (∀ roots, s.v[ra] = some roots → Canonical roots → roots.length + 1 ≤ s.vcap.toNat →
      ∃ zs : List Nat, exec (.pvanish rd ra) s = .next (s.gaveV rd (zs.map (BitVec.ofNat 256)) 0#64) ∧
        zs.length = roots.length + 1 ∧ (∀ z ∈ zs, z < Config.primeP) ∧
        seqPolynomial zs = (roots.map fun r => Polynomial.X - Polynomial.C (r.toNat : ZMod Config.primeP)).prod) ∧
    (∀ roots, s.v[ra] = some roots → Canonical roots → s.vcap.toNat < roots.length + 1 →
      exec (.pvanish rd ra) s = .next (s.failedV rd 6)) ∧
    (∀ roots, s.v[ra] = some roots → NotCanonical roots → exec (.pvanish rd ra) s = .next (s.failedV rd 2)) ∧
    FailsOnMissingSource (.pvanish rd ra) s ∧ opField (encode (.pvanish rd ra)) = 0x31#8

/-- PPMUL writes the product of two polynomials, of the convolution's length. (42_polynomial.md sections 1 and 2) -/
def Obligations.PpmulWritesTheConvolution : Prop :=
  ∀ (rd ra rb : VReg) (s : State),
    (∀ a b, s.v[ra] = some a → s.v[rb] = some b → Canonical a → Canonical b → a ≠ [] → b ≠ [] →
      a.length + b.length - 1 ≤ s.vcap.toNat →
      ∃ c : List Nat, exec (.ppmul rd ra rb) s = .next (s.gaveV rd (c.map (BitVec.ofNat 256)) 0#64) ∧
        c.length = a.length + b.length - 1 ∧ (∀ z ∈ c, z < Config.primeP) ∧
        seqPolynomial c = seqPolynomial (a.map BitVec.toNat) * seqPolynomial (b.map BitVec.toNat)) ∧
    (∀ a b, s.v[ra] = some a → s.v[rb] = some b → Canonical a → Canonical b → a = [] ∨ b = [] →
      exec (.ppmul rd ra rb) s = .next (s.gaveV rd [] 0#64)) ∧
    (∀ a b, s.v[ra] = some a → s.v[rb] = some b → Canonical a → Canonical b → a ≠ [] → b ≠ [] →
      s.vcap.toNat < a.length + b.length - 1 → exec (.ppmul rd ra rb) s = .next (s.failedV rd 6)) ∧
    FailsOutOfRangeSequences (.ppmul rd ra rb) rd ra rb s ∧ FailsOnMissingSource (.ppmul rd ra rb) s ∧
    opField (encode (.ppmul rd ra rb)) = 0x32#8

/-- PPDIV and PPREM write the quotient and remainder of polynomial division. (42_polynomial.md sections 1 and 2) -/
def Obligations.PpdivAndPpremDivideWithRemainder : Prop :=
  ∀ (rd ra rb : VReg) (s : State),
    (∀ a b db, s.v[ra] = some a → s.v[rb] = some b → Canonical a → Canonical b → b.length ≤ a.length →
      b.getD db 0#256 ≠ 0#256 → (∀ j, db < j → b.getD j 0#256 = 0#256) →
      ∃ q r : List Nat, exec (.ppdiv rd ra rb) s = .next (s.gaveV rd (q.map (BitVec.ofNat 256)) 0#64) ∧
        exec (.pprem rd ra rb) s = .next (s.gaveV rd (r.map (BitVec.ofNat 256)) 0#64) ∧
        q.length = a.length - db ∧ r.length = db ∧ (∀ z ∈ q ++ r, z < Config.primeP) ∧
        seqPolynomial (a.map BitVec.toNat) = seqPolynomial q * seqPolynomial (b.map BitVec.toNat) + seqPolynomial r) ∧
    ∀ i ∈ [Instr.ppdiv rd ra rb, Instr.pprem rd ra rb],
      (∀ a b, s.v[ra] = some a → s.v[rb] = some b → Canonical a → Canonical b → a.length < b.length →
        exec i s = .next (s.failedV rd 1)) ∧
      (∀ a b, s.v[ra] = some a → s.v[rb] = some b → Canonical a → b.length ≤ a.length → (∀ x ∈ b, x = 0#256) →
        exec i s = .next (s.failedV rd 5)) ∧
      FailsOutOfRangeSequences i rd ra rb s ∧ FailsOnMissingSource i s ∧ (opField (encode i)).toNat = opcodeOf i

/-- PLAG writes the polynomial of degree below k through k samples. (42_polynomial.md sections 1 and 2) -/
def Obligations.PlagInterpolatesTheSamples : Prop :=
  ∀ (rd ra rb : VReg) (s : State),
    (∀ xs ys, s.v[ra] = some xs → s.v[rb] = some ys → Canonical xs → Canonical ys → ys.length = xs.length → xs.Nodup →
      ∃ cs : List Nat, exec (.plag rd ra rb) s = .next (s.gaveV rd (cs.map (BitVec.ofNat 256)) 0#64) ∧
        cs.length = xs.length ∧ (∀ c ∈ cs, c < Config.primeP) ∧
        ∀ i < xs.length, (∑ j ∈ Finset.range cs.length, cs.getD j 0 * (xs.getD i 0#256).toNat ^ j) % Config.primeP =
          (ys.getD i 0#256).toNat) ∧
    (∀ xs ys, s.v[ra] = some xs → s.v[rb] = some ys → Canonical xs → Canonical ys → ys.length ≠ xs.length →
      exec (.plag rd ra rb) s = .next (s.failedV rd 1)) ∧
    (∀ xs ys, s.v[ra] = some xs → s.v[rb] = some ys → Canonical xs → Canonical ys → ys.length = xs.length → ¬ xs.Nodup →
      exec (.plag rd ra rb) s = .next (s.failedV rd 3)) ∧
    FailsOutOfRangeSequences (.plag rd ra rb) rd ra rb s ∧ FailsOnMissingSource (.plag rd ra rb) s ∧
    opField (encode (.plag rd ra rb)) = 0x35#8

/-- PLAG4 interpolates exactly four samples, with PLAG's result, and fails with E_LENGTH otherwise. (42_polynomial.md
sections 2 and 3) -/
def Obligations.Plag4AgreesWithPlagOnFourSamples : Prop :=
  ∀ (rd ra rb : VReg) (s : State),
    (∀ xs ys, s.v[ra] = some xs → s.v[rb] = some ys → Canonical xs → Canonical ys → xs.length = 4 → ys.length = 4 →
      xs.Nodup → exec (.plag4 rd ra rb) s = exec (.plag rd ra rb) s ∧
      ∃ cs : List Elem, exec (.plag4 rd ra rb) s = .next (s.gaveV rd cs 0#64) ∧ cs.length = 4) ∧
    (∀ xs ys, s.v[ra] = some xs → s.v[rb] = some ys → Canonical xs → Canonical ys → xs.length ≠ 4 ∨ ys.length ≠ 4 →
      exec (.plag4 rd ra rb) s = .next (s.failedV rd 1)) ∧
    (∀ xs ys, s.v[ra] = some xs → s.v[rb] = some ys → Canonical xs → Canonical ys → xs.length = 4 → ys.length = 4 →
      ¬ xs.Nodup → exec (.plag4 rd ra rb) s = .next (s.failedV rd 3)) ∧
    FailsOutOfRangeSequences (.plag4 rd ra rb) rd ra rb s ∧ FailsOnMissingSource (.plag4 rd ra rb) s ∧
    opField (encode (.plag4 rd ra rb)) = 0x36#8

/-- ORDER writes the powers of the root, or of its inverse, up to its order. (43_root_of_unity_fft.md sections 1 and 2) -/
def Obligations.OrderWritesTheRootOfUnityTable : Prop :=
  ∀ (rd : VReg) (ra : EReg) (inv : Bool) (s : State),
    (∀ x, s.e[ra] = some x → x.toNat < Config.primeP → (inv = true → x ≠ 0#256) →
      (∀ k, HasOrder (if inv then x.toNat ^ (Config.primeP - 2) % Config.primeP else x.toNat) (2 ^ k) →
        2 ^ k ≤ s.nmax.toNat →
        exec (.order rd ra inv) s = .next (s.gaveV rd ((List.range (2 ^ k)).map fun j => BitVec.ofNat 256
          ((if inv then x.toNat ^ (Config.primeP - 2) % Config.primeP else x.toNat) ^ j % Config.primeP)) 0#64)) ∧
      (∀ n, HasOrder (if inv then x.toNat ^ (Config.primeP - 2) % Config.primeP else x.toNat) n →
        n ≤ s.nmax.toNat → (∀ k, n ≠ 2 ^ k) → exec (.order rd ra inv) s = .next (s.failedV rd 4)) ∧
      (NoOrderUpTo (if inv then x.toNat ^ (Config.primeP - 2) % Config.primeP else x.toNat) s.nmax.toNat →
        1 ≤ s.nmax.toNat → exec (.order rd ra inv) s = .next (s.failedV rd 6))) ∧
    (inv = true → s.e[ra] = some 0#256 → exec (.order rd ra inv) s = .next (s.failedV rd 5)) ∧
    (∀ x, s.e[ra] = some x → Config.primeP ≤ x.toNat → exec (.order rd ra inv) s = .next (s.failedV rd 2)) ∧
    FailsOnMissingSource (.order rd ra inv) s ∧ opField (encode (.order rd ra inv)) = 0x40#8

/-- FFT writes the values of the polynomial at the powers of the root. (43_root_of_unity_fft.md sections 1 and 2) -/
def Obligations.FftEvaluatesAtThePowersOfTheRoot : Prop :=
  ∀ (rd ra : VReg) (rb : EReg) (s : State),
    (∀ cs root, s.v[ra] = some cs → s.e[rb] = some root → Canonical cs → root.toNat < Config.primeP →
      (∀ k, HasOrder root.toNat (2 ^ k) → 2 ^ k ≤ s.nmax.toNat → cs.length ≤ 2 ^ k →
        exec (.fft rd ra rb) s = .next (s.gaveV rd ((List.range (2 ^ k)).map fun i => BitVec.ofNat 256
          ((∑ j ∈ Finset.range cs.length, (cs.getD j 0#256).toNat * root.toNat ^ (i * j)) % Config.primeP)) 0#64)) ∧
      (∀ k, HasOrder root.toNat (2 ^ k) → 2 ^ k ≤ s.nmax.toNat → 2 ^ k < cs.length →
        exec (.fft rd ra rb) s = .next (s.failedV rd 1)) ∧
      (∀ n, HasOrder root.toNat n → n ≤ s.nmax.toNat → (∀ k, n ≠ 2 ^ k) →
        exec (.fft rd ra rb) s = .next (s.failedV rd 4)) ∧
      (NoOrderUpTo root.toNat s.nmax.toNat → 1 ≤ s.nmax.toNat → exec (.fft rd ra rb) s = .next (s.failedV rd 6))) ∧
    FailsOutOfRangeMixed (.fft rd ra rb) ra rb s ∧ FailsOnMissingSource (.fft rd ra rb) s ∧
    opField (encode (.fft rd ra rb)) = 0x41#8

/-- IFFT writes the inverse transform, scaled once by the inverse of the size. (43_root_of_unity_fft.md sections 1 and 2) -/
def Obligations.IfftRecoversFromThePowersOfTheRoot : Prop :=
  ∀ (rd ra : VReg) (rb : EReg) (s : State),
    (∀ ys root, s.v[ra] = some ys → s.e[rb] = some root → Canonical ys → root.toNat < Config.primeP →
      (∀ k, HasOrder root.toNat (2 ^ k) → 2 ^ k ≤ s.nmax.toNat → ys.length = 2 ^ k →
        exec (.ifft rd ra rb) s = .next (s.gaveV rd ((List.range (2 ^ k)).map fun i => BitVec.ofNat 256
          ((2 ^ k) ^ (Config.primeP - 2) *
            (∑ j ∈ Finset.range (2 ^ k), (ys.getD j 0#256).toNat * (root.toNat ^ (Config.primeP - 2)) ^ (i * j)) %
            Config.primeP)) 0#64)) ∧
      (∀ k, HasOrder root.toNat (2 ^ k) → 2 ^ k ≤ s.nmax.toNat → ys.length ≠ 2 ^ k →
        exec (.ifft rd ra rb) s = .next (s.failedV rd 1)) ∧
      (∀ n, HasOrder root.toNat n → n ≤ s.nmax.toNat → (∀ k, n ≠ 2 ^ k) →
        exec (.ifft rd ra rb) s = .next (s.failedV rd 4)) ∧
      (root ≠ 0#256 → NoOrderUpTo root.toNat s.nmax.toNat → 1 ≤ s.nmax.toNat →
        exec (.ifft rd ra rb) s = .next (s.failedV rd 6)) ∧
      (root = 0#256 → exec (.ifft rd ra rb) s = .next (s.failedV rd 5))) ∧
    FailsOutOfRangeMixed (.ifft rd ra rb) ra rb s ∧ FailsOnMissingSource (.ifft rd ra rb) s ∧
    opField (encode (.ifft rd ra rb)) = 0x42#8

/-- The radix-2 recursion computes the transform sum, scaled once by the twist factor. (43_root_of_unity_fft.md section 1) -/
def Obligations.RadixTwoRecursionComputesTheTransformSum : Prop :=
  ∀ (nmax root : Nat) (inverse : Bool) (t y : List Nat) (w : Nat), root < Config.primeP →
    fftOrder nmax root inverse = .ok t → y.length = t.length → (∀ x ∈ y, x < Config.primeP) → w < Config.primeP →
    fftRadix2 y t w = (fftDft y t).map (pfMul w)

/-- The forward and the inverse transform undo each other. (43_root_of_unity_fft.md section 3) -/
def Obligations.TransformsRoundTrip : Prop :=
  ∀ (nmax root : Nat) (t ti ys : List Nat), root < Config.primeP →
    fftOrder nmax root false = .ok t → fftOrder nmax root true = .ok ti →
    ys.length = t.length → (∀ y ∈ ys, y < Config.primeP) →
    (∃ cs, inverseTransform ys ti = .ok cs ∧ forwardTransform cs t = .ok ys) ∧
      ∃ es, forwardTransform ys t = .ok es ∧ inverseTransform es ti = .ok ys

/-- PFROMB writes the big-endian value of a byte range, modulo P. (R222) -/
def Obligations.PfrombLoadsABigEndianNumber : Prop :=
  ∀ (rd : EReg) (off len : Nat) (s : State),
    (off + len ≤ s.bfill.toNat →
      exec (.pfromb rd off len) s = .next (s.gaveE rd (BitVec.ofNat 256
        ((∑ k ∈ Finset.range len, (Memory.read s.buf (off + k)).toNat * 256 ^ (len - 1 - k)) % Config.primeP)))) ∧
    (s.bfill.toNat < off + len → exec (.pfromb rd off len) s = .next (s.failedE rd 2)) ∧
    opField (encode (.pfromb rd off len)) = 0x50#8 ∧ widthField (encode (.pfromb rd off len)) = 0#2 ∧
    ∀ w : CommandWord, opField w = 0x50#8 → widthField w ≠ 0#2 → ∀ i, decode w ≠ .ok i

/-- PLOADV writes one element for each chunk, the last chunk padded with zero bytes at its end. (44_byte_loading.md sections
1 and 2) -/
def Obligations.PloadvLoadsPaddedChunks : Prop :=
  ∀ (rd : VReg) (off len : Nat) (s : State), ∀ p ∈ [(ChunkWidth.w8, 8), (ChunkWidth.w31, 31), (ChunkWidth.w32, 32)],
    (off + len ≤ s.bfill.toNat → (len + p.2 - 1) / p.2 ≤ s.vcap.toNat →
      exec (.ploadv rd off len p.1) s = .next (s.gaveV rd ((List.range ((len + p.2 - 1) / p.2)).map fun k =>
        BitVec.ofNat 256 ((∑ j ∈ Finset.range p.2, (if k * p.2 + j < len then
          (Memory.read s.buf (off + k * p.2 + j)).toNat else 0) * 256 ^ (p.2 - 1 - j)) % Config.primeP)) 0#64)) ∧
    (s.bfill.toNat < off + len → exec (.ploadv rd off len p.1) s = .next (s.failedV rd 2)) ∧
    (off + len ≤ s.bfill.toNat → s.vcap.toNat < (len + p.2 - 1) / p.2 →
      exec (.ploadv rd off len p.1) s = .next (s.failedV rd 6)) ∧
    opField (encode (.ploadv rd off len p.1)) = 0x51#8

/-- E_INVALID is raised exactly when a source register holds none. (R240) -/
def Obligations.MissingSourceFailsWithInvalid : Prop :=
  ∀ (i : Instr) (s : State),
    FailsOnMissingSource i s ∧
      ∀ t, exec i s = .next t → t.status = 7#64 → ∃ r ∈ sources i, s.isNone r

/-- Every command writes its result whole, or leaves its destination none, and changes nothing else. (60_exceptions.md
section 3, 10_state.md section 4) -/
def Obligations.EveryCommandEndsWholeInSuccessOrFailure : Prop :=
  ∀ (i : Instr) (s : State),
    (∃ rd x, destination i = .e rd ∧ exec i s = .next (s.gaveE rd x)) ∨
      (∃ rd xs, destination i = .v rd ∧ exec i s = .next (s.gaveV rd xs 0#64)) ∨
      (∃ rd ra xs, i = .pbinv rd ra ∧ exec i s = .next (s.gaveV rd xs 0x100#64)) ∨
      ∃ k, 1 ≤ k ∧ k ≤ 7 ∧ exec i s = .next (s.failed k (destination i))

/-- A command fails only with a code its rule lists. (60_exceptions.md section 4, 40_prime_field.md section 2,
41_binary_field.md section 2, 42_polynomial.md section 2, 43_root_of_unity_fft.md section 2, 44_byte_loading.md section 2) -/
def Obligations.CommandsRaiseOnlyTheirListedFailures : Prop :=
  ∀ (i : Instr) (s t : State), exec i s = .next t → statusCode t.status ≠ 0 →
    ∃ c ∈ listedFailures i, statusCode t.status = c.number

/-- Every element a prime-field, polynomial, transform or load command writes is below P. (40_prime_field.md section 1,
44_byte_loading.md section 1) -/
def Obligations.PrimeResultsAreCanonical : Prop :=
  ∀ (i : Instr) (s t : State), givesPrimeResult i = true → exec i s = .next t →
    (∀ x, (t.contents (destination i)).1 = some x → x.toNat < Config.primeP) ∧
      ∀ xs, (t.contents (destination i)).2 = some xs → Canonical xs

/-- The outcome of a command depends only on its sources, the parameters and, for a load, BFILL and the bytes it names.
(10_state.md section 9, 00_scope.md section 5) -/
def Obligations.OutcomeDependsOnlyOnWhatTheCommandNames : Prop :=
  ∀ (i : Instr) (s s' : State), s.nmax = s'.nmax → s.vcap = s'.vcap →
    (readsBuffer i = true → s.bfill = s'.bfill) →
    (∀ r ∈ sources i, s.contents r = s'.contents r) →
    (∀ a, a < s.bfill.toNat → namesByte a i → Memory.read s.buf a = Memory.read s'.buf a) →
    ∃ t t', exec i s = .next t ∧ exec i s' = .next t' ∧ t.status = t'.status ∧
      t.contents (destination i) = t'.contents (destination i)

/-- ZSKIP is 1 after a command exactly if it is a PBINV that succeeded and met a zero. (10_state.md section 4) -/
def Obligations.ZskipFlagsExactlyTheSkippedZeros : Prop :=
  (∀ (i : Instr) (s t : State), exec i s = .next t →
      (statusZskip t.status = true ↔
        ∃ rd ra xs, i = .pbinv rd ra ∧ s.v[ra] = some xs ∧ Canonical xs ∧ 0#256 ∈ xs)) ∧
    (∀ (i : Instr) (s : State) (st : Csr), exec i { s with status := st } = exec i s) ∧
    statusZskip State.reset.status = false

/-- A bit of ERRSUM stays set until the host clears it or the engine is reset, and is set only by its failure. (10_state.md
section 5, 20_memory.md section 6) -/
def Obligations.ErrsumIsSticky : Prop :=
  ∀ (s t : State) (k : Nat), step s = .next t →
    (s.errsum.getLsbD k = true → t.errsum.getLsbD k = true ∨
      ∃ rest, s.pending = .reset :: rest ∨ ∃ mask, s.pending = .hClearErr mask :: rest ∧ mask.getLsbD k = true) ∧
    (s.errsum.getLsbD k = false → t.errsum.getLsbD k = true →
      1 ≤ k ∧ k ≤ 8 ∧ t.status.toNat = k ∧ ∃ w rest, s.pending = .hIssue w :: rest)

/-- No event changes NMAX, VCAP or BCAP; only H_LOAD_BUF and reset touch the buffer; only H_ISSUE and reset write STATUS.
(10_state.md section 5, 20_memory.md section 6) -/
def Obligations.ParametersAreReadOnly : Prop :=
  ∀ s t : State, step s = .next t →
    t.nmax = s.nmax ∧ t.vcap = s.vcap ∧ t.bcap = s.bcap ∧
      ((t.buf = s.buf ∧ t.bfill = s.bfill) ∨ ∃ rest, s.pending = .reset :: rest ∨ ∃ bytes, s.pending = .hLoadBuf bytes :: rest) ∧
      (t.status = s.status ∨ ∃ rest, s.pending = .reset :: rest ∨ ∃ w, s.pending = .hIssue w :: rest)

/-- H_WRITE_E writes any 256-bit value; H_READ_E returns it or no value and changes nothing. The list of events and the
answer are the model's own (log 1, log 8). (20_memory.md section 6) -/
def Obligations.HostWritesAndReadsElementRegisters : Prop :=
  ∀ (s : State) (rest : List HostEvent) (i : EReg),
    (∀ val, val < 2 ^ 256 → s.pending = .hWriteE i.val val :: rest →
      step s = .next { s with pending := rest, e := s.e.set i.val (some (BitVec.ofNat 256 val)) i.isLt,
                              answer := some .done }) ∧
    (s.pending = .hReadE i.val :: rest →
      (∀ x, s.e[i] = some x → step s = .next { s with pending := rest, answer := some (.element x) }) ∧
      (s.e[i] = none → step s = .next { s with pending := rest, answer := some .noValue }))

/-- H_WRITE_V writes a sequence of at most VCAP values; H_READ_V returns it or no value and changes nothing. The list of
events and the answer are the model's own (log 1, log 8). (20_memory.md section 6) -/
def Obligations.HostWritesAndReadsVectorRegisters : Prop :=
  ∀ (s : State) (rest : List HostEvent) (i : VReg),
    (∀ seq, seq.length ≤ s.vcap.toNat → (∀ x ∈ seq, x < 2 ^ 256) → s.pending = .hWriteV i.val seq :: rest →
      step s = .next { s with pending := rest, v := s.v.set i.val (some (seq.map (BitVec.ofNat 256))) i.isLt,
                              answer := some .done }) ∧
    (s.pending = .hReadV i.val :: rest →
      (∀ xs, s.v[i] = some xs → step s = .next { s with pending := rest, answer := some (.sequence xs) }) ∧
      (s.v[i] = none → step s = .next { s with pending := rest, answer := some .noValue }))

/-- H_LOAD_BUF stores the string from offset 0 and sets BFILL to its length. What the list holds from the new BFILL up is the
model's choice, since the spec leaves those bytes any value (R41, R63; log 5). The list of events and the answer are the
model's own (log 1, log 8). (20_memory.md section 6) -/
def Obligations.LoadBufReplacesTheByteStream : Prop :=
  ∀ (s : State) (rest : List HostEvent) (bytes : List Byte), Memory.wf s.buf →
    bytes.length ≤ s.bcap.toNat → s.pending = .hLoadBuf bytes :: rest →
    ∃ m, step s = .next { s with pending := rest, buf := m, bfill := BitVec.ofNat 64 bytes.length, answer := some .done } ∧
      Memory.wf m ∧ (∀ k < bytes.length, Memory.read m k = bytes.getD k 0#8) ∧
      ∀ a, bytes.length ≤ a → Memory.read m a = Memory.read s.buf a

/-- H_READ_CSR returns the constants, the parameters, the status registers and the views. That each value is zero-extended to
257 bits is the model's choice (log 11; R28 gives each CSR its own width). The list of events and the answer are the model's
own (log 1, log 8). (10_state.md section 5, 20_memory.md section 6) -/
def Obligations.CsrReadsReturnTheRegistersAndViews : Prop :=
  ∀ s : State,
    s.csr 0x00 = some (BitVec.ofNat 257 (2 ^ 256 - 351 * 2 ^ 32 + 1)) ∧
    (∃ q, s.csr 0x01 = some q ∧ ∀ k, q.getLsbD k = true ↔ k ∈ [256, 241, 178, 121, 0]) ∧
    s.csr 0x02 = some (s.nmax.setWidth 257) ∧ s.csr 0x03 = some (s.vcap.setWidth 257) ∧
    s.csr 0x04 = some (s.bcap.setWidth 257) ∧ s.csr 0x05 = some (s.status.setWidth 257) ∧
    s.csr 0x06 = some (s.errsum.setWidth 257) ∧ s.csr 0x07 = some (s.bfill.setWidth 257) ∧
    (∃ q, s.csr 0x08 = some q ∧ ∀ k, q.getLsbD k = true ↔ ∃ i : EReg, i.val = k ∧ s.e[i].isSome = true) ∧
    (∃ q, s.csr 0x09 = some q ∧ ∀ k, q.getLsbD k = true ↔ ∃ i : VReg, i.val = k ∧ s.v[i].isSome = true) ∧
    (∀ i : VReg, (∀ xs, s.v[i] = some xs → s.csr (0x10 + i.val) = some ((BitVec.ofNat 64 xs.length).setWidth 257)) ∧
      (s.v[i] = none → s.csr (0x10 + i.val) = some 0#257)) ∧
    (∀ n, (s.csr n = none ↔ outOfRange s (.hReadCsr n))) ∧
    ∀ n x rest, s.csr n = some x → s.pending = .hReadCsr n :: rest →
      step s = .next { s with pending := rest, answer := some (.csr x) }

/-- H_CLEAR_ERR clears the bits of ERRSUM its mask selects within 8:1 and nothing else. The list of events and the answer are
the model's own (log 1, log 8). (20_memory.md section 6) -/
def Obligations.ClearErrClearsTheMaskedBits : Prop :=
  ∀ (s : State) (rest : List HostEvent) (mask : BitVec 64), s.pending = .hClearErr mask :: rest →
    ∃ es, step s = .next { s with pending := rest, errsum := es, answer := some .done } ∧
      ∀ k, es.getLsbD k = true ↔ s.errsum.getLsbD k = true ∧ ¬ (1 ≤ k ∧ k ≤ 8 ∧ mask.getLsbD k = true)

/-- A transaction with arguments out of range changes no engine state. That there is such a step is the model's choice (log
3). (20_memory.md section 6, 10_state.md section 5) -/
def Obligations.OutOfRangeTransactionsChangeNothing : Prop :=
  ∀ (s : State) (ev : HostEvent) (rest : List HostEvent), s.pending = ev :: rest → outOfRange s ev →
    step s = .next { s with pending := rest, answer := some .portError }

/-- Reset leaves every register none, STATUS, ERRSUM and BFILL zero, and the parameters as they are. When the next event is
reset, the step answers the reset state with this engine's own parameters and with the host's remaining events, which are not
the engine's (log 6). That the buffer list is then empty is the model's choice, since R41 leaves its contents unspecified
(log 5). That the answer is then nothing is the model's choice too (log 8). (70_reset_and_hazards.md section 1, 10_state.md
section 8) -/
def Obligations.ResetLeavesTheResetState : Prop :=
  ∀ (s : State) (rest : List HostEvent), s.pending = .reset :: rest →
    step s = .next { State.reset with pending := rest, nmax := s.nmax, vcap := s.vcap, bcap := s.bcap }
end

