-- ==== Sys2Proof/Laws/BitPolynomial.lean ====
section
/-! SUPPORT. The bridge from bit patterns to polynomials over GF(2): exclusive-or is the sum, a shift the product with a power
of `X`, `clmul` the product. -/

namespace Sys2Proof.Laws

open Sys2Proof.Machine Sys2Proof.Meaning

/-- The coefficient of `X^i` is bit `i`. -/
theorem bitPolynomial_coeff (n i : Nat) : (bitPolynomial n).coeff i = if n.testBit i then 1 else 0 := by
  have hpow : n < 2 ^ (n + 1) := Nat.lt_of_lt_of_le Nat.lt_two_pow_self (Nat.pow_le_pow_right (by decide) (Nat.le_succ n))
  have hterm : ∀ k, (if n.testBit k then (Polynomial.X : Polynomial (ZMod 2)) ^ k else 0).coeff i =
      if i = k then (if n.testBit i then 1 else 0) else 0 := by
    intro k
    by_cases h : i = k
    · subst h; split <;> simp
    · split <;> simp [Polynomial.coeff_X_pow, h]
  simp only [bitPolynomial, Polynomial.finsetSum_coeff, hterm]
  rw [Finset.sum_ite_eq]
  split
  · rfl
  · rename_i hi
    have hbit : n.testBit i = false :=
      Nat.testBit_lt_two_pow (Nat.lt_of_lt_of_le hpow (Nat.pow_le_pow_right (by decide) (by simpa using hi)))
    simp [hbit]

/-- Equal bit patterns and equal polynomials are the same thing. -/
theorem bitPolynomial_injective : Function.Injective bitPolynomial := by
  intro a b h
  apply Nat.eq_of_testBit_eq
  intro i
  have := congrArg (fun p => Polynomial.coeff p i) h
  simp only [bitPolynomial_coeff] at this
  cases ha : a.testBit i <;> cases hb : b.testBit i <;> simp_all

@[simp] theorem bitPolynomial_zero : bitPolynomial 0 = 0 := by
  ext i; simp [bitPolynomial_coeff]

@[simp] theorem bitPolynomial_one : bitPolynomial 1 = 1 := by
  ext i
  rw [bitPolynomial_coeff, Polynomial.coeff_one]
  cases i <;> simp [Nat.testBit_succ]

/-- Exclusive-or is addition. -/
theorem bitPolynomial_xor (a b : Nat) : bitPolynomial (a ^^^ b) = bitPolynomial a + bitPolynomial b := by
  ext i
  simp only [bitPolynomial_coeff, Polynomial.coeff_add, Nat.testBit_xor]
  cases a.testBit i <;> cases b.testBit i <;> (simp; try decide)

/-- A shift is multiplication by a power of `X`. -/
theorem bitPolynomial_shiftLeft (a k : Nat) : bitPolynomial (a <<< k) = Polynomial.X ^ k * bitPolynomial a := by
  ext i
  rw [Polynomial.coeff_X_pow_mul', bitPolynomial_coeff, bitPolynomial_coeff, Nat.testBit_shiftLeft]
  by_cases h : k ≤ i <;> simp [h]

/-- A power of two is a power of `X`. -/
theorem bitPolynomial_two_pow (k : Nat) : bitPolynomial (2 ^ k) = Polynomial.X ^ k := by
  rw [← Nat.one_shiftLeft, bitPolynomial_shiftLeft, bitPolynomial_one, mul_one]

/-- The low bits and the high bits of a pattern. -/
theorem bitPolynomial_split (a k : Nat) :
    bitPolynomial a = bitPolynomial (a % 2 ^ k) + Polynomial.X ^ k * bitPolynomial (a >>> k) := by
  rw [← bitPolynomial_shiftLeft, ← bitPolynomial_xor]
  congr 1
  apply Nat.eq_of_testBit_eq
  intro i
  rw [Nat.testBit_xor, Nat.testBit_mod_two_pow, Nat.testBit_shiftLeft, Nat.testBit_shiftRight]
  by_cases h : i < k
  · simp [h, Nat.not_le.2 h]
  · have : k + (i - k) = i := by omega
    simp [h, Nat.not_lt.1 h, this]

/-- A pattern below `2^k` has degree below `k`. -/
theorem bitPolynomial_degree_lt {a k : Nat} (h : a < 2 ^ k) : (bitPolynomial a).degree < k := by
  rw [Polynomial.degree_lt_iff_coeff_zero]
  intro i hi
  have : a.testBit i = false := Nat.testBit_lt_two_pow (Nat.lt_of_lt_of_le h (Nat.pow_le_pow_right (by decide) hi))
  simp [bitPolynomial_coeff, this]

/-- The loop of `clmul` is the product with the low bits of the second factor. -/
theorem clmulLoop_eq (a b k : Nat) :
    bitPolynomial (clmulLoop a b k) = bitPolynomial a * bitPolynomial (b % 2 ^ k) := by
  induction k with
  | zero => simp [clmulLoop, Nat.mod_one]
  | succ k ih =>
    have hmod : b % 2 ^ (k + 1) = b % 2 ^ k ^^^ (if b.testBit k then 2 ^ k else 0) := by
      apply Nat.eq_of_testBit_eq
      intro i
      rw [Nat.testBit_xor, Nat.testBit_mod_two_pow, Nat.testBit_mod_two_pow]
      rcases Nat.lt_trichotomy i k with h | h | h
      · have hne : k ≠ i := by omega
        split <;> simp [h, Nat.lt_succ_of_lt h, hne]
      · subst h
        split <;> simp_all
      · have h1 : ¬ i < k := by omega
        have h2 : ¬ i < k + 1 := by omega
        have hne : k ≠ i := by omega
        split <;> simp [h1, h2, hne]
    rw [clmulLoop, bitPolynomial_xor, ih, hmod, bitPolynomial_xor, mul_add]
    congr 1
    split
    · rw [bitPolynomial_shiftLeft, bitPolynomial_two_pow, mul_comm]
    · simp

/-- `clmul` is the product of polynomials over GF(2). -/
theorem bitPolynomial_clmul (a b : Nat) : bitPolynomial (clmul a b) = bitPolynomial a * bitPolynomial b := by
  have hb : b < 2 ^ bitLen b := by
    unfold bitLen
    split
    · simp_all
    · exact Nat.lt_log2_self
  rw [clmul, clmulLoop_eq, Nat.mod_eq_of_lt hb]

/-- The bits of `Q` are its five terms. -/
theorem bitPolynomial_binaryQ :
    bitPolynomial Config.binaryQ =
      Polynomial.X ^ 256 + (Polynomial.X ^ 241 + Polynomial.X ^ 178 + Polynomial.X ^ 121 + 1) := by
  have hbits : Config.binaryQ = 2 ^ 256 ^^^ (2 ^ 241 ^^^ 2 ^ 178 ^^^ 2 ^ 121 ^^^ 1) := by decide +kernel
  rw [hbits]
  simp only [bitPolynomial_xor, bitPolynomial_two_pow, bitPolynomial_one]

/-- `Q` is monic. -/
theorem bitPolynomial_binaryQ_monic : (bitPolynomial Config.binaryQ).Monic := by
  rw [bitPolynomial_binaryQ]
  refine Polynomial.monic_X_pow_add ?_
  compute_degree!

/-- `Q` has degree 256. -/
theorem bitPolynomial_binaryQ_natDegree : (bitPolynomial Config.binaryQ).natDegree = 256 := by
  rw [bitPolynomial_binaryQ]
  compute_degree!

end Sys2Proof.Laws
end

