-- ==== Sys2Proof/Laws/IrreducibleQ.lean ====
section
/-! SUPPORT. The reduction polynomial `Q` is irreducible over GF(2): Rabin's test, with the iterated squares and the cofactors of
its coprimality as bit patterns. -/

namespace Sys2Proof.Laws

open Sys2Proof.Machine Sys2Proof.Meaning

/-- The bits of a pattern spread to the even positions: the square over GF(2). -/
def spreadBits : Nat → Nat → Nat
  | 0, _ => 0
  | fuel + 1, n => n % 2 ^^^ spreadBits fuel (n / 2) <<< 2

/-- Spreading the bits squares the polynomial. -/
theorem bitPolynomial_spreadBits (fuel n : Nat) (h : n < 2 ^ fuel) :
    bitPolynomial (spreadBits fuel n) = bitPolynomial n ^ 2 := by
  induction fuel generalizing n with
  | zero =>
    obtain rfl : n = 0 := by simpa using h
    simp [spreadBits]
  | succ fuel ih =>
    have hhalf : n / 2 < 2 ^ fuel := by rw [pow_succ] at h; omega
    have hsplit := bitPolynomial_split n 1
    rw [pow_one, pow_one, Nat.shiftRight_eq_div_pow, pow_one] at hsplit
    have hlow : bitPolynomial (n % 2) ^ 2 = bitPolynomial (n % 2) := by
      rcases Nat.mod_two_eq_zero_or_one n with h | h <;> simp [h]
    rw [spreadBits, bitPolynomial_xor, bitPolynomial_shiftLeft, ih _ hhalf, hsplit, add_pow_char, hlow]
    ring

/-- One folding: bits 256 and up brought down by `X^256 = Q - X^256` modulo `Q`. -/
def foldOnce (z : Nat) : Nat :=
  let h := z >>> 256
  z % 2 ^ 256 ^^^ (h ^^^ h <<< 121 ^^^ h <<< 178 ^^^ h <<< 241)

/-- Several foldings. -/
def foldBits : Nat → Nat → Nat
  | 0, z => z
  | k + 1, z => foldBits k (foldOnce z)

/-- Folding keeps the residue modulo `Q`. -/
theorem foldOnce_dvd (z : Nat) : bitPolynomial Config.binaryQ ∣ bitPolynomial z - bitPolynomial (foldOnce z) := by
  refine ⟨bitPolynomial (z >>> 256), ?_⟩
  have htwo : (2 : Polynomial (ZMod 2)) = 0 := CharTwo.two_eq_zero
  rw [bitPolynomial_split z 256, foldOnce, bitPolynomial_binaryQ]
  simp only [bitPolynomial_xor, bitPolynomial_shiftLeft]
  generalize bitPolynomial (z >>> 256) = h
  linear_combination (-(1 + Polynomial.X ^ 121 + Polynomial.X ^ 178 + Polynomial.X ^ 241) * h) * htwo

/-- Folding any number of times keeps the residue modulo `Q`. -/
theorem foldBits_dvd (k z : Nat) : bitPolynomial Config.binaryQ ∣ bitPolynomial z - bitPolynomial (foldBits k z) := by
  induction k generalizing z with
  | zero => simp [foldBits]
  | succ k ih =>
    have := dvd_add (foldOnce_dvd z) (ih (foldOnce z))
    rwa [sub_add_sub_cancel] at this

/-- A square modulo `Q`; eighteen foldings bring 512 bits below 256. -/
def squareModQ (n : Nat) : Nat := foldBits 18 (spreadBits 256 n)

/-- Iterated squares modulo `Q`, each kept to 256 bits, which loses nothing where the check that follows holds. -/
def squaresModQ : Nat → Nat → Option Nat
  | 0, n => some n
  | k + 1, n => if n < 2 ^ 256 then squaresModQ k (squareModQ n) else none

/-- Iterated squaring computes the power of `2^k` modulo `Q`. -/
theorem squaresModQ_dvd (k n m : Nat) (h : squaresModQ k n = some m) :
    bitPolynomial Config.binaryQ ∣ bitPolynomial n ^ 2 ^ k - bitPolynomial m := by
  induction k generalizing n with
  | zero =>
    obtain rfl : n = m := by simpa [squaresModQ] using h
    simp
  | succ k ih =>
    rw [squaresModQ] at h
    split at h
    · rename_i hn
      have h1 := foldBits_dvd 18 (spreadBits 256 n)
      rw [bitPolynomial_spreadBits 256 n hn] at h1
      have h2 := dvd_trans h1 (sub_dvd_pow_sub_pow _ _ (2 ^ k))
      have h3 := dvd_add h2 (ih _ h)
      rwa [squareModQ, sub_add_sub_cancel, ← pow_mul, ← pow_succ'] at h3
    · cases h

/-- `X^(2^128)` modulo `Q`. -/
def frobenius128 : Nat := 0x8f04d1ffe326f85780a4b766975bbd44ded3673b96155247d8f2ccfdaab77e33

/-- The cofactor of `X^(2^128) - X` in the combination that gives 1. -/
def cofactorU : Nat := 0xe11933a646279fa90b0f1efe655bb15a3a493c1fb7caebc208cd576d8cb3a288

/-- The cofactor of `Q` in the combination that gives 1. -/
def cofactorV : Nat := 0x752037959e43c2a1a428d256099b12a27a0c741e3e69a0a2b8d9f89243c52b09

set_option maxRecDepth 100000 in
theorem squares_128 : squaresModQ 128 2 = some frobenius128 := by decide +kernel

set_option maxRecDepth 100000 in
theorem squares_256 : squaresModQ 128 frobenius128 = some 2 := by decide +kernel

set_option maxRecDepth 100000 in
theorem cofactors : clmul cofactorU (frobenius128 ^^^ 2) ^^^ clmul cofactorV Config.binaryQ = 1 := by decide +kernel

/-- Two runs of squarings, one after the other. -/
theorem frobenius_chain {q x h : Polynomial (ZMod 2)} (a b : Nat) (h1 : q ∣ x ^ 2 ^ a - h) (h2 : q ∣ h ^ 2 ^ b - x) :
    q ∣ x ^ 2 ^ (a + b) - x := by
  have h3 := dvd_add (dvd_trans h1 (sub_dvd_pow_sub_pow _ _ (2 ^ b))) h2
  rwa [sub_add_sub_cancel, ← pow_mul, ← pow_add] at h3

/-- A common divisor of `q` and `y - x` divides 1, given a combination of `q` and the residue of `y - x`. -/
theorem dvd_one_of_combination {q x y h u v f : Polynomial (ZMod 2)} (hy : q ∣ y - h) (hone : u * (h + x) + v * q = 1)
    (hq : f ∣ q) (hf : f ∣ y - x) : f ∣ 1 := by
  have hsub : f ∣ h - x := by
    have := dvd_sub hf (dvd_trans hq hy)
    rwa [sub_sub_sub_cancel_left] at this
  rw [← hone, ← CharTwo.sub_eq_add h x]
  exact dvd_add (Dvd.dvd.mul_left hsub _) (Dvd.dvd.mul_left hq _)

/-- The bit pattern of `X`. -/
theorem bitPolynomial_two : bitPolynomial 2 = Polynomial.X := by simpa using bitPolynomial_two_pow 1

/-- The cofactors as polynomials. -/
theorem cofactors_polynomial :
    bitPolynomial cofactorU * (bitPolynomial frobenius128 + Polynomial.X) +
      bitPolynomial cofactorV * bitPolynomial Config.binaryQ = 1 := by
  rw [← bitPolynomial_two, ← bitPolynomial_xor, ← bitPolynomial_clmul, ← bitPolynomial_clmul, ← bitPolynomial_xor, cofactors,
    bitPolynomial_one]

/-- `X^(2^128)` leaves the residue `frobenius128`. -/
theorem frobenius128_dvd :
    bitPolynomial Config.binaryQ ∣ (Polynomial.X : Polynomial (ZMod 2)) ^ 2 ^ 128 - bitPolynomial frobenius128 := by
  have h := squaresModQ_dvd 128 2 frobenius128 squares_128
  rwa [bitPolynomial_two] at h

/-- `Q` divides `X^(2^256) - X`. -/
theorem binaryQ_dvd_frobenius :
    bitPolynomial Config.binaryQ ∣ (Polynomial.X : Polynomial (ZMod 2)) ^ 2 ^ (128 + 128) - Polynomial.X := by
  have h := squaresModQ_dvd 128 frobenius128 2 squares_256
  rw [bitPolynomial_two] at h
  exact frobenius_chain 128 128 frobenius128_dvd h

/-- The reduction polynomial is irreducible over GF(2) (41_binary_field.md R131; log 13). -/
theorem binaryQ_irreducible : Irreducible (bitPolynomial Config.binaryQ) := by
  have hdeg := bitPolynomial_binaryQ_natDegree
  have hne : bitPolynomial Config.binaryQ ≠ 0 := bitPolynomial_binaryQ_monic.ne_zero
  have hunit : ¬ IsUnit (bitPolynomial Config.binaryQ) := by
    intro h
    have := Polynomial.natDegree_eq_zero_of_isUnit h
    omega
  obtain ⟨f, hf, hdvd⟩ := WfDvdMonoid.exists_irreducible_factor hunit hne
  have hcard : Nat.card (ZMod 2) = 2 := by simp
  have h256 : f.natDegree ∣ 128 + 128 := by
    rw [hf.natDegree_dvd_iff_dvd_X_pow_card_pow_sub_X, hcard]
    exact dvd_trans hdvd binaryQ_dvd_frobenius
  have hfull : f.natDegree = 256 := by
    by_contra hlt
    have h128 : f.natDegree ∣ 128 := by
      have h2 : (2 : Nat).Prime := Nat.prime_two
      obtain ⟨k, hk, hfk⟩ := (Nat.dvd_prime_pow h2 (m := 8)).1 h256
      rw [hfk] at hlt ⊢
      have : k ≤ 7 := by
        rcases Nat.lt_or_ge k 8 with h | h
        · omega
        · exact absurd (by rw [Nat.le_antisymm hk h]; rfl) hlt
      exact Nat.pow_dvd_pow 2 this
    rw [hf.natDegree_dvd_iff_dvd_X_pow_card_pow_sub_X, hcard] at h128
    exact hf.not_isUnit (isUnit_of_dvd_one (dvd_one_of_combination frobenius128_dvd cofactors_polynomial hdvd h128))
  obtain ⟨g, hg⟩ := hdvd
  have hg0 : g ≠ 0 := by rintro rfl; simp at hg; exact hne hg
  have hsum := congrArg Polynomial.natDegree hg
  rw [Polynomial.natDegree_mul hf.ne_zero hg0, hdeg, hfull] at hsum
  have hgunit : IsUnit g := by
    rw [Polynomial.isUnit_iff_degree_eq_zero, Polynomial.degree_eq_natDegree hg0]
    exact_mod_cast (by omega : g.natDegree = 0)
  rw [hg]
  exact (irreducible_mul_isUnit hgunit).2 hf

end Sys2Proof.Laws
end

