-- ==== Sys2Proof/Laws/Memory.lean ====
section
/-! SUPPORT. The laws of the byte buffer: every operation keeps the canonical form, and a read after a write. -/

namespace Sys2Proof.Machine

/-- Every listed offset is above `a`. -/
abbrev Memory.above (m : Memory) (a : Nat) : Prop := ∀ c ∈ m, a < c.1

/-- The canonical form of a non-empty list: its head lies below the rest and is no unlisted byte, and the rest is canonical. -/
theorem Memory.wf_cons (c : Host.Cell) (m : Memory) :
    Memory.wf (c :: m) ↔ Memory.above m c.1 ∧ c.2 ≠ unlistedByte ∧ Memory.wf m := by
  simp only [Memory.wf, List.pairwise_cons, List.mem_cons, forall_eq_or_imp]
  tauto

/-- The empty buffer list, the one after reset, is canonical. -/
theorem Memory.wf_nil : Memory.wf [] := ⟨List.Pairwise.nil, by simp⟩

/-- An offset below every listed one reads as an unlisted byte. -/
theorem Memory.read_above {m : Memory} {a : Nat} (h : Memory.above m a) : Memory.read m a = unlistedByte := by
  induction m with
  | nil => rfl
  | cons c m ih =>
    have hc := h c (by simp)
    have : c.1 ≠ a := by omega
    simp [Memory.read, this, ih fun d hd => h d (by simp [hd])]

/-- An entry put in front of higher offsets keeps the form. -/
theorem Memory.entry_wf {a : Nat} {b : Byte} {m : Memory} (ha : Memory.above m a) (hm : Memory.wf m) :
    Memory.wf (Memory.entry a b m) := by
  unfold Memory.entry
  split
  · exact hm
  · exact (Memory.wf_cons _ _).2 ⟨ha, by assumption, hm⟩

/-- An entry lists nothing at or below an offset its rest and it itself lie above. -/
theorem Memory.entry_above {a d : Nat} {b : Byte} {m : Memory} (hd : d < a) (hm : Memory.above m d) :
    Memory.above (Memory.entry a b m) d := by
  unfold Memory.entry
  split
  · exact hm
  · intro c hc
    rcases List.mem_cons.1 hc with rfl | hc
    · exact hd
    · exact hm c hc

/-- A write lists nothing at or below an offset that the list and the written offset lie above. -/
theorem Memory.write_above {m : Memory} {a d : Nat} {b : Byte} (hd : d < a) (hm : Memory.above m d) :
    Memory.above (Memory.write m a b) d := by
  induction m with
  | nil => exact Memory.entry_above hd hm
  | cons c m ih =>
    have hrest : Memory.above m d := fun x hx => hm x (by simp [hx])
    unfold Memory.write
    split
    · exact Memory.entry_above hd hm
    · split
      · exact Memory.entry_above hd hrest
      · intro x hx
        rcases List.mem_cons.1 hx with rfl | hx
        · exact hm _ (by simp)
        · exact ih hrest x hx

/-- A write keeps the canonical form. -/
theorem Memory.write_wf {m : Memory} (a : Nat) (b : Byte) (hm : Memory.wf m) : Memory.wf (Memory.write m a b) := by
  induction m with
  | nil => exact Memory.entry_wf (by simp) hm
  | cons c m ih =>
    obtain ⟨habove, hne, hrest⟩ := (Memory.wf_cons _ _).1 hm
    unfold Memory.write
    split
    · refine Memory.entry_wf (fun x hx => ?_) hm
      rcases List.mem_cons.1 hx with rfl | hx
      · assumption
      · have := habove x hx
        omega
    · split
      · subst_vars
        exact Memory.entry_wf habove hrest
      · exact (Memory.wf_cons _ _).2 ⟨Memory.write_above (by simp only; omega) habove, hne, ih hrest⟩

/-- Storing consecutive bytes keeps the canonical form. -/
theorem Memory.writeBytes_wf {m : Memory} (a : Nat) (bs : List Byte) (hm : Memory.wf m) :
    Memory.wf (Memory.writeBytes m a bs) := by
  induction bs generalizing m a with
  | nil => exact hm
  | cons b bs ih => exact ih (a + 1) (Memory.write_wf a b hm)

/-- What an entry in front of higher offsets reads as. -/
theorem Memory.read_entry {a : Nat} {b : Byte} {m : Memory} (ha : Memory.above m a) (x : Nat) :
    Memory.read (Memory.entry a b m) x = if x = a then b else Memory.read m x := by
  unfold Memory.entry
  split
  · split
    · subst_vars
      exact Memory.read_above ha
    · rfl
  · simp only [Memory.read, eq_comm]

/-- A read after a write: the written byte at its offset, the old byte everywhere else. -/
theorem Memory.read_write {m : Memory} (hm : Memory.wf m) (a : Nat) (b : Byte) (x : Nat) :
    Memory.read (Memory.write m a b) x = if x = a then b else Memory.read m x := by
  induction m with
  | nil => exact Memory.read_entry (by simp) x
  | cons c m ih =>
    obtain ⟨habove, _, hrest⟩ := (Memory.wf_cons _ _).1 hm
    unfold Memory.write
    split
    · refine Memory.read_entry (fun y hy => ?_) x
      rcases List.mem_cons.1 hy with rfl | hy
      · assumption
      · have := habove y hy
        omega
    · split
      · subst_vars
        rw [Memory.read_entry habove x]
        by_cases hx : x = c.1
        · simp [hx]
        · have : c.1 ≠ x := fun h => hx h.symm
          simp [Memory.read, hx, this]
      · simp only [Memory.read, ih hrest]
        split_ifs <;> first | rfl | omega

/-- A read after consecutive bytes are stored: the bytes from the offset up, the old byte everywhere else. -/
theorem Memory.read_writeBytes {m : Memory} (hm : Memory.wf m) (a : Nat) (bs : List Byte) (x : Nat) :
    Memory.read (Memory.writeBytes m a bs) x =
      if a ≤ x ∧ x < a + bs.length then bs.getD (x - a) 0#8 else Memory.read m x := by
  induction bs generalizing m a with
  | nil =>
    simp only [Memory.writeBytes, List.length_nil]
    rw [if_neg (by omega)]
  | cons b bs ih =>
    rw [Memory.writeBytes, ih (Memory.write_wf a b hm), Memory.read_write hm]
    simp only [List.length_cons]
    by_cases hx : x = a
    · subst hx; simp
    · by_cases h1 : a + 1 ≤ x ∧ x < a + 1 + bs.length
      · have h2 : a ≤ x ∧ x < a + (bs.length + 1) := by omega
        obtain ⟨k, rfl⟩ : ∃ k, x = a + 1 + k := ⟨x - (a + 1), by omega⟩
        have h3 : a + 1 + k - a = k + 1 := by omega
        simp [h1, h2, h3]
      · have h2 : ¬ (a ≤ x ∧ x < a + (bs.length + 1)) := by omega
        rw [if_neg h1, if_neg h2, if_neg hx]

/-- Storing bytes lists only offsets that were listed or are stored to. -/
theorem Memory.writeBytes_bound {m : Memory} {n : Nat} (a : Nat) (bs : List Byte) (hm : ∀ c ∈ m, c.1 < n)
    (ha : a + bs.length ≤ n) : ∀ c ∈ Memory.writeBytes m a bs, c.1 < n := by
  have hwrite : ∀ (m : Memory) (a : Nat) (b : Byte), a < n → (∀ c ∈ m, c.1 < n) → ∀ c ∈ Memory.write m a b, c.1 < n := by
    intro m a b han hm
    have hentry : ∀ rest : Memory, (∀ c ∈ rest, c.1 < n) → ∀ c ∈ Memory.entry a b rest, c.1 < n := by
      intro rest hrest c hc
      unfold Memory.entry at hc
      split at hc
      · exact hrest c hc
      · rcases List.mem_cons.1 hc with rfl | hc
        · exact han
        · exact hrest c hc
    induction m with
    | nil => exact hentry [] hm
    | cons d m ih =>
      have hrest : ∀ c ∈ m, c.1 < n := fun c hc => hm c (by simp [hc])
      unfold Memory.write
      split
      · exact hentry _ hm
      · split
        · exact hentry _ hrest
        · intro c hc
          rcases List.mem_cons.1 hc with rfl | hc
          · exact hm _ (by simp)
          · exact ih hrest c hc
  induction bs generalizing m a with
  | nil => exact hm
  | cons b bs ih =>
    simp only [List.length_cons] at ha
    exact ih (a + 1) (hwrite m a b (by omega) hm) (by omega)

/-- The buffer after reset is canonical. -/
theorem reset_buf_wf : Memory.wf State.reset.buf := Memory.wf_nil

/-- `MemRead` gives as many bytes as asked for. -/
@[simp] theorem memRead_length (m : Memory) (a n : Nat) : (memRead m a n).length = n := by simp [memRead]

end Sys2Proof.Machine
end

