-- ==== Sys2Proof/Laws/Ops.lean ====
section
/-! SUPPORT. One lemma for each shared operation: everything it can do. Later proofs cite these and unfold none of them. -/

namespace Sys2Proof.Machine

/-! ### Sequencing -/

/-- A sequence of checks succeeds exactly if each does. -/
theorem except_bind_ok {α β : Type} (r : Except FailCode α) (f : α → Except FailCode β) (b : β) :
    (r >>= f) = .ok b ↔ ∃ a, r = .ok a ∧ f a = .ok b := by
  cases r <;> simp [bind, Except.bind]

/-- A sequence of checks raises what the first failing one raises. -/
theorem except_bind_error {α β : Type} (r : Except FailCode α) (f : α → Except FailCode β) (c : FailCode) :
    (r >>= f) = .error c ↔ r = .error c ∨ ∃ a, r = .ok a ∧ f a = .error c := by
  cases r <;> simp [bind, Except.bind]

/-- Mapping a result keeps success and failure apart. -/
theorem except_map_ok {α β : Type} (r : Except FailCode α) (f : α → β) (b : β) :
    r.map f = .ok b ↔ ∃ a, r = .ok a ∧ f a = b := by
  cases r <;> simp [Except.map]

/-- Mapping a result keeps the code raised. -/
theorem except_map_error {α β : Type} (r : Except FailCode α) (f : α → β) (c : FailCode) :
    r.map f = .error c ↔ r = .error c := by
  cases r <;> simp [Except.map]

/-! ### Sources (30_encoding.md R79 step 3) -/

/-- An element source is read exactly if the register holds a value. -/
theorem sourceE_ok (i : EReg) (s : State) (x : Elem) : sourceE i s = .ok x ↔ s.e[i] = some x := by
  unfold sourceE; split <;> simp_all

/-- The only failure of an element source: the register holds `none`, `E_INVALID`. -/
theorem sourceE_error (i : EReg) (s : State) (c : FailCode) :
    sourceE i s = .error c ↔ c = .invalid ∧ s.e[i] = none := by
  unfold sourceE
  cases h : s.e[i] <;> simp [eq_comm]

/-- A vector source is read exactly if the register holds a sequence. -/
theorem sourceV_ok (i : VReg) (s : State) (xs : List Elem) : sourceV i s = .ok xs ↔ s.v[i] = some xs := by
  unfold sourceV; split <;> simp_all

/-- The only failure of a vector source: the register holds `none`, `E_INVALID`. -/
theorem sourceV_error (i : VReg) (s : State) (c : FailCode) :
    sourceV i s = .error c ↔ c = .invalid ∧ s.v[i] = none := by
  unfold sourceV
  cases h : s.v[i] <;> simp [eq_comm]

/-! ### Range checks (30_encoding.md R79 step 4) -/

/-- A scalar passes the range check exactly if it is below `P`. -/
theorem canonical_ok (x : Elem) (n : Nat) : canonical x = .ok n ↔ x.toNat < Config.primeP ∧ n = x.toNat := by
  unfold canonical; split <;> simp_all [eq_comm]

/-- The range check of a scalar raises only `E_RANGE`, at or above `P`. -/
theorem canonical_error (x : Elem) (c : FailCode) : canonical x = .error c ↔ c = .range ∧ Config.primeP ≤ x.toNat := by
  unfold canonical; split <;> simp_all [eq_comm]

/-- A sequence passes the range check exactly if every element is canonical. -/
theorem canonicalSeq_ok (xs : List Elem) (ns : List Nat) :
    canonicalSeq xs = .ok ns ↔ Canonical xs ∧ ns = xs.map BitVec.toNat := by
  have hall : (xs.all fun x => x.toNat < Config.primeP) = true ↔ Canonical xs := by simp [Canonical]
  unfold canonicalSeq
  split <;> rename_i h <;> rw [hall] at h
  · exact ⟨fun e => ⟨h, by cases e; rfl⟩, fun e => by rw [e.2]⟩
  · exact ⟨fun e => (by cases e), fun e => absurd e.1 h⟩

/-- The range check of a sequence raises only `E_RANGE`, for an element that is not canonical. -/
theorem canonicalSeq_error (xs : List Elem) (c : FailCode) :
    canonicalSeq xs = .error c ↔ c = .range ∧ NotCanonical xs := by
  have hall : (xs.all fun x => x.toNat < Config.primeP) = true ↔ ¬ NotCanonical xs := by simp [NotCanonical]
  unfold canonicalSeq
  split <;> rename_i h <;> rw [hall] at h
  · exact ⟨fun e => (by cases e), fun e => absurd e.2 h⟩
  · exact ⟨fun e => ⟨by cases e; rfl, not_not.1 h⟩, fun e => by rw [e.1]⟩

/-- A sequence that is not canonical has an element that is not, and the other way round. -/
theorem not_canonical_iff (xs : List Elem) : ¬ Canonical xs ↔ NotCanonical xs := by
  simp [Canonical, NotCanonical]

/-! ### Operand forms -/

/-- Two unchecked scalar sources. -/
theorem pairE_ok (ra rb : EReg) (s : State) (p : Elem × Elem) :
    pairE ra rb s = .ok p ↔ s.e[ra] = some p.1 ∧ s.e[rb] = some p.2 := by
  obtain ⟨x, y⟩ := p
  simp [pairE, except_bind_ok, sourceE_ok]

/-- Two unchecked scalar sources fail only with `E_INVALID`. -/
theorem pairE_error (ra rb : EReg) (s : State) (c : FailCode) :
    pairE ra rb s = .error c ↔ c = .invalid ∧ (s.e[ra] = none ∨ s.e[rb] = none) := by
  cases ha : s.e[ra] <;> cases hb : s.e[rb] <;>
    simp [pairE, except_bind_error, sourceE_ok, sourceE_error, ha, hb]

/-- One scalar prime-field source. -/
theorem primeE_ok (ra : EReg) (s : State) (n : Nat) :
    primeE ra s = .ok n ↔ ∃ x, s.e[ra] = some x ∧ x.toNat < Config.primeP ∧ n = x.toNat := by
  simp [primeE, except_bind_ok, sourceE_ok, canonical_ok]

/-- One scalar prime-field source fails with `E_INVALID` if it holds `none`, otherwise with `E_RANGE` if out of range. -/
theorem primeE_error (ra : EReg) (s : State) (c : FailCode) :
    primeE ra s = .error c ↔
      (c = .invalid ∧ s.e[ra] = none) ∨ (c = .range ∧ ∃ x, s.e[ra] = some x ∧ Config.primeP ≤ x.toNat) := by
  simp only [primeE, except_bind_error, sourceE_ok, sourceE_error, canonical_error]
  constructor
  · rintro (h | ⟨x, hx, rfl, h⟩)
    · exact .inl h
    · exact .inr ⟨rfl, x, hx, h⟩
  · rintro (h | ⟨rfl, x, hx, h⟩)
    · exact .inl h
    · exact .inr ⟨x, hx, rfl, h⟩

/-- Two scalar prime-field sources. -/
theorem primePairE_ok (ra rb : EReg) (s : State) (p : Nat × Nat) :
    primePairE ra rb s = .ok p ↔ ∃ x y, s.e[ra] = some x ∧ s.e[rb] = some y ∧ x.toNat < Config.primeP ∧
      y.toNat < Config.primeP ∧ p = (x.toNat, y.toNat) := by
  simp only [primePairE, except_bind_ok, sourceE_ok, canonical_ok, Except.ok.injEq]
  constructor
  · rintro ⟨x, hx, y, hy, _, ⟨h1, rfl⟩, _, ⟨h2, rfl⟩, rfl⟩
    exact ⟨x, y, hx, hy, h1, h2, rfl⟩
  · rintro ⟨x, y, hx, hy, h1, h2, rfl⟩
    exact ⟨x, hx, y, hy, _, ⟨h1, rfl⟩, _, ⟨h2, rfl⟩, rfl⟩

/-- Two scalar prime-field sources: `E_INVALID` for either comes before `E_RANGE` for either. -/
theorem primePairE_error (ra rb : EReg) (s : State) (c : FailCode) :
    primePairE ra rb s = .error c ↔
      (c = .invalid ∧ (s.e[ra] = none ∨ s.e[rb] = none)) ∨
        (c = .range ∧ ∃ x y, s.e[ra] = some x ∧ s.e[rb] = some y ∧
          (Config.primeP ≤ x.toNat ∨ Config.primeP ≤ y.toNat)) := by
  cases ha : s.e[ra] <;> cases hb : s.e[rb] <;>
    simp [primePairE, except_bind_error, sourceE_ok, sourceE_error, canonical_ok, canonical_error, ha, hb]
  rename_i x y
  constructor
  · rintro (h | ⟨_, rfl, h⟩)
    · exact ⟨h.1, .inl h.2⟩
    · exact ⟨rfl, .inr h⟩
  · rintro ⟨rfl, h⟩
    rcases Nat.lt_or_ge x.toNat Config.primeP with hx | hx
    · exact .inr ⟨hx, rfl, h.resolve_left (by omega)⟩
    · exact .inl ⟨rfl, hx⟩

/-- The sources of `PEXP`: only the base is range-checked. -/
theorem primeBaseExponent_ok (ra rb : EReg) (s : State) (p : Nat × Nat) :
    primeBaseExponent ra rb s = .ok p ↔ ∃ x y, s.e[ra] = some x ∧ s.e[rb] = some y ∧ x.toNat < Config.primeP ∧
      p = (x.toNat, y.toNat) := by
  simp only [primeBaseExponent, except_bind_ok, sourceE_ok, canonical_ok, Except.ok.injEq]
  constructor
  · rintro ⟨x, hx, y, hy, _, ⟨h1, rfl⟩, rfl⟩
    exact ⟨x, y, hx, hy, h1, rfl⟩
  · rintro ⟨x, y, hx, hy, h1, rfl⟩
    exact ⟨x, hx, y, hy, _, ⟨h1, rfl⟩, rfl⟩

/-- The failures of the sources of `PEXP`. -/
theorem primeBaseExponent_error (ra rb : EReg) (s : State) (c : FailCode) :
    primeBaseExponent ra rb s = .error c ↔
      (c = .invalid ∧ (s.e[ra] = none ∨ s.e[rb] = none)) ∨
        (c = .range ∧ ∃ x y, s.e[ra] = some x ∧ s.e[rb] = some y ∧ Config.primeP ≤ x.toNat) := by
  cases ha : s.e[ra] <;> cases hb : s.e[rb] <;>
    simp [primeBaseExponent, except_bind_error, sourceE_ok, sourceE_error, canonical_ok, canonical_error, ha, hb]

/-- One vector prime-field source. -/
theorem primeV_ok (ra : VReg) (s : State) (ns : List Nat) :
    primeV ra s = .ok ns ↔ ∃ xs, s.v[ra] = some xs ∧ Canonical xs ∧ ns = xs.map BitVec.toNat := by
  simp [primeV, except_bind_ok, sourceV_ok, canonicalSeq_ok]

/-- The failures of one vector prime-field source. -/
theorem primeV_error (ra : VReg) (s : State) (c : FailCode) :
    primeV ra s = .error c ↔
      (c = .invalid ∧ s.v[ra] = none) ∨ (c = .range ∧ ∃ xs, s.v[ra] = some xs ∧ NotCanonical xs) := by
  simp only [primeV, except_bind_error, sourceV_ok, sourceV_error, canonicalSeq_error]
  constructor
  · rintro (h | ⟨x, hx, rfl, h⟩)
    · exact .inl h
    · exact .inr ⟨rfl, x, hx, h⟩
  · rintro (h | ⟨rfl, x, hx, h⟩)
    · exact .inl h
    · exact .inr ⟨x, hx, rfl, h⟩

/-- Two vector prime-field sources. -/
theorem primePairV_ok (ra rb : VReg) (s : State) (p : List Nat × List Nat) :
    primePairV ra rb s = .ok p ↔ ∃ xs ys, s.v[ra] = some xs ∧ s.v[rb] = some ys ∧ Canonical xs ∧ Canonical ys ∧
      p = (xs.map BitVec.toNat, ys.map BitVec.toNat) := by
  simp only [primePairV, except_bind_ok, sourceV_ok, canonicalSeq_ok, Except.ok.injEq]
  constructor
  · rintro ⟨x, hx, y, hy, _, ⟨h1, rfl⟩, _, ⟨h2, rfl⟩, rfl⟩
    exact ⟨x, y, hx, hy, h1, h2, rfl⟩
  · rintro ⟨x, y, hx, hy, h1, h2, rfl⟩
    exact ⟨x, hx, y, hy, _, ⟨h1, rfl⟩, _, ⟨h2, rfl⟩, rfl⟩

/-- The failures of two vector prime-field sources. -/
theorem primePairV_error (ra rb : VReg) (s : State) (c : FailCode) :
    primePairV ra rb s = .error c ↔
      (c = .invalid ∧ (s.v[ra] = none ∨ s.v[rb] = none)) ∨
        (c = .range ∧ ∃ xs ys, s.v[ra] = some xs ∧ s.v[rb] = some ys ∧ (NotCanonical xs ∨ NotCanonical ys)) := by
  cases ha : s.v[ra] <;> cases hb : s.v[rb] <;>
    simp [primePairV, except_bind_error, sourceV_ok, sourceV_error, canonicalSeq_ok, canonicalSeq_error, ha, hb]
  rename_i x y
  constructor
  · rintro (h | ⟨_, rfl, h⟩)
    · exact ⟨h.1, .inl h.2⟩
    · exact ⟨rfl, .inr h⟩
  · rintro ⟨rfl, h⟩
    by_cases hx : Canonical x
    · exact .inr ⟨hx, rfl, h.resolve_left fun hn => (not_canonical_iff x).2 hn hx⟩
    · exact .inl ⟨rfl, (not_canonical_iff x).1 hx⟩

/-- A vector and a scalar prime-field source. -/
theorem primeVE_ok (ra : VReg) (rb : EReg) (s : State) (p : List Nat × Nat) :
    primeVE ra rb s = .ok p ↔ ∃ xs y, s.v[ra] = some xs ∧ s.e[rb] = some y ∧ Canonical xs ∧
      y.toNat < Config.primeP ∧ p = (xs.map BitVec.toNat, y.toNat) := by
  simp only [primeVE, except_bind_ok, sourceV_ok, sourceE_ok, canonicalSeq_ok, canonical_ok, Except.ok.injEq]
  constructor
  · rintro ⟨x, hx, y, hy, _, ⟨h1, rfl⟩, _, ⟨h2, rfl⟩, rfl⟩
    exact ⟨x, y, hx, hy, h1, h2, rfl⟩
  · rintro ⟨x, y, hx, hy, h1, h2, rfl⟩
    exact ⟨x, hx, y, hy, _, ⟨h1, rfl⟩, _, ⟨h2, rfl⟩, rfl⟩

/-- The failures of a vector and a scalar prime-field source. -/
theorem primeVE_error (ra : VReg) (rb : EReg) (s : State) (c : FailCode) :
    primeVE ra rb s = .error c ↔
      (c = .invalid ∧ (s.v[ra] = none ∨ s.e[rb] = none)) ∨
        (c = .range ∧ ∃ xs y, s.v[ra] = some xs ∧ s.e[rb] = some y ∧
          (NotCanonical xs ∨ Config.primeP ≤ y.toNat)) := by
  cases ha : s.v[ra] <;> cases hb : s.e[rb] <;>
    simp [primeVE, except_bind_error, sourceV_ok, sourceV_error, sourceE_ok, sourceE_error, canonicalSeq_ok,
      canonicalSeq_error, canonical_error, ha, hb]
  rename_i x y
  constructor
  · rintro (h | ⟨_, rfl, h⟩)
    · exact ⟨h.1, .inl h.2⟩
    · exact ⟨rfl, .inr h⟩
  · rintro ⟨rfl, h⟩
    by_cases hx : Canonical x
    · exact .inr ⟨hx, rfl, h.resolve_left fun hn => (not_canonical_iff x).2 hn hx⟩
    · exact .inl ⟨rfl, (not_canonical_iff x).1 hx⟩

/-- The bytes of a load command are there exactly if they end within `BFILL`. -/
theorem bufferOperand_ok (off len : Nat) (s : State) (bs : List Byte) :
    bufferOperand off len s = .ok bs ↔ off + len ≤ s.bfill.toNat ∧ bs = memRead s.buf off len := by
  unfold bufferOperand; split
  · simp; omega
  · simp [eq_comm]; omega

/-- A load command past `BFILL` raises `E_RANGE`. -/
theorem bufferOperand_error (off len : Nat) (s : State) (c : FailCode) :
    bufferOperand off len s = .error c ↔ c = .range ∧ s.bfill.toNat < off + len := by
  unfold bufferOperand; split <;> simp_all [eq_comm]

/-- A result fits a vector register exactly if it is no longer than `VCAP`. -/
theorem fitsVector_ok (n : Nat) (s : State) (u : Unit) : fitsVector n s = .ok u ↔ n ≤ s.vcap.toNat := by
  unfold fitsVector; split <;> simp <;> omega

/-- A longer result raises `E_CAPACITY`. -/
theorem fitsVector_error (n : Nat) (s : State) (c : FailCode) :
    fitsVector n s = .error c ↔ c = .capacity ∧ s.vcap.toNat < n := by
  unfold fitsVector; split <;> simp_all [eq_comm]

/-- The capacity check of `PPMUL` passes for an empty factor and for a product that fits. -/
theorem productFits_ok (a b : List Nat) (s : State) (u : Unit) :
    productFits a b s = .ok u ↔ a = [] ∨ b = [] ∨ a.length + b.length - 1 ≤ s.vcap.toNat := by
  unfold productFits; split
  · simp; tauto
  · rw [fitsVector_ok]; tauto

/-- The capacity check of `PPMUL` raises `E_CAPACITY`, for non-empty factors only. -/
theorem productFits_error (a b : List Nat) (s : State) (c : FailCode) :
    productFits a b s = .error c ↔ c = .capacity ∧ a ≠ [] ∧ b ≠ [] ∧ s.vcap.toNat < a.length + b.length - 1 := by
  unfold productFits; split
  · simp; tauto
  · rw [fitsVector_error]; tauto

/-- `PLAG4`'s length check passes exactly for four samples on both sides. -/
theorem fourSamples_ok (xs ys : List Nat) (u : Unit) :
    fourSamples xs ys = .ok u ↔ xs.length = 4 ∧ ys.length = 4 := by
  unfold fourSamples; split <;> simp_all [Config.fastLagrangeSamples]

/-- `PLAG4`'s length check raises `E_LENGTH`. -/
theorem fourSamples_error (xs ys : List Nat) (c : FailCode) :
    fourSamples xs ys = .error c ↔ c = .length ∧ ¬ (xs.length = 4 ∧ ys.length = 4) := by
  unfold fourSamples; split <;> simp_all [Config.fastLagrangeSamples, eq_comm]

/-! ### Results as register values -/

/-- A canonical integer keeps its value in a register. -/
theorem toElem_toNat {n : Nat} (h : n < Config.primeP) : (toElem n).toNat = n := by
  have hp : Config.primeP < 2 ^ 256 := by decide
  exact Nat.mod_eq_of_lt (Nat.lt_trans h hp)

/-- A register value below `2^256` is its own image. -/
@[simp] theorem toElem_of_toNat (x : Elem) : toElem x.toNat = x := by simp [toElem]

/-- A sequence keeps its length in a register. -/
@[simp] theorem toElems_length (xs : List Nat) : (toElems xs).length = xs.length := List.length_map ..

/-- A sequence of canonical integers is canonical in a register. -/
theorem toElems_canonical {xs : List Nat} (h : ∀ x ∈ xs, x < Config.primeP) : Canonical (toElems xs) := by
  intro e he
  obtain ⟨n, hn, rfl⟩ := List.mem_map.1 he
  rw [toElem_toNat (h n hn)]
  exact h n hn

/-! ### How a command ends (60_exceptions.md R236, R237) -/

/-- A failure code is one of 1 to 8. -/
theorem FailCode.number_bounds (c : FailCode) : 1 ≤ c.number ∧ c.number ≤ 8 := by cases c <;> decide

/-- Different codes have different numbers. -/
theorem FailCode.number_injective : Function.Injective FailCode.number := by
  intro a b h; cases a <;> cases b <;> first | rfl | cases h

/-- `STATUS` after a failure reads as the code. -/
theorem failureStatus_code (c : FailCode) : statusCode (failureStatus c) = c.number := by cases c <;> decide

/-- `STATUS` after a failure has no `ZSKIP`. -/
theorem failureStatus_zskip (c : FailCode) : statusZskip (failureStatus c) = false := by cases c <;> decide

/-- `STATUS` after a success has code 0. -/
theorem successStatus_code (z : Bool) : statusCode (successStatus z) = 0 := by cases z <;> decide

/-- `STATUS` after a success has the command's `ZSKIP`. -/
theorem successStatus_zskip (z : Bool) : statusZskip (successStatus z) = z := by cases z <;> decide

/-- The bits of a code's contribution to `ERRSUM`. -/
theorem errsumBit_getLsbD (c : FailCode) (k : Nat) : (errsumBit c).getLsbD k = decide (k = c.number) := by
  have h : ∀ k < 64, ∀ c : FailCode, (errsumBit c).getLsbD k = decide (k = c.number) := by
    intro k hk c; cases c <;> revert k <;> decide
  rcases Nat.lt_or_ge k 64 with hk | hk
  · exact h k hk c
  · have := c.number_bounds
    rw [BitVec.getLsbD_of_ge _ _ hk, eq_comm, decide_eq_false_iff_not]
    omega

/-- The failure entry with a destination, written out. -/
theorem enterFailure_some (d : Reg) (c : FailCode) (s : State) :
    enterFailure (some d) c s = s.failed c.number d := by cases d <;> rfl

/-- The end of a command with an element destination: whole success or whole failure. -/
theorem finishE_next (rd : EReg) (r : Except FailCode Elem) (s t : State) :
    finishE rd r s = .next t ↔
      (∃ x, r = .ok x ∧ t = s.gaveE rd x) ∨ ∃ c, r = .error c ∧ t = s.failedE rd c.number := by
  cases r <;> simp [finishE, eq_comm] <;> rfl

/-- The end of a command with a vector destination: whole success or whole failure. -/
theorem finishV_next (rd : VReg) (r : Except FailCode (List Elem × Bool)) (s t : State) :
    finishV rd r s = .next t ↔
      (∃ xs z, r = .ok (xs, z) ∧ t = s.gaveV rd xs (successStatus z)) ∨
        ∃ c, r = .error c ∧ t = s.failedV rd c.number := by
  rcases r with c | ⟨xs, z⟩
  · simp [finishV, eq_comm]; rfl
  · constructor
    · intro h; cases h; exact .inl ⟨xs, z, rfl, rfl⟩
    · rintro (⟨_, _, h, rfl⟩ | ⟨_, h, _⟩) <;> cases h; rfl

/-- The end of a command whose result is one prime-field element. -/
theorem finishPrimeE_next (rd : EReg) (r : Except FailCode Nat) (s t : State) :
    finishPrimeE rd r s = .next t ↔
      (∃ n, r = .ok n ∧ t = s.gaveE rd (toElem n)) ∨ ∃ c, r = .error c ∧ t = s.failedE rd c.number := by
  rw [finishPrimeE, finishE_next]
  cases r <;> simp [Except.map]

/-- The end of a command whose result is a sequence of prime-field elements. -/
theorem finishPrimeV_next (rd : VReg) (r : Except FailCode (List Nat)) (s t : State) :
    finishPrimeV rd r s = .next t ↔
      (∃ ns, r = .ok ns ∧ t = s.gaveV rd (toElems ns) 0#64) ∨ ∃ c, r = .error c ∧ t = s.failedV rd c.number := by
  rw [finishPrimeV, finishV_next]
  cases r <;> simp [Except.map, eq_comm, successStatus]

/-! ### Powers -/

/-- The square-and-multiply loop in any monoid image: it multiplies the accumulator's power by the power of the low bits. -/
theorem squareAndMultiplyLoop_eq {α M : Type} [CommMonoid M] (φ : α → M) (mul : α → α → α)
    (hmul : ∀ a b, φ (mul a b) = φ a * φ b) (x : α) (e : Nat) (k : Nat) (r : α) :
    φ (squareAndMultiplyLoop mul x e k r) = φ r ^ 2 ^ k * φ x ^ (e % 2 ^ k) := by
  induction k generalizing r with
  | zero => simp [squareAndMultiplyLoop, Nat.mod_one]
  | succ k ih =>
    rw [squareAndMultiplyLoop, ih]
    have hmod : e % 2 ^ (k + 1) = e % 2 ^ k + 2 ^ k * (if e.testBit k then 1 else 0) := by
      rw [Nat.pow_succ, Nat.mod_mul, Nat.testBit_eq_decide_div_mod_eq]
      rcases Nat.mod_two_eq_zero_or_one (e / 2 ^ k) with h | h <;> simp [h]
    have hsq : φ r ^ 2 ^ (k + 1) = φ r ^ 2 ^ k * φ r ^ 2 ^ k := by rw [pow_succ 2 k, mul_two, pow_add]
    rw [hmod, hsq]
    split
    · simp only [hmul, mul_pow, mul_one, pow_add, mul_assoc, mul_comm (φ x ^ 2 ^ k)]
    · simp only [hmul, mul_pow, mul_zero, add_zero]

/-- `bitLen e` bits hold `e`. -/
theorem lt_two_pow_bitLen (e : Nat) : e < 2 ^ bitLen e := by
  unfold bitLen
  split
  · simp_all
  · exact Nat.lt_log2_self

/-- Square and multiply computes the power, in any commutative-monoid image of the multiplication. -/
theorem squareAndMultiply_eq {α M : Type} [CommMonoid M] (φ : α → M) (mul : α → α → α)
    (hmul : ∀ a b, φ (mul a b) = φ a * φ b) (one x : α) (hone : φ one = 1) (e : Nat) :
    φ (squareAndMultiply mul one x e) = φ x ^ e := by
  rw [squareAndMultiply, squareAndMultiplyLoop_eq φ mul hmul, hone, one_pow, one_mul,
    Nat.mod_eq_of_lt (lt_two_pow_bitLen e)]

/-! ### The step -/

/-- What `step` does: nothing with no event pending, an event settled at the port, or a command issued. -/
theorem step_cases (s t : State) (h : step s = .next t) :
    (s.pending = [] ∧ t = s) ∨
      (∃ ev rest, s.pending = ev :: rest ∧ portEvent ev { s with pending := rest } = .settled t) ∨
      ∃ w rest i u, s.pending = .hIssue w :: rest ∧ decode w = .ok i ∧
        exec i { s with pending := rest } = .next u ∧ t = answerStatus u := by
  unfold step at h
  split at h
  · exact .inl ⟨by assumption, by cases h; rfl⟩
  · rename_i ev rest hp
    right
    simp only at h
    split at h
    · rename_i u hu
      cases h
      exact .inl ⟨ev, rest, hp, hu⟩
    · rename_i i hi
      right
      cases ev <;> simp only [portEvent] at hi <;> try cases hi
      rename_i w
      split at hi <;> cases hi
      cases hx : exec i { s with pending := rest } <;> rw [hx] at h <;> simp only [issued] at h <;> cases h
      exact ⟨w, rest, i, _, hp, by assumption, hx, rfl⟩

end Sys2Proof.Machine
end

