-- ==== Sys2Proof/Laws/PerInstr.lean ====
section
/-! SUPPORT. The laws made once for each command: the word of a command carries the command's opcode. -/

namespace Sys2Proof.Laws

open Sys2Proof Sys2Proof.Machine

/-- Bits 63:56 of an R-format word are its opcode. -/
theorem opField_encodeR (op : BitVec 8) (rd ra rb fl : BitVec 4) : opField (encodeR op rd ra rb fl) = op := by
  apply BitVec.eq_of_getLsbD_eq
  intro i hi
  simp only [opField, encodeR, BitVec.getLsbD_extractLsb', BitVec.getLsbD_append]
  rw [if_neg (by omega), if_neg (by omega), if_neg (by omega), if_neg (by omega), if_neg (by omega)]
  simp only [hi, decide_true, Bool.true_and]
  congr 1
  omega

/-- Bits 63:56 of an L-format word are its opcode. -/
theorem opField_encodeL (op : BitVec 8) (rd : BitVec 4) (w : BitVec 2) (off len : Nat) :
    opField (encodeL op rd w off len) = op := by
  apply BitVec.eq_of_getLsbD_eq
  intro i hi
  simp only [opField, encodeL, BitVec.getLsbD_extractLsb', BitVec.getLsbD_append]
  rw [if_neg (by omega), if_neg (by omega), if_neg (by omega), if_neg (by omega), if_neg (by omega)]
  simp only [hi, decide_true, Bool.true_and]
  congr 1
  omega

/-- The word of the command carries its opcode (30_encoding.md R71, R72, R76). -/
def OpcodeInWord.Statement (i : Instr) : Prop := (opField (encode i)).toNat = opcodeOf i

theorem OpcodeInWord.padd (rd ra rb : EReg) : OpcodeInWord.Statement (.padd rd ra rb) := by
  simp [OpcodeInWord.Statement, encode, opField_encodeR, opcodeOf]
theorem OpcodeInWord.psub (rd ra rb : EReg) : OpcodeInWord.Statement (.psub rd ra rb) := by
  simp [OpcodeInWord.Statement, encode, opField_encodeR, opcodeOf]
theorem OpcodeInWord.pmul (rd ra rb : EReg) : OpcodeInWord.Statement (.pmul rd ra rb) := by
  simp [OpcodeInWord.Statement, encode, opField_encodeR, opcodeOf]
theorem OpcodeInWord.pexp (rd ra rb : EReg) : OpcodeInWord.Statement (.pexp rd ra rb) := by
  simp [OpcodeInWord.Statement, encode, opField_encodeR, opcodeOf]
theorem OpcodeInWord.pinv (rd ra : EReg) : OpcodeInWord.Statement (.pinv rd ra) := by
  simp [OpcodeInWord.Statement, encode, opField_encodeR, opcodeOf]
theorem OpcodeInWord.pinve (rd ra : EReg) : OpcodeInWord.Statement (.pinve rd ra) := by
  simp [OpcodeInWord.Statement, encode, opField_encodeR, opcodeOf]
theorem OpcodeInWord.pbinv (rd ra : VReg) : OpcodeInWord.Statement (.pbinv rd ra) := by
  simp [OpcodeInWord.Statement, encode, opField_encodeR, opcodeOf]
theorem OpcodeInWord.badd (rd ra rb : EReg) : OpcodeInWord.Statement (.badd rd ra rb) := by
  simp [OpcodeInWord.Statement, encode, opField_encodeR, opcodeOf]
theorem OpcodeInWord.bsub (rd ra rb : EReg) : OpcodeInWord.Statement (.bsub rd ra rb) := by
  simp [OpcodeInWord.Statement, encode, opField_encodeR, opcodeOf]
theorem OpcodeInWord.bmul (rd ra rb : EReg) : OpcodeInWord.Statement (.bmul rd ra rb) := by
  simp [OpcodeInWord.Statement, encode, opField_encodeR, opcodeOf]
theorem OpcodeInWord.bexp (rd ra rb : EReg) : OpcodeInWord.Statement (.bexp rd ra rb) := by
  simp [OpcodeInWord.Statement, encode, opField_encodeR, opcodeOf]
theorem OpcodeInWord.binv (rd ra : EReg) : OpcodeInWord.Statement (.binv rd ra) := by
  simp [OpcodeInWord.Statement, encode, opField_encodeR, opcodeOf]
theorem OpcodeInWord.binve (rd ra : EReg) : OpcodeInWord.Statement (.binve rd ra) := by
  simp [OpcodeInWord.Statement, encode, opField_encodeR, opcodeOf]
theorem OpcodeInWord.bdiv (rd ra rb : EReg) : OpcodeInWord.Statement (.bdiv rd ra rb) := by
  simp [OpcodeInWord.Statement, encode, opField_encodeR, opcodeOf]
theorem OpcodeInWord.peval (rd : EReg) (ra : VReg) (rb : EReg) : OpcodeInWord.Statement (.peval rd ra rb) := by
  simp [OpcodeInWord.Statement, encode, opField_encodeR, opcodeOf]
theorem OpcodeInWord.pvanish (rd ra : VReg) : OpcodeInWord.Statement (.pvanish rd ra) := by
  simp [OpcodeInWord.Statement, encode, opField_encodeR, opcodeOf]
theorem OpcodeInWord.ppmul (rd ra rb : VReg) : OpcodeInWord.Statement (.ppmul rd ra rb) := by
  simp [OpcodeInWord.Statement, encode, opField_encodeR, opcodeOf]
theorem OpcodeInWord.ppdiv (rd ra rb : VReg) : OpcodeInWord.Statement (.ppdiv rd ra rb) := by
  simp [OpcodeInWord.Statement, encode, opField_encodeR, opcodeOf]
theorem OpcodeInWord.pprem (rd ra rb : VReg) : OpcodeInWord.Statement (.pprem rd ra rb) := by
  simp [OpcodeInWord.Statement, encode, opField_encodeR, opcodeOf]
theorem OpcodeInWord.plag (rd ra rb : VReg) : OpcodeInWord.Statement (.plag rd ra rb) := by
  simp [OpcodeInWord.Statement, encode, opField_encodeR, opcodeOf]
theorem OpcodeInWord.plag4 (rd ra rb : VReg) : OpcodeInWord.Statement (.plag4 rd ra rb) := by
  simp [OpcodeInWord.Statement, encode, opField_encodeR, opcodeOf]
theorem OpcodeInWord.order (rd : VReg) (ra : EReg) (inverse : Bool) : OpcodeInWord.Statement (.order rd ra inverse) := by
  simp [OpcodeInWord.Statement, encode, opField_encodeR, opcodeOf]
theorem OpcodeInWord.fft (rd ra : VReg) (rb : EReg) : OpcodeInWord.Statement (.fft rd ra rb) := by
  simp [OpcodeInWord.Statement, encode, opField_encodeR, opcodeOf]
theorem OpcodeInWord.ifft (rd ra : VReg) (rb : EReg) : OpcodeInWord.Statement (.ifft rd ra rb) := by
  simp [OpcodeInWord.Statement, encode, opField_encodeR, opcodeOf]
theorem OpcodeInWord.pfromb (rd : EReg) (off len : Nat) : OpcodeInWord.Statement (.pfromb rd off len) := by
  simp [OpcodeInWord.Statement, encode, opField_encodeL, opcodeOf]
theorem OpcodeInWord.ploadv (rd : VReg) (off len : Nat) (w : ChunkWidth) : OpcodeInWord.Statement (.ploadv rd off len w) := by
  simp [OpcodeInWord.Statement, encode, opField_encodeL, opcodeOf]

end Sys2Proof.Laws
end

