-- ==== Sys2Proof/Laws/PrimeP.lean ====
section
/-! SUPPORT. The modulus `P` is prime: a Lucas certificate, with the certificates of its large prime factors. -/

namespace Sys2Proof

/-- `a ^ e % n` from the exponent's bits, the least significant first. -/
def powerResidue (n : Nat) : Nat → Nat → Nat → Nat
  | 0, _, _ => 1 % n
  | fuel + 1, a, e => (if e % 2 = 1 then a else 1) * powerResidue n fuel (a * a % n) (e / 2) % n

/-- `powerResidue` is the residue of the power, given as much fuel as the exponent has bits. -/
theorem powerResidue_eq (n fuel a e : Nat) (h : e < 2 ^ fuel) : powerResidue n fuel a e = a ^ e % n := by
  induction fuel generalizing a e with
  | zero =>
    obtain rfl : e = 0 := by simpa using h
    rfl
  | succ fuel ih =>
    rw [powerResidue, ih _ _ (by rw [pow_succ] at h; omega), ← Nat.pow_mod, Nat.mul_mod_mod]
    have he : a ^ e = (if e % 2 = 1 then a else 1) * (a * a) ^ (e / 2) := by
      conv_lhs => rw [← Nat.mod_add_div e 2, pow_add, pow_mul, pow_two]
      rcases Nat.mod_two_eq_zero_or_one e with h | h <;> simp [h]
    rw [he]

/-- Lucas's criterion with the factorisation of `p - 1` as a list and the powers computed by `powerResidue`. -/
theorem prime_of_certificate {p : Nat} (a : Nat) (fs : List Nat) (hp : 1 < p) (hbits : p < 2 ^ 256) (hprod : fs.prod = p - 1)
    (hfs : ∀ q ∈ fs, q.Prime) (hone : powerResidue p 256 a (p - 1) = 1)
    (hne : ∀ q ∈ fs, powerResidue p 256 a ((p - 1) / q) ≠ 1) : p.Prime := by
  have hcast : ∀ k ≤ p - 1, ((a : ZMod p) ^ k = 1 ↔ powerResidue p 256 a k = 1) := by
    intro k hk
    have h := ZMod.natCast_eq_natCast_iff' (a ^ k) 1 p
    rw [Nat.mod_eq_of_lt hp] at h
    rw [powerResidue_eq _ _ _ _ (by omega)]
    exact_mod_cast h
  refine lucas_primality p (a : ZMod p) ((hcast _ le_rfl).2 hone) fun q hq hdvd => ?_
  rw [← hprod, hq.prime.dvd_prod_iff] at hdvd
  obtain ⟨r, hr, hqr⟩ := hdvd
  rw [(Nat.prime_dvd_prime_iff_eq hq (hfs r hr)).1 hqr, Ne, hcast _ (Nat.div_le_self _ _)]
  exact hne r hr

/-- 494933341829 is prime. -/
theorem prime_494933341829 : Nat.Prime 494933341829 :=
  prime_of_certificate 2 [2, 2, 103, 5279, 227561] (by decide +kernel) (by decide +kernel) (by decide +kernel) (by norm_num) (by decide +kernel) (by decide +kernel)

/-- 56221458031723427 is prime. -/
theorem prime_56221458031723427 : Nat.Prime 56221458031723427 :=
  prime_of_certificate 2 [2, 13, 17, 257, 494933341829] (by decide +kernel) (by decide +kernel) (by decide +kernel)
    (by simp only [List.forall_mem_cons, List.not_mem_nil, false_implies, implies_true, and_true]
        exact ⟨by norm_num, by norm_num, by norm_num, by norm_num, prime_494933341829⟩)
    (by decide +kernel) (by decide +kernel)

/-- 2865134424244852517 is prime. -/
theorem prime_2865134424244852517 : Nat.Prime 2865134424244852517 :=
  prime_of_certificate 2 [2, 2, 1427, 1433, 17599, 19903381] (by decide +kernel) (by decide +kernel) (by decide +kernel) (by norm_num)
    (by decide +kernel) (by decide +kernel)

/-- 238470320578611241 is prime. -/
theorem prime_238470320578611241 : Nat.Prime 238470320578611241 :=
  prime_of_certificate 11 [2, 2, 2, 3, 3, 3, 5, 7, 2389, 5153, 2562337] (by decide +kernel) (by decide +kernel) (by decide +kernel) (by norm_num)
    (by decide +kernel) (by decide +kernel)

/-- 958173748084859966339 is prime. -/
theorem prime_958173748084859966339 : Nat.Prime 958173748084859966339 :=
  prime_of_certificate 2 [2, 7, 7, 41, 238470320578611241] (by decide +kernel) (by decide +kernel) (by decide +kernel)
    (by simp only [List.forall_mem_cons, List.not_mem_nil, false_implies, implies_true, and_true]
        exact ⟨by norm_num, by norm_num, by norm_num, by norm_num, prime_238470320578611241⟩)
    (by decide +kernel) (by decide +kernel)

/-- The largest factor of `P - 1` is prime. -/
theorem prime_2768008234834258951084553497114048089766079 : Nat.Prime 2768008234834258951084553497114048089766079 :=
  prime_of_certificate 17 [2, 13, 660917, 56221458031723427, 2865134424244852517] (by decide +kernel) (by decide +kernel) (by decide +kernel)
    (by simp only [List.forall_mem_cons, List.not_mem_nil, false_implies, implies_true, and_true]
        exact ⟨by norm_num, by norm_num, by norm_num, prime_56221458031723427, prime_2865134424244852517⟩)
    (by decide +kernel) (by decide +kernel)

/-- The modulus `P` is prime: 3 has order `P - 1 = 2^32 · 5 · 19 · 107 · …` (40_prime_field.md; log 13). -/
theorem primeP_prime : Nat.Prime Config.primeP :=
  prime_of_certificate 3
    (List.replicate 32 2 ++ [5, 19, 107, 958173748084859966339, 2768008234834258951084553497114048089766079])
    (by decide +kernel) (by decide +kernel) (by decide +kernel)
    (by simp only [List.forall_mem_append, List.forall_mem_cons, List.not_mem_nil, false_implies, implies_true, and_true]
        exact ⟨fun q hq => (List.eq_of_mem_replicate hq).symm ▸ Nat.prime_two, by norm_num, by norm_num, by norm_num,
          prime_958173748084859966339, prime_2768008234834258951084553497114048089766079⟩)
    (by decide +kernel) (by decide +kernel)

end Sys2Proof
end

