-- ==== Sys2Proof/Laws/State.lean ====
section
/-! SUPPORT. One lemma for each field and each update of the state: what the field holds afterwards. All are true by
definition, so that no later proof unfolds a record update. -/

namespace Sys2Proof.Machine

/-! ### `e[i] <- x` -/

@[simp] theorem setE_e (s : State) (i : EReg) (x : Option Elem) :
    (s.setE i x).e = s.e.set i.val x i.isLt := rfl
@[simp] theorem setE_v (s : State) (i : EReg) (x : Option Elem) :
    (s.setE i x).v = s.v := rfl
@[simp] theorem setE_status (s : State) (i : EReg) (x : Option Elem) :
    (s.setE i x).status = s.status := rfl
@[simp] theorem setE_errsum (s : State) (i : EReg) (x : Option Elem) :
    (s.setE i x).errsum = s.errsum := rfl
@[simp] theorem setE_buf (s : State) (i : EReg) (x : Option Elem) :
    (s.setE i x).buf = s.buf := rfl
@[simp] theorem setE_bfill (s : State) (i : EReg) (x : Option Elem) :
    (s.setE i x).bfill = s.bfill := rfl
@[simp] theorem setE_pending (s : State) (i : EReg) (x : Option Elem) :
    (s.setE i x).pending = s.pending := rfl
@[simp] theorem setE_answer (s : State) (i : EReg) (x : Option Elem) :
    (s.setE i x).answer = s.answer := rfl
@[simp] theorem setE_nmax (s : State) (i : EReg) (x : Option Elem) :
    (s.setE i x).nmax = s.nmax := rfl
@[simp] theorem setE_vcap (s : State) (i : EReg) (x : Option Elem) :
    (s.setE i x).vcap = s.vcap := rfl
@[simp] theorem setE_bcap (s : State) (i : EReg) (x : Option Elem) :
    (s.setE i x).bcap = s.bcap := rfl

/-! ### `v[i] <- xs` -/

@[simp] theorem setV_e (s : State) (i : VReg) (xs : Option (List Elem)) :
    (s.setV i xs).e = s.e := rfl
@[simp] theorem setV_v (s : State) (i : VReg) (xs : Option (List Elem)) :
    (s.setV i xs).v = s.v.set i.val xs i.isLt := rfl
@[simp] theorem setV_status (s : State) (i : VReg) (xs : Option (List Elem)) :
    (s.setV i xs).status = s.status := rfl
@[simp] theorem setV_errsum (s : State) (i : VReg) (xs : Option (List Elem)) :
    (s.setV i xs).errsum = s.errsum := rfl
@[simp] theorem setV_buf (s : State) (i : VReg) (xs : Option (List Elem)) :
    (s.setV i xs).buf = s.buf := rfl
@[simp] theorem setV_bfill (s : State) (i : VReg) (xs : Option (List Elem)) :
    (s.setV i xs).bfill = s.bfill := rfl
@[simp] theorem setV_pending (s : State) (i : VReg) (xs : Option (List Elem)) :
    (s.setV i xs).pending = s.pending := rfl
@[simp] theorem setV_answer (s : State) (i : VReg) (xs : Option (List Elem)) :
    (s.setV i xs).answer = s.answer := rfl
@[simp] theorem setV_nmax (s : State) (i : VReg) (xs : Option (List Elem)) :
    (s.setV i xs).nmax = s.nmax := rfl
@[simp] theorem setV_vcap (s : State) (i : VReg) (xs : Option (List Elem)) :
    (s.setV i xs).vcap = s.vcap := rfl
@[simp] theorem setV_bcap (s : State) (i : VReg) (xs : Option (List Elem)) :
    (s.setV i xs).bcap = s.bcap := rfl

/-! ### Failure with an element destination -/

@[simp] theorem enterFailure_e_e (s : State) (rd : EReg) (c : FailCode) :
    (enterFailure (some (.e rd)) c s).e = s.e.set rd.val none rd.isLt := rfl
@[simp] theorem enterFailure_e_v (s : State) (rd : EReg) (c : FailCode) :
    (enterFailure (some (.e rd)) c s).v = s.v := rfl
@[simp] theorem enterFailure_e_status (s : State) (rd : EReg) (c : FailCode) :
    (enterFailure (some (.e rd)) c s).status = failureStatus c := rfl
@[simp] theorem enterFailure_e_errsum (s : State) (rd : EReg) (c : FailCode) :
    (enterFailure (some (.e rd)) c s).errsum = s.errsum ||| errsumBit c := rfl
@[simp] theorem enterFailure_e_buf (s : State) (rd : EReg) (c : FailCode) :
    (enterFailure (some (.e rd)) c s).buf = s.buf := rfl
@[simp] theorem enterFailure_e_bfill (s : State) (rd : EReg) (c : FailCode) :
    (enterFailure (some (.e rd)) c s).bfill = s.bfill := rfl
@[simp] theorem enterFailure_e_pending (s : State) (rd : EReg) (c : FailCode) :
    (enterFailure (some (.e rd)) c s).pending = s.pending := rfl
@[simp] theorem enterFailure_e_answer (s : State) (rd : EReg) (c : FailCode) :
    (enterFailure (some (.e rd)) c s).answer = s.answer := rfl
@[simp] theorem enterFailure_e_nmax (s : State) (rd : EReg) (c : FailCode) :
    (enterFailure (some (.e rd)) c s).nmax = s.nmax := rfl
@[simp] theorem enterFailure_e_vcap (s : State) (rd : EReg) (c : FailCode) :
    (enterFailure (some (.e rd)) c s).vcap = s.vcap := rfl
@[simp] theorem enterFailure_e_bcap (s : State) (rd : EReg) (c : FailCode) :
    (enterFailure (some (.e rd)) c s).bcap = s.bcap := rfl

/-! ### Failure with a vector destination -/

@[simp] theorem enterFailure_v_e (s : State) (rd : VReg) (c : FailCode) :
    (enterFailure (some (.v rd)) c s).e = s.e := rfl
@[simp] theorem enterFailure_v_v (s : State) (rd : VReg) (c : FailCode) :
    (enterFailure (some (.v rd)) c s).v = s.v.set rd.val none rd.isLt := rfl
@[simp] theorem enterFailure_v_status (s : State) (rd : VReg) (c : FailCode) :
    (enterFailure (some (.v rd)) c s).status = failureStatus c := rfl
@[simp] theorem enterFailure_v_errsum (s : State) (rd : VReg) (c : FailCode) :
    (enterFailure (some (.v rd)) c s).errsum = s.errsum ||| errsumBit c := rfl
@[simp] theorem enterFailure_v_buf (s : State) (rd : VReg) (c : FailCode) :
    (enterFailure (some (.v rd)) c s).buf = s.buf := rfl
@[simp] theorem enterFailure_v_bfill (s : State) (rd : VReg) (c : FailCode) :
    (enterFailure (some (.v rd)) c s).bfill = s.bfill := rfl
@[simp] theorem enterFailure_v_pending (s : State) (rd : VReg) (c : FailCode) :
    (enterFailure (some (.v rd)) c s).pending = s.pending := rfl
@[simp] theorem enterFailure_v_answer (s : State) (rd : VReg) (c : FailCode) :
    (enterFailure (some (.v rd)) c s).answer = s.answer := rfl
@[simp] theorem enterFailure_v_nmax (s : State) (rd : VReg) (c : FailCode) :
    (enterFailure (some (.v rd)) c s).nmax = s.nmax := rfl
@[simp] theorem enterFailure_v_vcap (s : State) (rd : VReg) (c : FailCode) :
    (enterFailure (some (.v rd)) c s).vcap = s.vcap := rfl
@[simp] theorem enterFailure_v_bcap (s : State) (rd : VReg) (c : FailCode) :
    (enterFailure (some (.v rd)) c s).bcap = s.bcap := rfl

/-! ### Failure without a destination -/

@[simp] theorem enterFailure_none_e (s : State) (c : FailCode) :
    (enterFailure none c s).e = s.e := rfl
@[simp] theorem enterFailure_none_v (s : State) (c : FailCode) :
    (enterFailure none c s).v = s.v := rfl
@[simp] theorem enterFailure_none_status (s : State) (c : FailCode) :
    (enterFailure none c s).status = failureStatus c := rfl
@[simp] theorem enterFailure_none_errsum (s : State) (c : FailCode) :
    (enterFailure none c s).errsum = s.errsum ||| errsumBit c := rfl
@[simp] theorem enterFailure_none_buf (s : State) (c : FailCode) :
    (enterFailure none c s).buf = s.buf := rfl
@[simp] theorem enterFailure_none_bfill (s : State) (c : FailCode) :
    (enterFailure none c s).bfill = s.bfill := rfl
@[simp] theorem enterFailure_none_pending (s : State) (c : FailCode) :
    (enterFailure none c s).pending = s.pending := rfl
@[simp] theorem enterFailure_none_answer (s : State) (c : FailCode) :
    (enterFailure none c s).answer = s.answer := rfl
@[simp] theorem enterFailure_none_nmax (s : State) (c : FailCode) :
    (enterFailure none c s).nmax = s.nmax := rfl
@[simp] theorem enterFailure_none_vcap (s : State) (c : FailCode) :
    (enterFailure none c s).vcap = s.vcap := rfl
@[simp] theorem enterFailure_none_bcap (s : State) (c : FailCode) :
    (enterFailure none c s).bcap = s.bcap := rfl

/-! ### Success with an element destination -/

@[simp] theorem completeE_e (s : State) (rd : EReg) (x : Elem) :
    (completeE rd x s).e = s.e.set rd.val (some x) rd.isLt := rfl
@[simp] theorem completeE_v (s : State) (rd : EReg) (x : Elem) :
    (completeE rd x s).v = s.v := rfl
@[simp] theorem completeE_status (s : State) (rd : EReg) (x : Elem) :
    (completeE rd x s).status = successStatus false := rfl
@[simp] theorem completeE_errsum (s : State) (rd : EReg) (x : Elem) :
    (completeE rd x s).errsum = s.errsum := rfl
@[simp] theorem completeE_buf (s : State) (rd : EReg) (x : Elem) :
    (completeE rd x s).buf = s.buf := rfl
@[simp] theorem completeE_bfill (s : State) (rd : EReg) (x : Elem) :
    (completeE rd x s).bfill = s.bfill := rfl
@[simp] theorem completeE_pending (s : State) (rd : EReg) (x : Elem) :
    (completeE rd x s).pending = s.pending := rfl
@[simp] theorem completeE_answer (s : State) (rd : EReg) (x : Elem) :
    (completeE rd x s).answer = s.answer := rfl
@[simp] theorem completeE_nmax (s : State) (rd : EReg) (x : Elem) :
    (completeE rd x s).nmax = s.nmax := rfl
@[simp] theorem completeE_vcap (s : State) (rd : EReg) (x : Elem) :
    (completeE rd x s).vcap = s.vcap := rfl
@[simp] theorem completeE_bcap (s : State) (rd : EReg) (x : Elem) :
    (completeE rd x s).bcap = s.bcap := rfl

/-! ### Success with a vector destination -/

@[simp] theorem completeV_e (s : State) (rd : VReg) (xs : List Elem) (z : Bool) :
    (completeV rd xs z s).e = s.e := rfl
@[simp] theorem completeV_v (s : State) (rd : VReg) (xs : List Elem) (z : Bool) :
    (completeV rd xs z s).v = s.v.set rd.val (some xs) rd.isLt := rfl
@[simp] theorem completeV_status (s : State) (rd : VReg) (xs : List Elem) (z : Bool) :
    (completeV rd xs z s).status = successStatus z := rfl
@[simp] theorem completeV_errsum (s : State) (rd : VReg) (xs : List Elem) (z : Bool) :
    (completeV rd xs z s).errsum = s.errsum := rfl
@[simp] theorem completeV_buf (s : State) (rd : VReg) (xs : List Elem) (z : Bool) :
    (completeV rd xs z s).buf = s.buf := rfl
@[simp] theorem completeV_bfill (s : State) (rd : VReg) (xs : List Elem) (z : Bool) :
    (completeV rd xs z s).bfill = s.bfill := rfl
@[simp] theorem completeV_pending (s : State) (rd : VReg) (xs : List Elem) (z : Bool) :
    (completeV rd xs z s).pending = s.pending := rfl
@[simp] theorem completeV_answer (s : State) (rd : VReg) (xs : List Elem) (z : Bool) :
    (completeV rd xs z s).answer = s.answer := rfl
@[simp] theorem completeV_nmax (s : State) (rd : VReg) (xs : List Elem) (z : Bool) :
    (completeV rd xs z s).nmax = s.nmax := rfl
@[simp] theorem completeV_vcap (s : State) (rd : VReg) (xs : List Elem) (z : Bool) :
    (completeV rd xs z s).vcap = s.vcap := rfl
@[simp] theorem completeV_bcap (s : State) (rd : VReg) (xs : List Elem) (z : Bool) :
    (completeV rd xs z s).bcap = s.bcap := rfl

/-! ### What the host gets back -/

@[simp] theorem answering_e (s : State) (a : Answer) :
    (s.answering a).e = s.e := rfl
@[simp] theorem answering_v (s : State) (a : Answer) :
    (s.answering a).v = s.v := rfl
@[simp] theorem answering_status (s : State) (a : Answer) :
    (s.answering a).status = s.status := rfl
@[simp] theorem answering_errsum (s : State) (a : Answer) :
    (s.answering a).errsum = s.errsum := rfl
@[simp] theorem answering_buf (s : State) (a : Answer) :
    (s.answering a).buf = s.buf := rfl
@[simp] theorem answering_bfill (s : State) (a : Answer) :
    (s.answering a).bfill = s.bfill := rfl
@[simp] theorem answering_pending (s : State) (a : Answer) :
    (s.answering a).pending = s.pending := rfl
@[simp] theorem answering_answer (s : State) (a : Answer) :
    (s.answering a).answer = some a := rfl
@[simp] theorem answering_nmax (s : State) (a : Answer) :
    (s.answering a).nmax = s.nmax := rfl
@[simp] theorem answering_vcap (s : State) (a : Answer) :
    (s.answering a).vcap = s.vcap := rfl
@[simp] theorem answering_bcap (s : State) (a : Answer) :
    (s.answering a).bcap = s.bcap := rfl

/-! ### Reset -/

@[simp] theorem platformReset_e (s : State) :
    (platformReset s).e = Vector.replicate 16 none := rfl
@[simp] theorem platformReset_v (s : State) :
    (platformReset s).v = Vector.replicate 8 none := rfl
@[simp] theorem platformReset_status (s : State) :
    (platformReset s).status = 0#64 := rfl
@[simp] theorem platformReset_errsum (s : State) :
    (platformReset s).errsum = 0#64 := rfl
@[simp] theorem platformReset_buf (s : State) :
    (platformReset s).buf = [] := rfl
@[simp] theorem platformReset_bfill (s : State) :
    (platformReset s).bfill = 0#64 := rfl
@[simp] theorem platformReset_pending (s : State) :
    (platformReset s).pending = s.pending := rfl
@[simp] theorem platformReset_answer (s : State) :
    (platformReset s).answer = none := rfl
@[simp] theorem platformReset_nmax (s : State) :
    (platformReset s).nmax = s.nmax := rfl
@[simp] theorem platformReset_vcap (s : State) :
    (platformReset s).vcap = s.vcap := rfl
@[simp] theorem platformReset_bcap (s : State) :
    (platformReset s).bcap = s.bcap := rfl

/-! ### The next word to issue -/

@[simp] theorem withFetchWord_e (s : State) (nbits w : Nat) :
    (s.withFetchWord nbits w).e = s.e := rfl
@[simp] theorem withFetchWord_v (s : State) (nbits w : Nat) :
    (s.withFetchWord nbits w).v = s.v := rfl
@[simp] theorem withFetchWord_status (s : State) (nbits w : Nat) :
    (s.withFetchWord nbits w).status = s.status := rfl
@[simp] theorem withFetchWord_errsum (s : State) (nbits w : Nat) :
    (s.withFetchWord nbits w).errsum = s.errsum := rfl
@[simp] theorem withFetchWord_buf (s : State) (nbits w : Nat) :
    (s.withFetchWord nbits w).buf = s.buf := rfl
@[simp] theorem withFetchWord_bfill (s : State) (nbits w : Nat) :
    (s.withFetchWord nbits w).bfill = s.bfill := rfl
@[simp] theorem withFetchWord_pending (s : State) (nbits w : Nat) :
    (s.withFetchWord nbits w).pending = .hIssue (BitVec.ofNat 64 (w % 2 ^ nbits)) :: s.pending := rfl
@[simp] theorem withFetchWord_answer (s : State) (nbits w : Nat) :
    (s.withFetchWord nbits w).answer = s.answer := rfl
@[simp] theorem withFetchWord_nmax (s : State) (nbits w : Nat) :
    (s.withFetchWord nbits w).nmax = s.nmax := rfl
@[simp] theorem withFetchWord_vcap (s : State) (nbits w : Nat) :
    (s.withFetchWord nbits w).vcap = s.vcap := rfl
@[simp] theorem withFetchWord_bcap (s : State) (nbits w : Nat) :
    (s.withFetchWord nbits w).bcap = s.bcap := rfl

/-! ### Registers after a register write -/

/-- A written element register holds what was written. -/
@[simp] theorem setE_get_same (s : State) (i : EReg) (x : Option Elem) : (s.setE i x).e[i] = x := by
  simp

/-- Another element register is as before. -/
theorem setE_get_other (s : State) (i j : EReg) (x : Option Elem) (h : i ≠ j) : (s.setE i x).e[j] = s.e[j] := by
  have : i.val ≠ j.val := fun e => h (Fin.ext e)
  simp [this]

/-- A written vector register holds what was written. -/
@[simp] theorem setV_get_same (s : State) (i : VReg) (xs : Option (List Elem)) : (s.setV i xs).v[i] = xs := by
  simp

/-- Another vector register is as before. -/
theorem setV_get_other (s : State) (i j : VReg) (xs : Option (List Elem)) (h : i ≠ j) : (s.setV i xs).v[j] = s.v[j] := by
  have : i.val ≠ j.val := fun e => h (Fin.ext e)
  simp [this]

end Sys2Proof.Machine
end

