-- ==== Sys2Proof/Tests/Slice0.lean ====
section
/-! SUPPORT. The model's own tests: well-formedness, decoding of the words the spec writes out, at most two small steps for each
command on values of 95_test_vectors.md, and for each statement with hypotheses a state that meets them. -/

namespace Sys2Proof.Tests

set_option Elab.async false

open Sys2Proof Sys2Proof.Machine

/-! ### Helpers -/

/-- The reset state with the example parameters of 95_test_vectors.md section 0. -/
def base : State := { State.reset with nmax := 256#64, vcap := 257#64, bcap := 4096#64 }

/-- `e0` holds a value. -/
def inE (x : Elem) : State := base.setE 0 (some x)

/-- `e1` holds a value. -/
def inE1 (x : Elem) : State := base.setE 1 (some x)

/-- `v0` holds a sequence. -/
def inV (xs : List Elem) : State := base.setV 0 (some xs)

/-- `v1` holds a sequence. -/
def inV1 (xs : List Elem) : State := base.setV 1 (some xs)

/-- `e0` and `e1` hold values. -/
def inEE (x y : Elem) : State := (inE x).setE 1 (some y)

/-- `v0` and `v1` hold sequences. -/
def inVV (xs ys : List Elem) : State := (inV xs).setV 1 (some ys)

/-- `v0` holds a sequence and `e1` a value. -/
def inVE (xs : List Elem) (y : Elem) : State := (inV xs).setE 1 (some y)

/-- The buffer holds the bytes. -/
def inBuf (bytes : List Byte) : State := hostLoadBuf bytes base

/-- Issuing the word writes `x` (or `none`) into `e[rd]` and sets `STATUS`. -/
def yieldsE (s : State) (w : Nat) (rd : EReg) (x : Option Elem) (st : Csr) : Bool :=
  match step (s.withFetchWord 64 w) with
  | .next t => t.e[rd] == x && t.status == st
  | _ => false

/-- Issuing the word writes `xs` (or `none`) into `v[rd]` and sets `STATUS`. -/
def yieldsV (s : State) (w : Nat) (rd : VReg) (xs : Option (List Elem)) (st : Csr) : Bool :=
  match step (s.withFetchWord 64 w) with
  | .next t => t.v[rd] == xs && t.status == st
  | _ => false

/-- `P - 1`, the largest canonical value. -/
def pm1 : Elem := 0xfffffffffffffffffffffffffffffffffffffffffffffffffffffea100000000
/-- `P`, the smallest value that is not canonical. -/
def pp : Elem := 0xfffffffffffffffffffffffffffffffffffffffffffffffffffffea100000001
/-- The root of order 256 of 95_test_vectors.md section 0, the largest order `NMAX = 256` admits. -/
def w256 : Elem := 0x64a1e5237f6e9544ec385f2ec7e762979889012e68f8248e6503862532252cce
/-- Its inverse. -/
def w256Inv : Elem := 0x87ba8a30df62963bd7d720b981f770148ccda0f6fd9096ef23665de808c38d02
/-- The root of order 512. -/
def w512 : Elem := 0xff3a0e195adca7255bdc3cbe732812140c76c631244794278f6e52ff7b72c483
/-- The element of order 5. -/
def g5 : Elem := 0xb8c83a250005d771e4d5a4dbbbc7894770ca942b947b986268d0fcf5a48130dd

/-! ### Well-formedness: an immediate one past its field is refused, the largest that fits is not -/

theorem test_wf_pfromb_off : (Instr.pfromb 15 0x1000000 0).wf = false := by decide
theorem test_wf_pfromb_len : (Instr.pfromb 15 0 0x1000000).wf = false := by decide
theorem test_wf_pfromb_largest : (Instr.pfromb 15 0xffffff 0xffffff).wf = true := by decide
theorem test_wf_ploadv_off : (Instr.ploadv 7 0x1000000 0 .w8).wf = false := by decide
theorem test_wf_ploadv_len : (Instr.ploadv 7 0 0x1000000 .w32).wf = false := by decide
theorem test_wf_ploadv_largest : (Instr.ploadv 7 0xffffff 0xffffff .w31).wf = true := by decide

/-! ### Decoding: the legal words of 95_test_vectors.md section 2.6, and its illegal ones -/

theorem test_decode_padd : decodeTableWord 64 0x1020100000000000 = some (.padd 2 0 1) := by decide
theorem test_decode_psub : decodeTableWord 64 0x11fed00000000000 = some (.psub 15 14 13) := by decide
theorem test_decode_pmul : decodeTableWord 64 0x1200000000000000 = some (.pmul 0 0 0) := by decide
theorem test_decode_pexp : decodeTableWord 64 0x1351300000000000 = some (.pexp 5 1 3) := by decide
theorem test_decode_pinv : decodeTableWord 64 0x1430000000000000 = some (.pinv 3 0) := by decide
theorem test_decode_pinve : decodeTableWord 64 0x154a000000000000 = some (.pinve 4 10) := by decide
theorem test_decode_pbinv : decodeTableWord 64 0x1617000000000000 = some (.pbinv 1 7) := by decide
theorem test_decode_badd : decodeTableWord 64 0x2060100000000000 = some (.badd 6 0 1) := by decide
theorem test_decode_bsub : decodeTableWord 64 0x2164500000000000 = some (.bsub 6 4 5) := by decide
theorem test_decode_bmul : decodeTableWord 64 0x2220100000000000 = some (.bmul 2 0 1) := by decide
theorem test_decode_bexp : decodeTableWord 64 0x2389a00000000000 = some (.bexp 8 9 10) := by decide
theorem test_decode_binv : decodeTableWord 64 0x2441000000000000 = some (.binv 4 1) := by decide
theorem test_decode_binve : decodeTableWord 64 0x2551000000000000 = some (.binve 5 1) := by decide
theorem test_decode_bdiv : decodeTableWord 64 0x2632100000000000 = some (.bdiv 3 2 1) := by decide
theorem test_decode_peval : decodeTableWord 64 0x30f7e00000000000 = some (.peval 15 7 14) := by decide
theorem test_decode_pvanish : decodeTableWord 64 0x3140000000000000 = some (.pvanish 4 0) := by decide
theorem test_decode_ppmul : decodeTableWord 64 0x3275200000000000 = some (.ppmul 7 5 2) := by decide
theorem test_decode_ppdiv : decodeTableWord 64 0x3354200000000000 = some (.ppdiv 5 4 2) := by decide
theorem test_decode_pprem : decodeTableWord 64 0x3464200000000000 = some (.pprem 6 4 2) := by decide
theorem test_decode_plag : decodeTableWord 64 0x3520100000000000 = some (.plag 2 0 1) := by decide
theorem test_decode_plag4 : decodeTableWord 64 0x3630100000000000 = some (.plag4 3 0 1) := by decide
theorem test_decode_order : decodeTableWord 64 0x4030000000000000 = some (.order 3 0 false) := by decide
theorem test_decode_order_2 : decodeTableWord 64 0x403f010000000000 = some (.order 3 15 true) := by decide
theorem test_decode_fft : decodeTableWord 64 0x4110000000000000 = some (.fft 1 0 0) := by decide
theorem test_decode_ifft : decodeTableWord 64 0x4221c00000000000 = some (.ifft 2 1 12) := by decide
theorem test_decode_pfromb : decodeTableWord 64 0x501000001c000002 = some (.pfromb 1 28 2) := by decide
theorem test_decode_pfromb_2 : decodeTableWord 64 0x50f0ffffff000000 = some (.pfromb 15 16777215 0) := by decide
theorem test_decode_ploadv : decodeTableWord 64 0x510000000000001e = some (.ploadv 0 0 30 .w8) := by decide
theorem test_decode_ploadv_2 : decodeTableWord 64 0x517400000000001e = some (.ploadv 7 0 30 .w31) := by decide
theorem test_decode_ploadv_3 : decodeTableWord 64 0x5138000100001000 = some (.ploadv 3 256 4096 .w32) := by decide

/-- The words of 95_test_vectors.md section 2.6 that encode no command. -/
def illegalWords : List Nat :=
  [0x0000000000000000, 0x0f00000000000000, 0x1700000000000000, 0x2700000000000000, 0x3700000000000000, 0x4300000000000000,
   0x5200000000000000, 0xffffffffffffffff, 0x1020100000000001, 0x1020108000000000, 0x1020110000000000, 0x1420100000000000,
   0x1680000000000000, 0x1618000000000000, 0x3028000000000000, 0x4030020000000000, 0x4030100000000000, 0x4110010000000000,
   0x5011000000000000, 0x5112000000000000, 0x5014000000000002, 0x510c000000000028, 0x5180000000000008]

theorem test_illegal_words : illegalWords.all (fun w => decodeTableWord 64 w == none) = true := by decide +kernel
theorem test_illegal_word_keeps_registers :
    yieldsE ((inEE 1 2).setE 2 (some 77)) 0x1020100000000001 2 (some 77) 8 = true := by decide +kernel
theorem test_encode_r : encode (.bexp 8 9 10) = 0x2389a00000000000 := by decide
theorem test_encode_l : encode (.ploadv 3 256 4096 .w32) = 0x5138000100001000 := by decide

/-! ### Prime field (95_test_vectors.md section 2.1) -/

theorem test_padd_wraps : yieldsE (inEE 0x123456789abcdef0123456789abcdef0123456789abcdef0123456789abcdef 0xfedcba9876543210fedcba9876543210fedcba9876543210fedcba9876543210) 0x1020100000000000 2 (some 0x15efffffffe) 0 = true := by decide +kernel
theorem test_padd_range : yieldsE (inEE 1 0xfffffffffffffffffffffffffffffffffffffffffffffffffffffea100000001) 0x1020100000000000 2 none 2 = true := by decide +kernel
theorem test_psub_borrows : yieldsE (inEE 3 5) 0x1120100000000000 2 (some 0xfffffffffffffffffffffffffffffffffffffffffffffffffffffea0ffffffff) 0 = true := by decide +kernel
theorem test_psub_whole_range : yieldsE (inEE 0 0xfffffffffffffffffffffffffffffffffffffffffffffffffffffea100000000) 0x1120100000000000 2 (some 1) 0 = true := by decide +kernel
theorem test_pmul_reduces : yieldsE (inEE 0x123456789abcdef0123456789abcdef0123456789abcdef0123456789abcdef 0xfedcba9876543210fedcba9876543210fedcba9876543210fedcba9876543210) 0x1220100000000000 2 (some 0x626f79f0f4d45d6b73ce358e45ea4940852cf12b97003736b6e76c55f1c7c22a) 0 = true := by decide +kernel
theorem test_pmul_same_register : yieldsE (inE 7) 0x1200000000000000 0 (some 49) 0 = true := by decide +kernel
theorem test_pexp_long_exponent : yieldsE (inEE 7 0xffffffffffffffffffffffffffffffffffffffffffffffffffffffffffffffff) 0x1320100000000000 2 (some 0x84afe06de07b1dba6fcc45ccde2384cb081af0855fbca7e59fc46dddcfcccd06) 0 = true := by decide +kernel
theorem test_pexp_zero_to_zero : yieldsE (inEE 0 0) 0x1320100000000000 2 (some 1) 0 = true := by decide +kernel
theorem test_pinv_seven : yieldsE (inE 7) 0x1420000000000000 2 (some 0x249249249249249249249249249249249249249249249249249248f26db6db6e) 0 = true := by decide +kernel
theorem test_pinv_zero_same_register : yieldsE (inE 0) 0x1400000000000000 0 none 5 = true := by decide +kernel
theorem test_pinve_seven : yieldsE (inE 7) 0x1520000000000000 2 (some 0x249249249249249249249249249249249249249249249249249248f26db6db6e) 0 = true := by decide +kernel
theorem test_pinve_range_before_zero : yieldsE (inE 0xfffffffffffffffffffffffffffffffffffffffffffffffffffffea100000001) 0x1520000000000000 2 none 2 = true := by decide +kernel
theorem test_pbinv_skips_zeros : yieldsV (inV [1, 2, 0, 7]) 0x1620000000000000 2 (some [1, 0x7fffffffffffffffffffffffffffffffffffffffffffffffffffff5080000001, 0, 0x249249249249249249249249249249249249249249249249249248f26db6db6e]) 0x100 = true := by decide +kernel
theorem test_pbinv_no_zero : yieldsV (inV [2, 4, 8]) 0x1620000000000000 2 (some [0x7fffffffffffffffffffffffffffffffffffffffffffffffffffff5080000001, 0xbffffffffffffffffffffffffffffffffffffffffffffffffffffef8c0000001, 0xdffffffffffffffffffffffffffffffffffffffffffffffffffffecce0000001]) 0 = true := by decide +kernel
theorem test_euclidean_inverse : pfEuclidInv 7 = 0x249249249249249249249249249249249249249249249249249248f26db6db6e := by decide +kernel
theorem test_batch_schedule : pfBatchSchedule [1, 2, 0, 7] = [1, 0x7fffffffffffffffffffffffffffffffffffffffffffffffffffff5080000001, 0, 0x249249249249249249249249249249249249249249249249249248f26db6db6e] := by decide +kernel

/-! ### Binary field (95_test_vectors.md section 2.2) -/

theorem test_badd_xor : yieldsE (inEE 0x123456789abcdef0123456789abcdef0123456789abcdef0123456789abcdef 0xfedcba9876543210fedcba9876543210fedcba9876543210fedcba9876543210) 0x2020100000000000 2 (some 0xffffffffffffffffffffffffffffffffffffffffffffffffffffffffffffffff) 0 = true := by decide +kernel
theorem test_badd_no_range_check : yieldsE (inEE 0xfffffffffffffffffffffffffffffffffffffffffffffffffffffea100000001 1) 0x2020100000000000 2 (some 0xfffffffffffffffffffffffffffffffffffffffffffffffffffffea100000000) 0 = true := by decide +kernel
theorem test_bsub_xor : yieldsE (inEE 5 3) 0x2120100000000000 2 (some 6) 0 = true := by decide +kernel
theorem test_bsub_missing : yieldsE (inE 5) 0x2120100000000000 2 none 7 = true := by decide +kernel
theorem test_bmul_reduces : yieldsE (inEE 0x8000000000000000000000000000000000000000000000000000000000000000 0x8000000000000000000000000000000000000000000000000000000000000000) 0x2220100000000000 2 (some 0x5000a4034902824d000b0030802d20c000100104004804000100104004904000) 0 = true := by decide +kernel
theorem test_bmul_pattern : yieldsE (inEE 0x123456789abcdef0123456789abcdef0123456789abcdef0123456789abcdef 0xfedcba9876543210fedcba9876543210fedcba9876543210fedcba9876543210) 0x2220100000000000 2 (some 0x42ea725b98cc0d22bba57b7beb844173ed519b94c3c47e228497247280cbc59b) 0 = true := by decide +kernel
theorem test_bexp_small : yieldsE (inEE 3 5) 0x2320100000000000 2 (some 51) 0 = true := by decide +kernel
theorem test_bexp_to_degree_256 : yieldsE (inEE 2 256) 0x2320100000000000 2 (some 0x2000000000000000400000000000002000000000000000000000000000001) 0 = true := by decide +kernel

/-- One multiplied by itself stays one, however often. -/
theorem bfInvNonzero_one : bfInvNonzero 1#256 = 1#256 := by
  have hmul : bfMul 1#256 1#256 = 1#256 := by decide +kernel
  have hloop : ∀ e k, squareAndMultiplyLoop bfMul 1#256 e k 1#256 = 1#256 := by
    intro e k
    induction k with
    | zero => rfl
    | succ k ih => simp only [squareAndMultiplyLoop, hmul, ite_self, ih]
  exact hloop _ _

theorem test_binv_one : execBinv 2 0 (inE 1) = .next ((inE 1).gaveE 2 1) := by
  have h : (do let x ← sourceE 0 (inE 1); bfInv x) = Except.ok 1#256 := by
    change (Except.ok (bfInvNonzero 1#256) : Except FailCode Elem) = _
    rw [bfInvNonzero_one]
  rw [execBinv, h]; rfl
theorem test_binv_zero : yieldsE (inE 0) 0x2420000000000000 2 none 5 = true := by decide +kernel
theorem test_binve_one : execBinve 2 0 (inE 1) = .next ((inE 1).gaveE 2 1) := test_binv_one
theorem test_binary_euclidean_inverse : bfEuclidInv 2#256 = 0x8001000000000000000200000000000001000000000000000000000000000000 := by decide +kernel
theorem test_bf_divide : bfDivide 0b1101 0b11 = (0b100, 0b1) := by decide +kernel
theorem test_bdiv_zero_by_zero : yieldsE (inEE 0 0) 0x2620100000000000 2 none 5 = true := by decide +kernel
theorem test_bdiv_by_one : bfDiv 0x123456789abcdef0123456789abcdef0123456789abcdef0123456789abcdef 1 = .ok 0x123456789abcdef0123456789abcdef0123456789abcdef0123456789abcdef := by
  have hmul : bfMul 0x123456789abcdef0123456789abcdef0123456789abcdef0123456789abcdef 1#256 = 0x123456789abcdef0123456789abcdef0123456789abcdef0123456789abcdef := by decide +kernel
  change (Except.ok (bfMul 0x123456789abcdef0123456789abcdef0123456789abcdef0123456789abcdef (bfInvNonzero 1#256)) : Except FailCode Elem) = _
  rw [bfInvNonzero_one, hmul]

/-! ### Polynomials (95_test_vectors.md section 2.3) -/

theorem test_peval_sum : yieldsE (inVE [1, 2, 3] 5) 0x3020100000000000 2 (some 86) 0 = true := by decide +kernel
theorem test_peval_constant_term : yieldsE (inVE [4, 5, 6] 0) 0x3020100000000000 2 (some 4) 0 = true := by decide +kernel
theorem test_pvanish_four_roots : yieldsV (inV [1, 2, 3, 4]) 0x3120000000000000 2 (some [24, 0xfffffffffffffffffffffffffffffffffffffffffffffffffffffea0ffffffcf, 35, 0xfffffffffffffffffffffffffffffffffffffffffffffffffffffea0fffffff7, 1]) 0 = true := by decide +kernel
theorem test_pvanish_no_roots : yieldsV (inV []) 0x3120000000000000 2 (some [1]) 0 = true := by decide +kernel
theorem test_ppmul_product : yieldsV (inVV [1, 2, 3] [4, 5]) 0x3220100000000000 2 (some [4, 13, 22, 15]) 0 = true := by decide +kernel
theorem test_ppmul_keeps_zeros : yieldsV (inVV [1, 2, 0] [3, 0]) 0x3220100000000000 2 (some [3, 6, 0, 0]) 0 = true := by decide +kernel
theorem test_ppdiv_quotient : yieldsV (inVV [1, 2, 3, 0] [0, 1, 0, 0]) 0x3320100000000000 2 (some [2, 3, 0]) 0 = true := by decide +kernel
theorem test_ppdiv_zero_divisor : yieldsV (inVV [1, 2] [0, 0]) 0x3320100000000000 2 none 5 = true := by decide +kernel
theorem test_pprem_remainder : yieldsV (inVV [7, 0, 0, 1] [1, 1]) 0x3420100000000000 2 (some [6]) 0 = true := by decide +kernel
theorem test_pprem_constant_divisor : yieldsV (inVV [6, 4] [2]) 0x3420100000000000 2 (some []) 0 = true := by decide +kernel
theorem test_plag_line : yieldsV (inVV [0, 1] [3, 5]) 0x3520100000000000 2 (some [3, 2]) 0 = true := by decide +kernel
theorem test_plag_repeated_abscissa : yieldsV (inVV [1, 2, 2, 4] [1, 2, 3, 4]) 0x3520100000000000 2 none 3 = true := by decide +kernel
theorem test_plag4_cubic : yieldsV (inVV [1, 2, 3, 4] [1, 8, 27, 64]) 0x3620100000000000 2 (some [0, 0, 0, 1]) 0 = true := by decide +kernel
theorem test_plag4_length_before_distinct : yieldsV (inVV [1, 2, 2, 4] [1, 2, 3]) 0x3620100000000000 2 none 1 = true := by decide +kernel

/-! ### Roots of unity and transforms (95_test_vectors.md section 2.4) -/

theorem test_order_four : yieldsV (inE 0x4ed93a7719cb53038a4103c1455ace102fad473c4d7e179d377de0dffa5aa3a4) 0x4020000000000000 2 (some [1, 0x4ed93a7719cb53038a4103c1455ace102fad473c4d7e179d377de0dffa5aa3a4, 0xfffffffffffffffffffffffffffffffffffffffffffffffffffffea100000000, 0xb126c588e634acfc75befc3ebaa531efd052b8c3b281e862c8821dc105a55c5d]) 0 = true := by decide +kernel
theorem test_order_inverse_of_zero : yieldsV (inE 0) 0x4020010000000000 2 none 5 = true := by decide +kernel
theorem test_fft_four : yieldsV (inVE [1, 2, 3, 4] 0x4ed93a7719cb53038a4103c1455ace102fad473c4d7e179d377de0dffa5aa3a4) 0x4120100000000000 2 (some [10, 0x624d8b11cc6959f8eb7df87d754a63dfa0a571876503d0c591043ce10b4ab8b7, 0xfffffffffffffffffffffffffffffffffffffffffffffffffffffea0ffffffff, 0x9db274ee3396a607148207828ab59c205f5a8e789afc2f3a6efbc1bff4b54746]) 0 = true := by decide +kernel
theorem test_fft_eight_impulse : yieldsV (inVE [0, 1, 0, 0, 0, 0, 0, 0] 0x8eae65d0e012af2869ab6ade0783282234ae9bd8e5440c49beecf4dd19fec602) 0x4120100000000000 2 (some [1, 0x8eae65d0e012af2869ab6ade0783282234ae9bd8e5440c49beecf4dd19fec602, 0x4ed93a7719cb53038a4103c1455ace102fad473c4d7e179d377de0dffa5aa3a4, 0x2185953aacc7c95779452dc5a23a21121b6dfdc87e606315dddd0820c16a06bf, 0xfffffffffffffffffffffffffffffffffffffffffffffffffffffea100000000, 0x71519a2f1fed50d796549521f87cd7ddcb5164271abbf3b6411309c3e60139ff, 0xb126c588e634acfc75befc3ebaa531efd052b8c3b281e862c8821dc105a55c5d, 0xde7a6ac5533836a886bad23a5dc5deede4920237819f9cea2222f6803e95f942]) 0 = true := by decide +kernel
theorem test_ifft_four : yieldsV (inVE [10, 0x624d8b11cc6959f8eb7df87d754a63dfa0a571876503d0c591043ce10b4ab8b7, 0xfffffffffffffffffffffffffffffffffffffffffffffffffffffea0ffffffff, 0x9db274ee3396a607148207828ab59c205f5a8e789afc2f3a6efbc1bff4b54746] 0x4ed93a7719cb53038a4103c1455ace102fad473c4d7e179d377de0dffa5aa3a4) 0x4220100000000000 2 (some [1, 2, 3, 4]) 0 = true := by decide +kernel
theorem test_ifft_length : yieldsV (inVE [1, 2] 0x4ed93a7719cb53038a4103c1455ace102fad473c4d7e179d377de0dffa5aa3a4) 0x4220100000000000 2 none 1 = true := by decide +kernel

/-! ### Byte loading (95_test_vectors.md section 2.5) -/

theorem test_pfromb_big_endian : yieldsE (inBuf [1, 2, 3, 4, 5, 6, 7, 8, 9, 10, 11, 12, 13, 14, 15, 16, 17, 18, 19, 20, 21, 22, 23, 24, 25, 26, 27, 28, 29, 30]) 0x501000001c000002 1 (some 7454) 0 = true := by decide +kernel
theorem test_pfromb_one_byte_too_far : yieldsE (inBuf [1, 2, 3, 4, 5, 6, 7, 8, 9, 10, 11, 12, 13, 14, 15, 16, 17, 18, 19, 20, 21, 22, 23, 24, 25, 26, 27, 28, 29, 30]) 0x501000001d000002 1 none 2 = true := by decide +kernel
theorem test_ploadv_reduces_and_pads : yieldsV (inBuf (List.replicate 32 0xff ++ List.replicate 8 0xaa)) 0x5108000000000028 0 (some [0x15efffffffe, 0xaaaaaaaaaaaaaaaa000000000000000000000000000000000000000000000000]) 0 = true := by decide +kernel
theorem test_ploadv_31 : yieldsV (inBuf [1, 2, 3, 4, 5, 6, 7, 8, 9, 10, 11, 12, 13, 14, 15, 16, 17, 18, 19, 20, 21, 22, 23, 24, 25, 26, 27, 28, 29, 30]) 0x517400000000001e 7 (some [0x102030405060708090a0b0c0d0e0f101112131415161718191a1b1c1d1e00]) 0 = true := by decide +kernel

/-! ### Failures, host transactions and reset (95_test_vectors.md sections 2.7 and 2.8) -/

theorem test_destination_lost : yieldsE (inE 5) 0x1000100000000000 0 none 7 = true := by decide +kernel
theorem test_from_reset : yieldsE State.reset 0x1020100000000000 2 none 7 = true := by decide +kernel
theorem test_errsum_collects :
    (enterFailure none .illegal (enterFailure (some (.e 0)) .range base)).errsum = 0x104#64 := by decide
theorem test_clear_err : (hostClearErr 0x3 { base with errsum := 0x006#64 }).errsum = 0x004#64 := by decide
theorem test_evalid : (inEE 1 2).evalid = 3#64 ∧ (inVV [] [1]).vvalid = 3#64 ∧ (inVV [] [1]).vlen 1 = 1#64 := by decide +kernel
theorem test_no_such_csr : base.csr 0x0a = none ∧ base.csr 0x18 = none := by decide
theorem test_write_e_out_of_range : hostWriteE 16 0 base = refuseTransaction base := by decide
theorem test_write_v_too_long : hostWriteV 0 (List.replicate 258 0) base = refuseTransaction base := by decide +kernel
theorem test_buffer_write_removes_zero : Memory.write [(1, 5#8), (3, 7#8)] 1 0#8 = [(3, 7#8)] := by decide
theorem test_buffer_keeps_old_bytes : Memory.read (hostLoadBuf [9#8] (inBuf [1#8, 2#8])).buf 1 = 2#8 := by decide


/-! ### Witnesses: for every statement with hypotheses, states and operands that meet them, clause by clause at their boundaries -/

/-- `e0` and `e1` hold these values. -/
abbrev holdsEE (s : State) (x y : Elem) : Prop := s.e[(0 : EReg)] = some x ∧ s.e[(1 : EReg)] = some y
/-- `v0` and `v1` hold these sequences. -/
abbrev holdsVV (s : State) (xs ys : List Elem) : Prop := s.v[(0 : VReg)] = some xs ∧ s.v[(1 : VReg)] = some ys
/-- `v0` and `e1` hold these values. -/
abbrev holdsVE (s : State) (xs : List Elem) (y : Elem) : Prop := s.v[(0 : VReg)] = some xs ∧ s.e[(1 : EReg)] = some y
/-- A source of the command holds `none`. -/
abbrev missing (i : Instr) (s : State) (r : Reg) : Prop := r ∈ sources i ∧ s.isNone r

/-- The outcome is a next state. -/
def isNext : Host.Outcome State Fault Refusal → Bool
  | .next _ => true
  | _ => false

/-- The next state of an outcome that is one. -/
def nextOr (s : State) : Host.Outcome State Fault Refusal → State
  | .next t => t
  | _ => s

/-- An outcome that is a next state is `nextOr` of itself. -/
theorem eq_next {s : State} {o : Host.Outcome State Fault Refusal} (h : isNext o = true) : o = .next (nextOr s o) := by
  cases o <;> first | rfl | cases h

/-- A state with what the host has still to do. -/
def awaiting (evs : List HostEvent) (s : State) : State := { s with pending := evs }

/-- The powers of 7, of the root of order 512 and of its inverse do not return to 1 within 256. -/
theorem no_order (g : Nat) (h : ∀ k < 257, 1 ≤ k → g ^ k % Config.primeP ≠ 1) : NoOrderUpTo g 256 :=
  fun k h1 h2 => h k (by omega) h1

/-- A sequence with every element below `P` is canonical. -/
theorem canonical_of {xs : List Elem} (h : xs.all (fun x => x.toNat < Config.primeP) = true) : Canonical xs := by
  simpa using h

/-- A sequence with `P` in it is not. -/
theorem not_canonical_of {xs : List Elem} (h : pp ∈ xs) : NotCanonical xs := ⟨pp, h, by decide⟩

/-- Five is no power of two. -/
theorem five_ne_two_pow (k : Nat) : 5 ≠ 2 ^ k := by
  rcases Nat.lt_or_ge k 3 with h | h
  · interval_cases k <;> decide
  · have := Nat.pow_le_pow_right (n := 2) (by decide) h
    omega

/-- A Fermat power computed by `powerResidue`. -/
theorem fermat_of_residue {x y : Nat} (h : powerResidue Config.primeP 256 x (Config.primeP - 2) = y) :
    x ^ (Config.primeP - 2) % Config.primeP = y := by
  rw [← h, powerResidue_eq _ _ _ _ (by decide +kernel)]

theorem witness_DecodeInvertsEncode :
    (Instr.pfromb 15 0xffffff 0xffffff).wf = true ∧
    (Instr.ploadv 7 0xffffff 0 .w32).wf = true ∧
    (Instr.order 7 15 true).wf = true := by decide +kernel

theorem witness_EncodeInvertsDecode : decode 0x50f0ffffff000000 = .ok (.pfromb 15 0xffffff 0) ∧
    decode 0x403f010000000000 = .ok (.order 3 15 true) := ⟨rfl, rfl⟩

theorem witness_DecoderAcceptsExactlyTheOpcodeMap :
    ⟨0x51, 0x5100000000000000, 0xff83000000000000⟩ ∈ opcodeRows ∧
      decode 0x5138000100001000 = .ok (.ploadv 3 256 4096 .w32) := ⟨by decide, rfl⟩

theorem witness_StepRunsTheDecodedCommand :
    (awaiting [.hIssue 0x1020100000000000, .hReadE 2] base).pending = .hIssue 0x1020100000000000 :: [.hReadE 2] ∧
      decode 0x1020100000000000 = .ok (.padd 2 0 1) := ⟨rfl, rfl⟩

theorem witness_IllegalWordChangesNoRegister :
    (awaiting [.hIssue 0x1020100000000001] (inE 5)).pending = .hIssue 0x1020100000000001 :: [] ∧
      ∀ i, decode 0x1020100000000001 ≠ .ok i := ⟨rfl, fun _ h => nomatch h⟩

theorem witness_EngineHoldsItsStateBetweenTransactions : (inE 5).pending = [] := rfl

/-- A legal state with every bit of `ERRSUM`, the flag, a full vector register and bytes up to `BFILL`. -/
def busy : State :=
  { (inV (List.replicate 257 pp)) with
    status := 0x100#64, errsum := errsumBits, buf := [(0, 1#8), (4095, 2#8)], bfill := 4096#64,
    pending := [.hIssue 0x1620000000000000] }

theorem busy_legal : busy.Legal where
  params := ⟨⟨8, by decide⟩, by decide, by decide, by decide, by decide, by decide⟩
  vectors := by unfold State.vectorsFit; decide +kernel
  buffer := by unfold State.bufferLegal; decide +kernel
  status := .inl rfl
  errsum := by
    intro k hk
    rcases Nat.lt_or_ge k 64 with h | h
    · have : ∀ k < 64, errsumBits.getLsbD k = true → 1 ≤ k ∧ k ≤ 8 := by decide +kernel
      exact this k h hk
    · rw [BitVec.getLsbD_of_ge _ _ h] at hk
      cases hk

theorem witness_EveryStepKeepsTheStateLegal : busy.Legal ∧ ∃ t, step busy = .next t :=
  ⟨busy_legal, _, eq_next (s := busy) (by decide +kernel)⟩

theorem witness_PrimeFieldOperationsAreResidues :
    pm1.toNat < Config.primeP ∧
    0 < Config.primeP := by decide +kernel

theorem witness_PrimeFieldPowersAndInverses :
    pm1.toNat < Config.primeP ∧
    pm1.toNat ≠ 0 ∧
    1 < Config.primeP := by decide +kernel

theorem witness_PrimeFieldLaws :
    pm1.toNat < Config.primeP ∧
    pm1.toNat ≠ 0 ∧
    ∀ x ∈ [1, pm1.toNat], x < Config.primeP ∧ x ≠ 0 := by decide +kernel

theorem witness_ExtendedEuclidGivesTheFermatInverse :
    (0 < 1 ∧ 1 < Config.primeP) ∧
    0 < pm1.toNat ∧
    pm1.toNat < Config.primeP := by decide +kernel

theorem witness_BatchScheduleGivesElementwiseInverses :
    ∀ x ∈ [0, 1, pm1.toNat], x < Config.primeP := by decide +kernel

theorem witness_PaddWritesTheSumModuloP :
    holdsEE (inEE pm1 pm1) pm1 pm1 ∧
    holdsEE (inEE 0 pm1) 0 pm1 ∧
    pm1.toNat < Config.primeP ∧
    missing (.padd 2 0 1) (inE1 pm1) (.e 0) ∧ missing (.padd 2 0 1) (inE pm1) (.e 1) ∧
    holdsEE (inEE pp pm1) pp pm1 ∧
    holdsEE (inEE pm1 pp) pm1 pp ∧
    Config.primeP ≤ pp.toNat := by decide +kernel

theorem witness_PsubWritesTheDifferenceModuloP :
    holdsEE (inEE pm1 pm1) pm1 pm1 ∧
    holdsEE (inEE 0 pm1) 0 pm1 ∧
    pm1.toNat < Config.primeP ∧
    missing (.psub 2 0 1) (inE1 pm1) (.e 0) ∧ missing (.psub 2 0 1) (inE pm1) (.e 1) ∧
    holdsEE (inEE pp pm1) pp pm1 ∧
    holdsEE (inEE pm1 pp) pm1 pp ∧
    Config.primeP ≤ pp.toNat := by decide +kernel

theorem witness_PmulWritesTheProductModuloP :
    holdsEE (inEE pm1 pm1) pm1 pm1 ∧
    holdsEE (inEE 0 pm1) 0 pm1 ∧
    pm1.toNat < Config.primeP ∧
    missing (.pmul 2 0 1) (inE1 pm1) (.e 0) ∧ missing (.pmul 2 0 1) (inE pm1) (.e 1) ∧
    holdsEE (inEE pp pm1) pp pm1 ∧
    holdsEE (inEE pm1 pp) pm1 pp ∧
    Config.primeP ≤ pp.toNat := by decide +kernel

theorem witness_PexpWritesThePowerModuloP :
    holdsEE (inEE pm1 0xffffffffffffffffffffffffffffffffffffffffffffffffffffffffffffffff) pm1 0xffffffffffffffffffffffffffffffffffffffffffffffffffffffffffffffff ∧
    holdsEE (inEE 0 0) 0 0 ∧
    pm1.toNat < Config.primeP ∧
    missing (.pexp 2 0 1) (inE1 pm1) (.e 0) ∧ missing (.pexp 2 0 1) (inE pm1) (.e 1) ∧
    holdsEE (inEE pp 0) pp 0 ∧
    Config.primeP ≤ pp.toNat := by decide +kernel

theorem witness_PinvAndPinveWriteTheInverse :
    (inE pm1).e[(0 : EReg)] = some pm1 ∧
    pm1 ≠ 0#256 ∧
    pm1.toNat < Config.primeP ∧
    (inE pp).e[(0 : EReg)] = some pp ∧
    Config.primeP ≤ pp.toNat ∧
    (inE 0).e[(0 : EReg)] = some 0#256 ∧
    missing (.pinv 2 0) base (.e 0) ∧
    missing (.pinve 2 0) base (.e 0) := by decide +kernel

theorem witness_PbinvInvertsEveryElement :
    (inV [0, pm1]).v[(0 : VReg)] = some [0, pm1] ∧
    Canonical [0, pm1] ∧
    (inV [1, pm1]).v[(0 : VReg)] = some [1, pm1] ∧
    Canonical [1, pm1] ∧
    (inV [0, pp]).v[(0 : VReg)] = some [0, pp] ∧
    NotCanonical [0, pp] ∧
    missing (.pbinv 2 0) base (.v 0) := 
  ⟨by decide +kernel, canonical_of (by decide +kernel), by decide +kernel, canonical_of (by decide +kernel),
    by decide +kernel, not_canonical_of (by decide), by decide +kernel⟩

theorem witness_PolynomialDivisionOverGf2HasSmallerRemainder :
    1 ≠ 0 ∧
    Config.binaryQ ≠ 0 := by decide +kernel

theorem witness_BaddAndBsubWriteTheExclusiveOr :
    holdsEE (inEE pp pm1) pp pm1 ∧
    missing (.badd 2 0 1) (inE1 pm1) (.e 0) ∧ missing (.badd 2 0 1) (inE pm1) (.e 1) ∧
    missing (.bsub 2 0 1) (inE1 pm1) (.e 0) ∧ missing (.bsub 2 0 1) (inE pm1) (.e 1) := by decide +kernel

theorem witness_BmulWritesTheProductModuloQ :
    holdsEE (inEE pp pm1) pp pm1 ∧
    missing (.bmul 2 0 1) (inE1 pm1) (.e 0) ∧ missing (.bmul 2 0 1) (inE pm1) (.e 1) := by decide +kernel

theorem witness_BexpWritesThePowerModuloQ :
    holdsEE (inEE pp 0) pp 0 ∧
    holdsEE (inEE 0 0xffffffffffffffffffffffffffffffffffffffffffffffffffffffffffffffff) 0 0xffffffffffffffffffffffffffffffffffffffffffffffffffffffffffffffff ∧
    missing (.bexp 2 0 1) (inE1 pm1) (.e 0) ∧ missing (.bexp 2 0 1) (inE pm1) (.e 1) := by decide +kernel

theorem witness_BinvAndBinveWriteTheFermatInverse :
    (inE 1#256).e[(0 : EReg)] = some 1#256 ∧
    1#256 ≠ 0#256 ∧
    (inE 0xffffffffffffffffffffffffffffffffffffffffffffffffffffffffffffffff).e[(0 : EReg)] = some 0xffffffffffffffffffffffffffffffffffffffffffffffffffffffffffffffff ∧
    (inE 0).e[(0 : EReg)] = some 0#256 ∧
    missing (.binv 2 0) base (.e 0) ∧
    missing (.binve 2 0) base (.e 0) := by decide +kernel

theorem witness_BdivWritesTheQuotient :
    holdsEE (inEE 0 1) 0 1 ∧
    (1 : Elem) ≠ 0#256 ∧
    holdsEE (inEE 0 0) 0 0#256 ∧
    missing (.bdiv 2 0 1) (inE1 pm1) (.e 0) ∧ missing (.bdiv 2 0 1) (inE pm1) (.e 1) := by decide +kernel

theorem witness_BinaryDivisionUndoesMultiplication :
    (1 : Elem) ≠ 0#256 ∧
    (0xffffffffffffffffffffffffffffffffffffffffffffffffffffffffffffffff : Elem) ≠ 0#256 := by decide +kernel

theorem witness_PevalWritesTheSumOfPowers :
    holdsVE (inVE [pm1, 0] pm1) [pm1, 0] pm1 ∧
    Canonical [pm1, 0] ∧
    pm1.toNat < Config.primeP ∧
    holdsVE (inVE [] 0) [] 0 ∧
    Canonical [] ∧
    holdsVE (inVE [1, pp] pm1) [1, pp] pm1 ∧
    NotCanonical [1, pp] ∧
    holdsVE (inVE [] pp) [] pp ∧
    Config.primeP ≤ pp.toNat ∧
    missing (.peval 2 0 1) (inE1 pm1) (.v 0) ∧ missing (.peval 2 0 1) (inV [pm1]) (.e 1) := 
  ⟨by decide +kernel, canonical_of (by decide +kernel), by decide +kernel, by decide +kernel,
    canonical_of (by decide +kernel), by decide +kernel, not_canonical_of (by decide), by decide +kernel⟩

theorem witness_PvanishWritesTheVanishingPolynomial :
    (inV (List.replicate 256 pm1)).v[(0 : VReg)] = some (List.replicate 256 pm1) ∧
    Canonical (List.replicate 256 pm1) ∧
    (List.replicate 256 pm1).length + 1 ≤ (inV (List.replicate 256 pm1)).vcap.toNat ∧
    (inV (List.replicate 257 pm1)).v[(0 : VReg)] = some (List.replicate 257 pm1) ∧
    Canonical (List.replicate 257 pm1) ∧
    (inV (List.replicate 257 pm1)).vcap.toNat < (List.replicate 257 pm1).length + 1 ∧
    (inV [1, pp]).v[(0 : VReg)] = some [1, pp] ∧
    NotCanonical [1, pp] ∧
    missing (.pvanish 2 0) base (.v 0) := 
  ⟨by decide +kernel, canonical_of (by decide +kernel), by decide +kernel, by decide +kernel,
    canonical_of (by decide +kernel), by decide +kernel, by decide +kernel, not_canonical_of (by decide),
    by decide +kernel⟩

theorem witness_PpmulWritesTheConvolution :
    holdsVV (inVV (List.replicate 200 pm1) (List.replicate 58 pm1)) (List.replicate 200 pm1) (List.replicate 58 pm1) ∧
    Canonical (List.replicate 200 pm1) ∧ Canonical (List.replicate 58 pm1) ∧ (List.replicate 200 pm1) ≠ [] ∧ (List.replicate 58 pm1) ≠ [] ∧
    (List.replicate 200 pm1).length + (List.replicate 58 pm1).length - 1 ≤ (inVV (List.replicate 200 pm1) (List.replicate 58 pm1)).vcap.toNat ∧
    holdsVV (inVV [] [pm1]) [] [pm1] ∧ holdsVV (inVV [pm1] []) [pm1] [] ∧
    Canonical [pm1] ∧ Canonical [] ∧
    holdsVV (inVV (List.replicate 200 pm1) (List.replicate 59 pm1)) (List.replicate 200 pm1) (List.replicate 59 pm1) ∧
    Canonical (List.replicate 59 pm1) ∧ (List.replicate 59 pm1) ≠ [] ∧
    (inVV (List.replicate 200 pm1) (List.replicate 59 pm1)).vcap.toNat < (List.replicate 200 pm1).length + (List.replicate 59 pm1).length - 1 ∧
    holdsVV (inVV [1, pp] [pm1]) [1, pp] [pm1] ∧
    holdsVV (inVV [] [pp]) [] [pp] ∧
    NotCanonical [1, pp] ∧
    NotCanonical [pp] ∧
    missing (.ppmul 2 0 1) (inV1 [pm1]) (.v 0) ∧ missing (.ppmul 2 0 1) (inV [pm1]) (.v 1) := 
  ⟨by decide +kernel, canonical_of (by decide +kernel), canonical_of (by decide +kernel), by decide +kernel,
    by decide +kernel, by decide +kernel, by decide +kernel, by decide +kernel, canonical_of (by decide +kernel),
    canonical_of (by decide +kernel), by decide +kernel, canonical_of (by decide +kernel), by decide +kernel,
    by decide +kernel, by decide +kernel, by decide +kernel, not_canonical_of (by decide),
    not_canonical_of (by decide), by decide +kernel⟩

theorem witness_PpdivAndPpremDivideWithRemainder_success :
    holdsVV (inVV [1, pm1] [1, pm1]) [1, pm1] [1, pm1] ∧ Canonical [1, pm1] ∧
      ([1, pm1] : List Elem).length ≤ [1, pm1].length ∧ ([1, pm1] : List Elem).getD 1 0#256 ≠ 0#256 ∧
      ∀ j, 1 < j → ([1, pm1] : List Elem).getD j 0#256 = 0#256 := by
  refine ⟨by decide +kernel, canonical_of (by decide +kernel), by decide, by decide, fun j hj => ?_⟩
  obtain ⟨k, rfl⟩ : ∃ k, j = k + 2 := ⟨j - 2, by omega⟩
  rfl

theorem witness_PpdivAndPpremDivideWithRemainder_failures :
    holdsVV (inVV [1] [1, 0]) [1] [1, 0] ∧
    Canonical [1] ∧ Canonical [1, 0] ∧
    ([1] : List Elem).length < [1, 0].length ∧
    holdsVV (inVV [1, 2] [0, 0]) [1, 2] [0, 0] ∧
    Canonical [1, 2] ∧
    ([0, 0] : List Elem).length ≤ [1, 2].length ∧
    ([0, 0] : List Elem).all (· = 0#256) = true ∧
    holdsVV (inVV [] []) [] [] ∧
    holdsVV (inVV [1, pp] [pm1]) [1, pp] [pm1] ∧
    holdsVV (inVV [] [pp]) [] [pp] ∧
    NotCanonical [1, pp] ∧
    NotCanonical [pp] ∧
    missing (.ppdiv 2 0 1) (inV1 [pm1]) (.v 0) ∧ missing (.ppdiv 2 0 1) (inV [pm1]) (.v 1) ∧
    missing (.pprem 2 0 1) (inV1 [pm1]) (.v 0) ∧ missing (.pprem 2 0 1) (inV [pm1]) (.v 1) := 
  ⟨by decide +kernel, canonical_of (by decide +kernel), canonical_of (by decide +kernel), by decide +kernel,
    by decide +kernel, canonical_of (by decide +kernel), by decide +kernel, by decide +kernel, by decide +kernel,
    by decide +kernel, by decide +kernel, not_canonical_of (by decide), not_canonical_of (by decide),
    by decide +kernel⟩

theorem witness_PlagInterpolatesTheSamples :
    holdsVV (inVV [0, pm1] [pm1, 0]) [0, pm1] [pm1, 0] ∧
    Canonical [0, pm1] ∧ Canonical [pm1, 0] ∧
    ([pm1, 0] : List Elem).length = [0, pm1].length ∧
    ([0, pm1] : List Elem).Nodup ∧
    holdsVV (inVV [] []) [] [] ∧
    Canonical [] ∧ Canonical [] ∧
    holdsVV (inVV [1, 1] [1]) [1, 1] [1] ∧
    Canonical [1, 1] ∧ Canonical [1] ∧
    ([1] : List Elem).length ≠ [1, 1].length ∧
    holdsVV (inVV [1, 1] [1, 2]) [1, 1] [1, 2] ∧
    Canonical [1, 1] ∧ Canonical [1, 2] ∧
    ([1, 2] : List Elem).length = [1, 1].length ∧
    ¬ ([1, 1] : List Elem).Nodup ∧
    holdsVV (inVV [1, pp] [pm1]) [1, pp] [pm1] ∧
    holdsVV (inVV [] [pp]) [] [pp] ∧
    NotCanonical [1, pp] ∧
    NotCanonical [pp] ∧
    missing (.plag 2 0 1) (inV1 [pm1]) (.v 0) ∧ missing (.plag 2 0 1) (inV [pm1]) (.v 1) := 
  ⟨by decide +kernel, canonical_of (by decide +kernel), canonical_of (by decide +kernel), by decide +kernel,
    by decide +kernel, by decide +kernel, canonical_of (by decide +kernel), canonical_of (by decide +kernel),
    by decide +kernel, canonical_of (by decide +kernel), canonical_of (by decide +kernel), by decide +kernel,
    by decide +kernel, canonical_of (by decide +kernel), canonical_of (by decide +kernel), by decide +kernel,
    by decide +kernel, by decide +kernel, by decide +kernel, not_canonical_of (by decide),
    not_canonical_of (by decide), by decide +kernel⟩

theorem witness_Plag4AgreesWithPlagOnFourSamples :
    holdsVV (inVV [0, 1, 2, pm1] [pm1, 0, 0, 0]) [0, 1, 2, pm1] [pm1, 0, 0, 0] ∧
    Canonical [0, 1, 2, pm1] ∧ Canonical [pm1, 0, 0, 0] ∧
    ([0, 1, 2, pm1] : List Elem).length = 4 ∧
    ([pm1, 0, 0, 0] : List Elem).length = 4 ∧
    ([0, 1, 2, pm1] : List Elem).Nodup ∧
    holdsVV (inVV [1, 1, 2] [1, 2, 3, 4]) [1, 1, 2] [1, 2, 3, 4] ∧
    Canonical [1, 1, 2] ∧ Canonical [1, 2, 3, 4] ∧
    ([1, 1, 2] : List Elem).length ≠ 4 ∧
    holdsVV (inVV [0, 1, 2, pm1] [1, 2, 3, 4, 5]) [0, 1, 2, pm1] [1, 2, 3, 4, 5] ∧
    Canonical [0, 1, 2, pm1] ∧ Canonical [1, 2, 3, 4, 5] ∧
    ([1, 2, 3, 4, 5] : List Elem).length ≠ 4 ∧
    holdsVV (inVV [1, 2, 2, 4] [1, 2, 3, 4]) [1, 2, 2, 4] [1, 2, 3, 4] ∧
    Canonical [1, 2, 2, 4] ∧ Canonical [1, 2, 3, 4] ∧
    ([1, 2, 2, 4] : List Elem).length = 4 ∧
    ¬ ([1, 2, 2, 4] : List Elem).Nodup ∧
    holdsVV (inVV [1, pp] [pm1]) [1, pp] [pm1] ∧
    holdsVV (inVV [] [pp]) [] [pp] ∧
    NotCanonical [1, pp] ∧
    NotCanonical [pp] ∧
    missing (.plag4 2 0 1) (inV1 [pm1]) (.v 0) ∧ missing (.plag4 2 0 1) (inV [pm1]) (.v 1) := 
  ⟨by decide +kernel, canonical_of (by decide +kernel), canonical_of (by decide +kernel), by decide +kernel,
    by decide +kernel, by decide +kernel, by decide +kernel, canonical_of (by decide +kernel),
    canonical_of (by decide +kernel), by decide +kernel, by decide +kernel, canonical_of (by decide +kernel),
    canonical_of (by decide +kernel), by decide +kernel, by decide +kernel, canonical_of (by decide +kernel),
    canonical_of (by decide +kernel), by decide +kernel, by decide +kernel, by decide +kernel, by decide +kernel,
    not_canonical_of (by decide), not_canonical_of (by decide), by decide +kernel⟩

/-- The inverse of the root of order 512. -/
def w512Inv : Elem := 0xffdc2de93f0f094af6da17ef4409fb4606ce02e24216d776cb99fbbc9ead589d
/-- The inverse of the element of order 5. -/
def g5Inv : Elem := 0xc8b4d10346bf3acabc8d28514a068c8f33ea04116c2b9b8a16f70fd19fccb30a

theorem w256_fermat : w256.toNat ^ (Config.primeP - 2) % Config.primeP = w256Inv.toNat :=
  fermat_of_residue (by decide +kernel)
theorem w512_fermat : w512.toNat ^ (Config.primeP - 2) % Config.primeP = w512Inv.toNat :=
  fermat_of_residue (by decide +kernel)
theorem g5_fermat : g5.toNat ^ (Config.primeP - 2) % Config.primeP = g5Inv.toNat :=
  fermat_of_residue (by decide +kernel)

/-- The roots of order 256, within a table of 256 powers. -/
theorem w256_order : HasOrder w256.toNat (2 ^ 8) ∧ HasOrder w256Inv.toNat (2 ^ 8) ∧ 2 ^ 8 ≤ base.nmax.toNat := by
  decide +kernel
/-- The order 5, no power of two. -/
theorem g5_order : HasOrder g5.toNat 5 ∧ HasOrder g5Inv.toNat 5 ∧ 5 ≤ base.nmax.toNat ∧ ∀ k, 5 ≠ 2 ^ k :=
  ⟨by decide +kernel, by decide +kernel, by decide, five_ne_two_pow⟩
/-- The order 512 lies above 256. -/
theorem w512_no_order : NoOrderUpTo w512.toNat base.nmax.toNat ∧ NoOrderUpTo w512Inv.toNat base.nmax.toNat ∧
    1 ≤ base.nmax.toNat :=
  ⟨no_order _ (by decide +kernel), no_order _ (by decide +kernel), by decide⟩

theorem witness_OrderWritesTheRootOfUnityTable_power_of_two :
    (inE w256).e[(0 : EReg)] = some w256 ∧ w256.toNat < Config.primeP ∧ w256 ≠ 0#256 ∧
      HasOrder w256.toNat (2 ^ 8) ∧ HasOrder (w256.toNat ^ (Config.primeP - 2) % Config.primeP) (2 ^ 8) ∧
      2 ^ 8 ≤ (inE w256).nmax.toNat := by
  rw [w256_fermat]
  exact ⟨by decide +kernel, by decide +kernel, by decide +kernel, w256_order.1, w256_order.2.1, w256_order.2.2⟩

theorem witness_OrderWritesTheRootOfUnityTable_other_order :
    (inE g5).e[(0 : EReg)] = some g5 ∧ g5.toNat < Config.primeP ∧ g5 ≠ 0#256 ∧
      HasOrder g5.toNat 5 ∧ HasOrder (g5.toNat ^ (Config.primeP - 2) % Config.primeP) 5 ∧
      5 ≤ (inE g5).nmax.toNat ∧ ∀ k, 5 ≠ 2 ^ k := by
  rw [g5_fermat]
  exact ⟨by decide +kernel, by decide +kernel, by decide +kernel, g5_order.1, g5_order.2.1, g5_order.2.2⟩

theorem witness_OrderWritesTheRootOfUnityTable_no_order :
    (inE w512).e[(0 : EReg)] = some w512 ∧ w512.toNat < Config.primeP ∧ w512 ≠ 0#256 ∧
      NoOrderUpTo w512.toNat (inE w512).nmax.toNat ∧
      NoOrderUpTo (w512.toNat ^ (Config.primeP - 2) % Config.primeP) (inE w512).nmax.toNat ∧ 1 ≤ (inE w512).nmax.toNat := by
  rw [w512_fermat]
  exact ⟨by decide +kernel, by decide +kernel, by decide +kernel, w512_no_order⟩

theorem witness_OrderWritesTheRootOfUnityTable_failures :
    (inE 0).e[(0 : EReg)] = some 0#256 ∧ (inE pp).e[(0 : EReg)] = some pp ∧ Config.primeP ≤ pp.toNat ∧
      missing (.order 2 0 true) base (.e 0) ∧ missing (.order 2 0 false) base (.e 0) := by decide +kernel

theorem witness_FftEvaluatesAtThePowersOfTheRoot :
    holdsVE (inVE (List.replicate 256 pm1) w256) (List.replicate 256 pm1) w256 ∧
    Canonical (List.replicate 256 pm1) ∧
    w256.toNat < Config.primeP ∧
    (List.replicate 256 pm1).length ≤ 2 ^ 8 ∧
    holdsVE (inVE (List.replicate 257 pm1) w256) (List.replicate 257 pm1) w256 ∧
    Canonical (List.replicate 257 pm1) ∧
    2 ^ 8 < (List.replicate 257 pm1).length ∧
    holdsVE (inVE [pm1] g5) [pm1] g5 ∧
    Canonical [pm1] ∧
    g5.toNat < Config.primeP ∧
    holdsVE (inVE [pm1] w512) [pm1] w512 ∧
    w512.toNat < Config.primeP ∧
    holdsVE (inVE [1, pp] pm1) [1, pp] pm1 ∧
    NotCanonical [1, pp] ∧
    holdsVE (inVE [] pp) [] pp ∧
    Config.primeP ≤ pp.toNat ∧
    missing (.fft 2 0 1) (inE1 pm1) (.v 0) ∧ missing (.fft 2 0 1) (inV [pm1]) (.e 1) := 
  ⟨by decide +kernel, canonical_of (by decide +kernel), by decide +kernel, by decide +kernel, by decide +kernel,
    canonical_of (by decide +kernel), by decide +kernel, by decide +kernel, canonical_of (by decide +kernel),
    by decide +kernel, by decide +kernel, by decide +kernel, by decide +kernel, not_canonical_of (by decide),
    by decide +kernel⟩

/-- The clauses on the order of the root, for the roots the witness above holds in `e1`. -/
theorem witness_FftEvaluatesAtThePowersOfTheRoot_orders :
    (HasOrder w256.toNat (2 ^ 8) ∧ 2 ^ 8 ≤ (inVE (List.replicate 256 pm1) w256).nmax.toNat) ∧
    (HasOrder g5.toNat 5 ∧ 5 ≤ (inVE [pm1] g5).nmax.toNat ∧ ∀ k, 5 ≠ 2 ^ k) ∧
    (NoOrderUpTo w512.toNat (inVE [pm1] w512).nmax.toNat ∧ 1 ≤ (inVE [pm1] w512).nmax.toNat) :=
  ⟨⟨w256_order.1, w256_order.2.2⟩, ⟨g5_order.1, g5_order.2.2⟩, w512_no_order.1, w512_no_order.2.2⟩

theorem witness_IfftRecoversFromThePowersOfTheRoot :
    holdsVE (inVE (List.replicate 256 pm1) w256) (List.replicate 256 pm1) w256 ∧
    Canonical (List.replicate 256 pm1) ∧
    w256.toNat < Config.primeP ∧
    (List.replicate 256 pm1).length = 2 ^ 8 ∧
    holdsVE (inVE (List.replicate 257 pm1) w256) (List.replicate 257 pm1) w256 ∧
    Canonical (List.replicate 257 pm1) ∧
    (List.replicate 257 pm1).length ≠ 2 ^ 8 ∧ ([] : List Elem).length ≠ 2 ^ 8 ∧
    holdsVE (inVE [pm1] g5) [pm1] g5 ∧
    Canonical [pm1] ∧
    g5.toNat < Config.primeP ∧
    holdsVE (inVE [pm1] w512) [pm1] w512 ∧
    w512.toNat < Config.primeP ∧
    w512 ≠ 0#256 ∧
    holdsVE (inVE [pm1] 0) [pm1] 0 ∧
    holdsVE (inVE [1, pp] pm1) [1, pp] pm1 ∧
    NotCanonical [1, pp] ∧
    holdsVE (inVE [] pp) [] pp ∧
    Config.primeP ≤ pp.toNat ∧
    missing (.ifft 2 0 1) (inE1 pm1) (.v 0) ∧ missing (.ifft 2 0 1) (inV [pm1]) (.e 1) := 
  ⟨by decide +kernel, canonical_of (by decide +kernel), by decide +kernel, by decide +kernel, by decide +kernel,
    canonical_of (by decide +kernel), by decide +kernel, by decide +kernel, by decide +kernel,
    canonical_of (by decide +kernel), by decide +kernel, by decide +kernel, by decide +kernel, by decide +kernel,
    by decide +kernel, by decide +kernel, not_canonical_of (by decide), by decide +kernel⟩

/-- The clauses on the order of the root, for the roots the witness above holds in `e1`. -/
theorem witness_IfftRecoversFromThePowersOfTheRoot_orders :
    (HasOrder w256.toNat (2 ^ 8) ∧ 2 ^ 8 ≤ (inVE (List.replicate 256 pm1) w256).nmax.toNat) ∧
    (HasOrder g5.toNat 5 ∧ 5 ≤ (inVE [pm1] g5).nmax.toNat ∧ ∀ k, 5 ≠ 2 ^ k) ∧
    (NoOrderUpTo w512.toNat (inVE [pm1] w512).nmax.toNat ∧ 1 ≤ (inVE [pm1] w512).nmax.toNat) :=
  ⟨⟨w256_order.1, w256_order.2.2⟩, ⟨g5_order.1, g5_order.2.2⟩, w512_no_order.1, w512_no_order.2.2⟩

/-- The root of order 16 of 95_test_vectors.md section 0. -/
def w16 : Nat := 0x54ab10d4c59cabcf1a9ded7b59a9b7597f9ce131b4af9c065900cd6a75223012
/-- Its inverse. -/
def w16Inv : Nat := 0xaf5f53e912de3c3e1d3a54e0e4f373d7dfd85e6d7fee1da3941094bd51700b7f

/-- The first powers of an element. -/
def powers (g n : Nat) : List Nat := (List.range n).map fun j => g ^ j % Config.primeP

/-- The sequence of a success, nothing of a failure. -/
def sequenceOf : Except FailCode (List Nat) → Option (List Nat)
  | .ok t => some t
  | .error _ => none

/-- A result with a sequence is the success with that sequence. -/
theorem eq_ok {r : Except FailCode (List Nat)} {t : List Nat} (h : sequenceOf r = some t) : r = .ok t := by
  cases r with
  | error _ => cases h
  | ok _ => rw [Option.some.inj h]

/-- The tables of order 2 and of order 16, as ORDER discovers them. -/
theorem order_tables :
    fftOrder 256 pm1.toNat false = .ok (powers pm1.toNat 2) ∧ fftOrder 256 pm1.toNat true = .ok (powers pm1.toNat 2) ∧
      fftOrder 256 w16 false = .ok (powers w16 16) ∧ fftOrder 256 w16 true = .ok (powers w16Inv 16) :=
  ⟨eq_ok (by decide +kernel), eq_ok (by decide +kernel), eq_ok (by decide +kernel), eq_ok (by decide +kernel)⟩

/-- At order 2 the direct kernel alone runs; at order 16 the recursion goes two levels down, past size 4. -/
theorem witness_RadixTwoRecursionComputesTheTransformSum :
    (pm1.toNat < Config.primeP ∧ fftOrder 256 pm1.toNat false = .ok (powers pm1.toNat 2) ∧
      ([pm1.toNat, 0] : List Nat).length = (powers pm1.toNat 2).length ∧ ∀ x ∈ [pm1.toNat, 0], x < Config.primeP) ∧
    w16 < Config.primeP ∧ fftOrder 256 w16 false = .ok (powers w16 16) ∧ fftOrder 256 w16 true = .ok (powers w16Inv 16) ∧
      (List.replicate 16 pm1.toNat).length = (powers w16 16).length ∧
      (List.replicate 16 pm1.toNat).length = (powers w16Inv 16).length ∧ Config.directKernelMax < 16 ∧
      ∀ x ∈ List.replicate 16 pm1.toNat, x < Config.primeP :=
  ⟨⟨by decide +kernel, order_tables.1, by decide +kernel, by decide +kernel⟩, by decide +kernel, order_tables.2.2.1,
    order_tables.2.2.2, by decide +kernel, by decide +kernel, by decide, by decide +kernel⟩

theorem witness_TransformsRoundTrip :
    (pm1.toNat < Config.primeP ∧ fftOrder 256 pm1.toNat false = .ok (powers pm1.toNat 2) ∧
      fftOrder 256 pm1.toNat true = .ok (powers pm1.toNat 2) ∧
      ([pm1.toNat, 0] : List Nat).length = (powers pm1.toNat 2).length ∧ ∀ y ∈ [pm1.toNat, 0], y < Config.primeP) ∧
    w16 < Config.primeP ∧ fftOrder 256 w16 false = .ok (powers w16 16) ∧ fftOrder 256 w16 true = .ok (powers w16Inv 16) ∧
      (List.replicate 16 pm1.toNat).length = (powers w16 16).length ∧ ∀ y ∈ List.replicate 16 pm1.toNat, y < Config.primeP :=
  ⟨⟨by decide +kernel, order_tables.1, order_tables.2.1, by decide +kernel, by decide +kernel⟩, by decide +kernel,
    order_tables.2.2.1, order_tables.2.2.2, by decide +kernel, by decide +kernel⟩

/-- A state with this many valid bytes and this capacity. -/
def sized (bfill vcap : Csr) : State := { base with bfill := bfill, vcap := vcap }

theorem witness_PfrombLoadsABigEndianNumber :
    30 + 0 ≤ (sized 30 257).bfill.toNat ∧
    28 + 2 ≤ (sized 30 257).bfill.toNat ∧
    (sized 30 257).bfill.toNat < 29 + 2 ∧
    (sized 30 257).bfill.toNat < 31 + 0 ∧
    opField 0x5014000000000002 = 0x50#8 ∧
    widthField 0x5014000000000002 ≠ 0#2 := by decide +kernel

theorem witness_PloadvLoadsPaddedChunks :
    2040 + 2056 ≤ (sized 4096 257).bfill.toNat ∧
    (2056 + 8 - 1) / 8 ≤ (sized 4096 257).vcap.toNat ∧
    0 + 4096 ≤ (sized 4096 133).bfill.toNat ∧
    (4096 + 31 - 1) / 31 ≤ (sized 4096 133).vcap.toNat ∧
    (4096 + 32 - 1) / 32 ≤ (sized 4096 128).vcap.toNat ∧
    (sized 4096 257).bfill.toNat < 1 + 4096 ∧
    (sized 4096 257).vcap.toNat < (2057 + 8 - 1) / 8 ∧
    (sized 4096 132).vcap.toNat < (4096 + 31 - 1) / 31 ∧
    (sized 4096 127).vcap.toNat < (4096 + 32 - 1) / 32 := by decide +kernel

theorem witness_MissingSourceFailsWithInvalid :
    missing (.padd 2 0 1) (inE 5) (.e 1) ∧
      ∃ t, exec (.padd 2 0 1) (inE 5) = .next t ∧ t.status = 7#64 :=
  ⟨by decide +kernel, _, eq_next (s := base) (by decide +kernel), by decide +kernel⟩

theorem witness_CommandsRaiseOnlyTheirListedFailures :
    ∃ t, exec (.pinv 2 0) (inE 0) = .next t ∧ statusCode t.status ≠ 0 :=
  ⟨_, eq_next (s := base) (by decide +kernel), by decide +kernel⟩

theorem witness_PrimeResultsAreCanonical :
    (∃ t, givesPrimeResult (.padd 2 0 1) = true ∧ exec (.padd 2 0 1) (inEE pm1 pm1) = .next t ∧
      (t.contents (destination (.padd 2 0 1))).1 = some (pm1 - 1)) ∧
    ∃ t, givesPrimeResult (.pvanish 2 0) = true ∧ exec (.pvanish 2 0) (inV [1]) = .next t ∧
      (t.contents (destination (.pvanish 2 0))).2 = some [pm1, 1] :=
  ⟨⟨_, rfl, eq_next (s := base) (by decide +kernel), by decide +kernel⟩,
    _, rfl, eq_next (s := base) (by decide +kernel), by decide +kernel⟩

/-- A load of byte 1 from two buffers of one length that differ in byte 0 only. -/
theorem witness_OutcomeDependsOnlyOnWhatTheCommandNames_load :
    (inBuf [1, 7]).nmax = (inBuf [2, 7]).nmax ∧ (inBuf [1, 7]).vcap = (inBuf [2, 7]).vcap ∧
      readsBuffer (.pfromb 1 1 1) = true ∧ (inBuf [1, 7]).bfill = (inBuf [2, 7]).bfill ∧
      (∀ r ∈ sources (.pfromb 1 1 1), (inBuf [1, 7]).contents r = (inBuf [2, 7]).contents r) ∧
      (∀ a, a < (inBuf [1, 7]).bfill.toNat → namesByte a (.pfromb 1 1 1) →
        Memory.read (inBuf [1, 7]).buf a = Memory.read (inBuf [2, 7]).buf a) ∧ inBuf [1, 7] ≠ inBuf [2, 7] := by
  refine ⟨rfl, rfl, rfl, rfl, fun r hr => (by cases hr), fun a _ ha => ?_, by decide +kernel⟩
  obtain rfl : a = 1 := by have := ha.1; have := ha.2; omega
  decide +kernel

/-- A command without a buffer operand, in two states whose `BFILL` and bytes differ. -/
theorem witness_OutcomeDependsOnlyOnWhatTheCommandNames_registers :
    (inBuf [1]).nmax = (inBuf [2, 7]).nmax ∧ (inBuf [1]).vcap = (inBuf [2, 7]).vcap ∧
      readsBuffer (.padd 2 0 1) = false ∧ (inBuf [1]).bfill ≠ (inBuf [2, 7]).bfill ∧
      (∀ r ∈ sources (.padd 2 0 1), (inBuf [1]).contents r = (inBuf [2, 7]).contents r) ∧
      ∀ a, ¬ namesByte a (.padd 2 0 1) :=
  ⟨rfl, rfl, rfl, by decide +kernel, by decide +kernel, fun _ h => h⟩

theorem witness_ZskipFlagsExactlyTheSkippedZeros :
    ∃ t, exec (.pbinv 2 0) (inV [0]) = .next t ∧ statusZskip t.status = true ∧
      (inV [0]).v[(0 : VReg)] = some [0] ∧ Canonical [0] ∧ 0#256 ∈ ([0] : List Elem) :=
  ⟨_, eq_next (s := base) (by decide +kernel), by decide +kernel, by decide +kernel, canonical_of (by decide), by decide⟩

theorem witness_ErrsumIsSticky :
    (∃ t, step (awaiting [.hClearErr 0x100] { base with errsum := 0x102#64 }) = .next t ∧
      ({ base with errsum := 0x102#64 } : State).errsum.getLsbD 1 = true) ∧
    (∃ t, step (awaiting [.hIssue 0] base) = .next t ∧ base.errsum.getLsbD 8 = false ∧ t.errsum.getLsbD 8 = true) ∧
    ∃ t, step (awaiting [.hIssue 0x3320100000000000] (inVV [] [1])) = .next t ∧
      (inVV [] [1]).errsum.getLsbD 1 = false ∧ t.errsum.getLsbD 1 = true :=
  ⟨⟨_, eq_next (s := base) (by decide +kernel), by decide⟩, ⟨_, eq_next (s := base) (by decide +kernel), by decide +kernel⟩,
    _, eq_next (s := base) (by decide +kernel), by decide +kernel⟩

theorem witness_ParametersAreReadOnly : ∃ t, step busy = .next t :=
  ⟨_, eq_next (s := busy) (by decide +kernel)⟩

theorem witness_HostWritesAndReadsElementRegisters :
    (2 ^ 256 - 1 < 2 ^ 256 ∧ (awaiting [.hWriteE 15 (2 ^ 256 - 1)] base).pending = [.hWriteE 15 (2 ^ 256 - 1)]) ∧
    (awaiting [.hReadE 0] (inE pp)).pending = [.hReadE 0] ∧ (inE pp).e[(0 : EReg)] = some pp ∧
    (awaiting [.hReadE 15] base).pending = [.hReadE 15] ∧ base.e[(15 : EReg)] = none := by decide +kernel

theorem witness_HostWritesAndReadsVectorRegisters :
    ((List.replicate 257 (2 ^ 256 - 1)).length ≤ base.vcap.toNat ∧ (∀ x ∈ List.replicate 257 (2 ^ 256 - 1), x < 2 ^ 256) ∧
      (awaiting [.hWriteV 7 (List.replicate 257 (2 ^ 256 - 1))] base).pending =
        [.hWriteV 7 (List.replicate 257 (2 ^ 256 - 1))]) ∧
    (awaiting [.hReadV 0] (inV [])).pending = [.hReadV 0] ∧ (inV []).v[(0 : VReg)] = some [] ∧
    (awaiting [.hReadV 7] base).pending = [.hReadV 7] ∧ base.v[(7 : VReg)] = none := by decide +kernel

theorem witness_LoadBufReplacesTheByteStream :
    Memory.wf base.buf ∧ (List.replicate 4096 1#8).length ≤ base.bcap.toNat ∧
      (awaiting [.hLoadBuf (List.replicate 4096 1#8)] base).pending = [.hLoadBuf (List.replicate 4096 1#8)] :=
  ⟨Memory.wf_nil, by rw [List.length_replicate]; decide, rfl⟩

theorem witness_CsrReadsReturnTheRegistersAndViews :
    (inV [1, 2]).v[(0 : VReg)] = some [1, 2] ∧ (inV [1, 2]).v[(7 : VReg)] = none ∧
      (inV [1, 2]).csr 0x10 = some 2#257 ∧ (awaiting [.hReadCsr 0x10] (inV [1, 2])).pending = [.hReadCsr 0x10] := by
  decide +kernel

theorem witness_ClearErrClearsTheMaskedBits :
    (awaiting [.hClearErr 0xffffffffffffffff] { base with errsum := errsumBits }).pending =
      [.hClearErr 0xffffffffffffffff] := rfl

theorem witness_OutOfRangeTransactionsChangeNothing :
    outOfRange base (.hWriteE 16 0) ∧ outOfRange base (.hWriteE 0 (2 ^ 256)) ∧ outOfRange base (.hReadE 16) ∧
      outOfRange base (.hWriteV 8 []) ∧ outOfRange base (.hWriteV 0 (List.replicate 258 0)) ∧
      outOfRange base (.hWriteV 0 [2 ^ 256]) ∧ outOfRange base (.hReadV 8) ∧
      outOfRange base (.hLoadBuf (List.replicate 4097 0#8)) ∧ outOfRange base (.hReadCsr 0x0a) ∧
      outOfRange base (.hReadCsr 0x0f) ∧ outOfRange base (.hReadCsr 0x18) ∧
      (awaiting [.hReadCsr 0x18] base).pending = [.hReadCsr 0x18] := by
  refine ⟨.inl (by decide), .inr (by decide), ?_, .inl (by decide), .inr (.inl ?_), .inr (.inr ⟨_, List.mem_singleton_self _, ?_⟩),
    ?_, ?_, .inl (by decide), .inl (by decide), .inr (by decide), rfl⟩
  · exact (by decide : 16 ≤ 16)
  · rw [List.length_replicate]; decide
  · exact Nat.le_refl _
  · exact (by decide : 8 ≤ 8)
  · show _ < (List.replicate 4097 0#8).length
    rw [List.length_replicate]; decide

theorem witness_ResetLeavesTheResetState : (awaiting [.reset, .hReadE 0] busy).pending = .reset :: [.hReadE 0] := rfl


end Sys2Proof.Tests
end

/-! O3: the decoder accepts exactly the words of the opcode map (30_encoding.md R76). The mask of a row is a mask on each
field, a field passes its mask exactly if the operand decoder of its class accepts it, and a row is read by the decoder of
its operand shape. -/

namespace Sys2Proof.Proofs

open Sys2Proof Sys2Proof.Machine

/-! ### A match of a row is a match of each field -/

/-- Two concatenations of the same widths are equal exactly if their parts are. -/
theorem append_eq_append_iff {m n : Nat} (a b : BitVec m) (c d : BitVec n) : a ++ c = b ++ d ↔ a = b ∧ c = d := by
  constructor
  · intro h
    have high := congrArg (BitVec.extractLsb' n m) h
    have low := congrArg (BitVec.extractLsb' 0 n) h
    simp only [BitVec.extractLsb'_append_eq_left, BitVec.extractLsb'_append_eq_right] at high low
    exact ⟨high, low⟩
  · rintro ⟨rfl, rfl⟩
    rfl

/-- Six concatenated fields match under a mask exactly if each field does. -/
theorem append_and_append_eq_append_iff {n₁ n₂ n₃ n₄ n₅ n₆ : Nat} (f₁ m₁ p₁ : BitVec n₁) (f₂ m₂ p₂ : BitVec n₂)
    (f₃ m₃ p₃ : BitVec n₃) (f₄ m₄ p₄ : BitVec n₄) (f₅ m₅ p₅ : BitVec n₅) (f₆ m₆ p₆ : BitVec n₆) :
    (f₁ ++ f₂ ++ f₃ ++ f₄ ++ f₅ ++ f₆) &&& (m₁ ++ m₂ ++ m₃ ++ m₄ ++ m₅ ++ m₆) = p₁ ++ p₂ ++ p₃ ++ p₄ ++ p₅ ++ p₆ ↔
      f₁ &&& m₁ = p₁ ∧ f₂ &&& m₂ = p₂ ∧ f₃ &&& m₃ = p₃ ∧ f₄ &&& m₄ = p₄ ∧ f₅ &&& m₅ = p₅ ∧ f₆ &&& m₆ = p₆ := by
  simp only [BitVec.and_append, append_eq_append_iff, and_assoc]

/-- A word is the concatenation of six adjacent fields that cover it. -/
theorem append_extractLsb'_eq_self (n₁ n₂ n₃ n₄ n₅ n₆ : Nat) (w : BitVec (n₁ + n₂ + n₃ + n₄ + n₅ + n₆)) :
    w.extractLsb' (n₆ + n₅ + n₄ + n₃ + n₂) n₁ ++ w.extractLsb' (n₆ + n₅ + n₄ + n₃) n₂ ++ w.extractLsb' (n₆ + n₅ + n₄) n₃ ++
      w.extractLsb' (n₆ + n₅) n₄ ++ w.extractLsb' n₆ n₅ ++ w.extractLsb' 0 n₆ = w := by
  simp only [BitVec.extractLsb'_append_extractLsb'_eq_extractLsb', Nat.zero_add, BitVec.extractLsb'_eq_self]

/-- An R-format word is made of its fields (R71). -/
theorem append_rFields (w : CommandWord) :
    opField w ++ rdField w ++ raField w ++ rbField w ++ flField w ++ restField w = w :=
  append_extractLsb'_eq_self 8 4 4 4 4 40 w

/-- An L-format word is made of its fields (R72). -/
theorem append_lFields (w : CommandWord) :
    opField w ++ rdField w ++ widthField w ++ padField w ++ offField w ++ lenField w = w :=
  append_extractLsb'_eq_self 8 4 2 2 24 24 w

/-- The R-format mask with the given masks on the operand fields: it fixes the opcode and bits 39:0. -/
def rMask (rd ra rb fl : BitVec 4) : CommandWord :=
  BitVec.allOnes 8 ++ rd ++ ra ++ rb ++ fl ++ BitVec.allOnes 40

/-- The L-format mask with the given masks on `rd` and `w`: it fixes the opcode and bits 49:48 and leaves `off`
and `len` free. -/
def lMask (rd : BitVec 4) (width : BitVec 2) : CommandWord :=
  BitVec.allOnes 8 ++ rd ++ width ++ BitVec.allOnes 2 ++ 0#24 ++ 0#24

theorem and_rMask_eq_encodeR (w : CommandWord) (op : BitVec 8) (rd ra rb fl : BitVec 4) :
    w &&& rMask rd ra rb fl = encodeR op 0 0 0 0 ↔
      opField w = op ∧ rdField w &&& rd = 0 ∧ raField w &&& ra = 0 ∧ rbField w &&& rb = 0 ∧ flField w &&& fl = 0 ∧
        restField w = 0 := by
  conv_lhs => rw [← append_rFields w]
  refine (append_and_append_eq_append_iff ..).trans ?_
  simp only [BitVec.and_allOnes, BitVec.ofNat_eq_ofNat]

theorem and_lMask_eq_encodeL (w : CommandWord) (op : BitVec 8) (rd : BitVec 4) (width : BitVec 2) :
    w &&& lMask rd width = encodeL op 0 0 0 0 ↔
      opField w = op ∧ rdField w &&& rd = 0 ∧ widthField w &&& width = 0 ∧ padField w = 0 := by
  conv_lhs => rw [← append_lFields w]
  refine (append_and_append_eq_append_iff ..).trans ?_
  simp only [BitVec.and_allOnes, BitVec.and_zero, BitVec.ofNat_eq_ofNat, and_true]

/-! ### A field passes its mask exactly if its operand decoder accepts it (R73 to R75) -/

/-- A sequence of decoders gives what the last one gives after each before it succeeded. -/
theorem illegal_bind_ok {α β : Type} (r : Except Illegal α) (f : α → Except Illegal β) (b : β) :
    (r >>= f) = .ok b ↔ ∃ a, r = .ok a ∧ f a = .ok b := by
  cases r <;> simp [bind, Except.bind]

/-- A sequence of decoders accepts exactly if each of them does. -/
theorem illegal_bind_accepts {α β : Type} (r : Except Illegal α) (f : α → Except Illegal β) :
    (∃ b, (r >>= f) = .ok b) ↔ ∃ a, r = .ok a ∧ ∃ b, f a = .ok b := by
  cases r <;> simp [bind, Except.bind]

/-- Class `v` fixes bit 3. -/
@[simp] theorem decodeVReg_accepts (f : BitVec 4) : (∃ r, decodeVReg f = .ok r) ↔ f &&& 8 = 0 := by
  revert f; decide

/-- Class `-` fixes the whole field. -/
@[simp] theorem decodeUnused_ok (f : BitVec 4) (u : Unit) : decodeUnused f = .ok u ↔ f &&& 15 = 0 := by
  decide +revert

@[simp] theorem decodeNoFlags_ok (f : BitVec 4) (u : Unit) : decodeNoFlags f = .ok u ↔ f &&& 15 = 0 := by
  decide +revert

/-- The flags of `ORDER` leave bit 0 free. -/
@[simp] theorem decodeInverseFlag_accepts (f : BitVec 4) : (∃ i, decodeInverseFlag f = .ok i) ↔ f &&& 14 = 0 := by
  revert f; decide

@[simp] theorem decodeRest_ok (f : BitVec 40) (u : Unit) : decodeRest f = .ok u ↔ f = 0 := by
  simp [decodeRest]

@[simp] theorem decodePad_ok (f : BitVec 2) (u : Unit) : decodePad f = .ok u ↔ f = 0 := by
  simp [decodePad]

/-- The chunk width is not fixed by the mask; only 3 is excluded. -/
@[simp] theorem decodeWidth_accepts (f : BitVec 2) : (∃ c, decodeWidth f = .ok c) ↔ f ≠ 3#2 := by
  have cases : f = 0#2 ∨ f = 1#2 ∨ f = 2#2 ∨ f = 3#2 := by decide +revert
  rcases cases with rfl | rfl | rfl | rfl <;> simp [decodeWidth]

@[simp] theorem decodeNoWidth_ok (f : BitVec 2) (u : Unit) : decodeNoWidth f = .ok u ↔ f &&& 3 = 0 := by
  decide +revert

/-! ### Each operand shape reads the words of its mask -/

/-- The R-format row of an opcode with the given masks on the operand fields. -/
def rRow (op : BitVec 8) (rd ra rb fl : BitVec 4) : OpcodeRow := ⟨op.toNat, encodeR op 0 0 0 0, rMask rd ra rb fl⟩

/-- The L-format row of an opcode with the given masks on `rd` and `w`. -/
def lRow (op : BitVec 8) (rd : BitVec 4) (width : BitVec 2) : OpcodeRow := ⟨op.toNat, encodeL op 0 0 0 0, lMask rd width⟩

theorem rRow_accepts {op : BitVec 8} (hop : op ≠ 0x51) (rd ra rb fl : BitVec 4) (w : CommandWord) :
    (rRow op rd ra rb fl).accepts w ↔ (opField w).toNat = op.toNat ∧ rdField w &&& rd = 0 ∧ raField w &&& ra = 0 ∧
      rbField w &&& rb = 0 ∧ flField w &&& fl = 0 ∧ restField w = 0 := by
  have noLoad : op.toNat ≠ 0x51 := fun h => hop (BitVec.eq_of_toNat_eq h)
  rw [BitVec.toNat_inj, ← and_rMask_eq_encodeR]
  exact and_iff_left fun h => absurd h noLoad

theorem lRow_accepts (op : BitVec 8) (rd : BitVec 4) (width : BitVec 2) (w : CommandWord) :
    (lRow op rd width).accepts w ↔ (opField w).toNat = op.toNat ∧ rdField w &&& rd = 0 ∧ widthField w &&& width = 0 ∧
      padField w = 0 ∧ (op.toNat = 0x51 → widthField w ≠ 3#2) := by
  have fields := and_lMask_eq_encodeL w op rd width
  rw [← BitVec.toNat_inj (x := opField w)] at fields
  simp only [OpcodeRow.accepts, lRow, fields, widthField, and_assoc]

/-- The decoder `d` is the meaning of the row: it gives commands of the row only, and the row accepts exactly the words
with the row's opcode that `d` decodes. -/
structure ReadsRow (d : CommandWord → Except Illegal Instr) (r : OpcodeRow) : Prop where
  opcode : ∀ w i, d w = .ok i → opcodeOf i = r.op
  accepts : ∀ w, r.accepts w ↔ (opField w).toNat = r.op ∧ ∃ i, d w = .ok i

/-- Shape `e e e`. -/
theorem decodeEEE_readsRow (op : BitVec 8) (mk : EReg → EReg → EReg → Instr) (hop : op ≠ 0x51 := by decide)
    (hmk : ∀ rd ra rb, opcodeOf (mk rd ra rb) = op.toNat := by intros; rfl) :
    ReadsRow (decodeEEE · mk) (rRow op 0 0 0 15) where
  opcode w i h := by
    simp only [decodeEEE, illegal_bind_ok, Except.ok.injEq] at h
    obtain ⟨_, _, _, _, rfl⟩ := h
    exact hmk _ _ _
  accepts w := by
    rw [rRow_accepts hop]
    simp [rRow, decodeEEE, illegal_bind_accepts]

/-- Shape `e e -`. -/
theorem decodeEE_readsRow (op : BitVec 8) (mk : EReg → EReg → Instr) (hop : op ≠ 0x51 := by decide)
    (hmk : ∀ rd ra, opcodeOf (mk rd ra) = op.toNat := by intros; rfl) :
    ReadsRow (decodeEE · mk) (rRow op 0 0 15 15) where
  opcode w i h := by
    simp only [decodeEE, illegal_bind_ok, Except.ok.injEq] at h
    obtain ⟨_, _, _, _, _, _, rfl⟩ := h
    exact hmk _ _
  accepts w := by
    rw [rRow_accepts hop]
    simp [rRow, decodeEE, illegal_bind_accepts]

/-- Shape `v v -`. -/
theorem decodeVV_readsRow (op : BitVec 8) (mk : VReg → VReg → Instr) (hop : op ≠ 0x51 := by decide)
    (hmk : ∀ rd ra, opcodeOf (mk rd ra) = op.toNat := by intros; rfl) :
    ReadsRow (decodeVV · mk) (rRow op 8 8 15 15) where
  opcode w i h := by
    simp only [decodeVV, illegal_bind_ok, Except.ok.injEq] at h
    obtain ⟨_, _, _, _, _, _, _, _, _, _, rfl⟩ := h
    exact hmk _ _
  accepts w := by
    rw [rRow_accepts hop]
    simp [rRow, decodeVV, illegal_bind_accepts]

/-- Shape `v v v`. -/
theorem decodeVVV_readsRow (op : BitVec 8) (mk : VReg → VReg → VReg → Instr) (hop : op ≠ 0x51 := by decide)
    (hmk : ∀ rd ra rb, opcodeOf (mk rd ra rb) = op.toNat := by intros; rfl) :
    ReadsRow (decodeVVV · mk) (rRow op 8 8 8 15) where
  opcode w i h := by
    simp only [decodeVVV, illegal_bind_ok, Except.ok.injEq] at h
    obtain ⟨_, _, _, _, _, _, _, _, _, _, rfl⟩ := h
    exact hmk _ _ _
  accepts w := by
    rw [rRow_accepts hop]
    simp [rRow, decodeVVV, illegal_bind_accepts]

/-- Shape `e v e`. -/
theorem decodeEVE_readsRow (op : BitVec 8) (mk : EReg → VReg → EReg → Instr) (hop : op ≠ 0x51 := by decide)
    (hmk : ∀ rd ra rb, opcodeOf (mk rd ra rb) = op.toNat := by intros; rfl) :
    ReadsRow (decodeEVE · mk) (rRow op 0 8 0 15) where
  opcode w i h := by
    simp only [decodeEVE, illegal_bind_ok, Except.ok.injEq] at h
    obtain ⟨_, _, _, _, _, _, rfl⟩ := h
    exact hmk _ _ _
  accepts w := by
    rw [rRow_accepts hop]
    simp [rRow, decodeEVE, illegal_bind_accepts]

/-- Shape `v v e`. -/
theorem decodeVVE_readsRow (op : BitVec 8) (mk : VReg → VReg → EReg → Instr) (hop : op ≠ 0x51 := by decide)
    (hmk : ∀ rd ra rb, opcodeOf (mk rd ra rb) = op.toNat := by intros; rfl) :
    ReadsRow (decodeVVE · mk) (rRow op 8 8 0 15) where
  opcode w i h := by
    simp only [decodeVVE, illegal_bind_ok, Except.ok.injEq] at h
    obtain ⟨_, _, _, _, _, _, _, _, rfl⟩ := h
    exact hmk _ _ _
  accepts w := by
    rw [rRow_accepts hop]
    simp [rRow, decodeVVE, illegal_bind_accepts]

/-- `ORDER`. -/
theorem decodeOrder_readsRow : ReadsRow decodeOrder (rRow 0x40 8 0 15 14) where
  opcode w i h := by
    simp only [decodeOrder, illegal_bind_ok, Except.ok.injEq] at h
    obtain ⟨_, _, _, _, _, _, _, _, rfl⟩ := h
    rfl
  accepts w := by
    rw [rRow_accepts (by decide)]
    simp [rRow, decodeOrder, illegal_bind_accepts, -Bool.exists_bool]

/-- `PFROMB`. -/
theorem decodeFromb_readsRow : ReadsRow decodeFromb (lRow 0x50 0 3) where
  opcode w i h := by
    simp only [decodeFromb, illegal_bind_ok, Except.ok.injEq] at h
    obtain ⟨_, _, _, _, rfl⟩ := h
    rfl
  accepts w := by
    rw [lRow_accepts]
    simp [lRow, decodeFromb, illegal_bind_accepts]

/-- `PLOADV`, the one row with a condition beside its mask. -/
theorem decodeLoadv_readsRow : ReadsRow decodeLoadv (lRow 0x51 8 0) where
  opcode w i h := by
    simp only [decodeLoadv, illegal_bind_ok, Except.ok.injEq] at h
    obtain ⟨_, _, _, _, _, _, rfl⟩ := h
    rfl
  accepts w := by
    rw [lRow_accepts]
    simp [lRow, decodeLoadv, illegal_bind_accepts, and_comm]

/-! ### The table -/

/-- Each row of the opcode map is read by the decoder of its shape, which `decode` runs on the words with the row's
opcode. -/
theorem decode_readsRow : ∀ r ∈ opcodeRows, ∃ d, ReadsRow d r ∧ ∀ w, (opField w).toNat = r.op → decode w = d w := by
  simp only [opcodeRows, List.forall_mem_cons, List.not_mem_nil, false_implies, implies_true, and_true]
  refine ⟨⟨_, decodeEEE_readsRow 0x10 .padd, ?_⟩, ⟨_, decodeEEE_readsRow 0x11 .psub, ?_⟩,
    ⟨_, decodeEEE_readsRow 0x12 .pmul, ?_⟩, ⟨_, decodeEEE_readsRow 0x13 .pexp, ?_⟩,
    ⟨_, decodeEE_readsRow 0x14 .pinv, ?_⟩, ⟨_, decodeEE_readsRow 0x15 .pinve, ?_⟩,
    ⟨_, decodeVV_readsRow 0x16 .pbinv, ?_⟩, ⟨_, decodeEEE_readsRow 0x20 .badd, ?_⟩,
    ⟨_, decodeEEE_readsRow 0x21 .bsub, ?_⟩, ⟨_, decodeEEE_readsRow 0x22 .bmul, ?_⟩,
    ⟨_, decodeEEE_readsRow 0x23 .bexp, ?_⟩, ⟨_, decodeEE_readsRow 0x24 .binv, ?_⟩,
    ⟨_, decodeEE_readsRow 0x25 .binve, ?_⟩, ⟨_, decodeEEE_readsRow 0x26 .bdiv, ?_⟩,
    ⟨_, decodeEVE_readsRow 0x30 .peval, ?_⟩, ⟨_, decodeVV_readsRow 0x31 .pvanish, ?_⟩,
    ⟨_, decodeVVV_readsRow 0x32 .ppmul, ?_⟩, ⟨_, decodeVVV_readsRow 0x33 .ppdiv, ?_⟩,
    ⟨_, decodeVVV_readsRow 0x34 .pprem, ?_⟩, ⟨_, decodeVVV_readsRow 0x35 .plag, ?_⟩,
    ⟨_, decodeVVV_readsRow 0x36 .plag4, ?_⟩, ⟨_, decodeOrder_readsRow, ?_⟩, ⟨_, decodeVVE_readsRow 0x41 .fft, ?_⟩,
    ⟨_, decodeVVE_readsRow 0x42 .ifft, ?_⟩, ⟨_, decodeFromb_readsRow, ?_⟩, ⟨_, decodeLoadv_readsRow, ?_⟩⟩
  all_goals
    intro w h
    simp only [decode, h]

/-- A word that decodes has the opcode of a row. -/
theorem opField_mem_of_decode_ok {w : CommandWord} {i : Instr} (h : decode w = .ok i) :
    ∃ r ∈ opcodeRows, (opField w).toNat = r.op := by
  by_contra noRow
  simp only [opcodeRows, List.exists_mem_cons_iff, List.not_mem_nil, false_and, exists_false, or_false, not_or] at noRow
  simp [decode, noRow] at h

/-- A decoded command has the opcode of its word, which is that of a row. -/
theorem opcodeOf_of_decode_ok {w : CommandWord} {i : Instr} (h : decode w = .ok i) :
    opcodeOf i = (opField w).toNat ∧ ∃ r ∈ opcodeRows, r.op = opcodeOf i := by
  obtain ⟨r, hr, hop⟩ := opField_mem_of_decode_ok h
  obtain ⟨d, reads, runs⟩ := decode_readsRow r hr
  have opcode : opcodeOf i = r.op := reads.opcode w i (runs w hop ▸ h)
  exact ⟨opcode.trans hop.symm, r, hr, opcode.symm⟩

/-- Settles O3: the row with the opcode of the word is the only one that can match it, and it accepts what its decoder
does. -/
theorem decoderAcceptsExactlyTheOpcodeMap : Obligations.DecoderAcceptsExactlyTheOpcodeMap := by
  refine ⟨fun r hr w => ?_, fun w i h => (opcodeOf_of_decode_ok h).2⟩
  obtain ⟨d, reads, runs⟩ := decode_readsRow r hr
  rw [reads.accepts]
  constructor
  · rintro ⟨i, decoded, opcode⟩
    have hop : (opField w).toNat = r.op := (opcodeOf_of_decode_ok decoded).1.symm.trans opcode
    exact ⟨hop, i, runs w hop ▸ decoded⟩
  · rintro ⟨hop, i, decoded⟩
    exact ⟨i, (runs w hop).trans decoded, reads.opcode w i decoded⟩

end Sys2Proof.Proofs

/-! Prime-field arithmetic (40_prime_field.md R101, R102): each operation is the residue of the exact integer result. The
powers go through the image in `ZMod P`; the inverse is Fermat's. -/

namespace Sys2Proof.Proofs

open Sys2Proof Sys2Proof.Machine

/-! ### Sums, differences, products -/

theorem pfAdd_eq_mod {x y : Nat} (hx : x < Config.primeP) (hy : y < Config.primeP) :
    pfAdd x y = (x + y) % Config.primeP := by
  simp only [pfAdd]
  split
  case isTrue reduces => rw [Nat.mod_eq_sub_mod reduces, Nat.mod_eq_of_lt (by omega)]
  case isFalse fits => rw [Nat.mod_eq_of_lt (by omega)]

/-- The difference as a residue of a natural number: `P - y` stands for the negative of `y`. -/
theorem pfSub_eq_mod {x y : Nat} (hx : x < Config.primeP) (hy : y < Config.primeP) :
    pfSub x y = (x + (Config.primeP - y)) % Config.primeP := by
  unfold pfSub
  split
  case isTrue le =>
    have wraps : x + (Config.primeP - y) = x - y + Config.primeP := by omega
    rw [wraps, Nat.add_mod_right, Nat.mod_eq_of_lt (by omega)]
  case isFalse lt => rw [Nat.mod_eq_of_lt (by omega)]; omega

/-- The difference as a residue of the integer difference. -/
theorem pfSub_eq_emod {x y : Nat} (hx : x < Config.primeP) (hy : y < Config.primeP) :
    (pfSub x y : Int) = ((x : Int) - y) % Config.primeP := by
  have shift : (x : Int) + (Config.primeP - y) = x - y + Config.primeP := by ring
  rw [pfSub_eq_mod hx hy, Int.natCast_emod, Nat.cast_add, Nat.cast_sub hy.le, shift, Int.add_emod_right]

theorem primeP_pos : 0 < Config.primeP := primeP_prime.pos

theorem pfAdd_lt {x y : Nat} (hx : x < Config.primeP) (hy : y < Config.primeP) : pfAdd x y < Config.primeP :=
  pfAdd_eq_mod hx hy ▸ Nat.mod_lt _ primeP_pos

theorem pfSub_lt {x y : Nat} (hx : x < Config.primeP) (hy : y < Config.primeP) : pfSub x y < Config.primeP :=
  pfSub_eq_mod hx hy ▸ Nat.mod_lt _ primeP_pos

theorem pfMul_lt (x y : Nat) : pfMul x y < Config.primeP := Nat.mod_lt _ primeP_pos

theorem pfAdd_comm (x y : Nat) : pfAdd x y = pfAdd y x := by
  simp only [pfAdd, Nat.add_comm]

/-- Subtraction undoes addition. -/
theorem pfSub_pfAdd_cancel {x y : Nat} (hx : x < Config.primeP) (hy : y < Config.primeP) : pfSub (pfAdd x y) y = x := by
  have undone : x + y + (Config.primeP - y) = x + Config.primeP := by omega
  rw [pfSub_eq_mod (pfAdd_lt hx hy) hy, pfAdd_eq_mod hx hy, Nat.mod_add_mod, undone, Nat.add_mod_right,
    Nat.mod_eq_of_lt hx]

/-! ### Powers and inverses -/

/-- Square and multiply stays among the values the multiplication gives, once the accumulator is one of them. -/
theorem squareAndMultiplyLoop_closed {α : Type} {mul : α → α → α} {good : α → Prop} (hmul : ∀ a b, good (mul a b)) (x : α)
    (e k : Nat) (r : α) (hr : good r) : good (squareAndMultiplyLoop mul x e k r) := by
  induction k generalizing r with
  | zero => exact hr
  | succ k ih =>
    refine ih _ ?_
    split <;> exact hmul _ _

theorem pfExp_lt (x e : Nat) : pfExp x e < Config.primeP :=
  squareAndMultiplyLoop_closed (good := (· < Config.primeP)) pfMul_lt x e _ 1 primeP_prime.one_lt

/-- `pf.mul` is the product in `ZMod P`. -/
theorem natCast_pfMul (x y : Nat) : (pfMul x y : ZMod Config.primeP) = x * y := by
  rw [pfMul, ZMod.natCast_mod, Nat.cast_mul]

/-- `pf.exp` is the residue of the power, for every base and exponent. -/
theorem pfExp_eq_mod (x e : Nat) : pfExp x e = x ^ e % Config.primeP := by
  have power : (pfExp x e : ZMod Config.primeP) = x ^ e :=
    squareAndMultiply_eq (fun n : Nat => (n : ZMod Config.primeP)) pfMul natCast_pfMul 1 x Nat.cast_one e
  rw [← Nat.cast_pow, ZMod.natCast_eq_natCast_iff', Nat.mod_eq_of_lt (pfExp_lt x e)] at power
  exact power

/-- Fermat's little theorem for the non-zero canonical elements. -/
theorem pow_primeP_sub_one_mod {x : Nat} (hx : x < Config.primeP) (hne : x ≠ 0) :
    x ^ (Config.primeP - 1) % Config.primeP = 1 := by
  have coprime : x.Coprime Config.primeP := (Nat.coprime_of_lt_prime hne hx primeP_prime).symm
  have fermat := Nat.ModEq.pow_totient coprime
  rw [Nat.totient_prime primeP_prime, Nat.ModEq, Nat.mod_eq_of_lt primeP_prime.one_lt] at fermat
  exact fermat

theorem pfInv_of_ne_zero {x : Nat} (hne : x ≠ 0) : pfInv x = .ok (pfInvNonzero x) := if_neg hne

theorem pfInvNonzero_eq_mod (x : Nat) : pfInvNonzero x = x ^ (Config.primeP - 2) % Config.primeP := pfExp_eq_mod x _

/-- The Fermat inverse is an inverse. -/
theorem pfMul_pfInvNonzero {x : Nat} (hx : x < Config.primeP) (hne : x ≠ 0) : pfMul x (pfInvNonzero x) = 1 := by
  have two_le : 2 ≤ Config.primeP := primeP_prime.two_le
  have exponent : Config.primeP - 2 + 1 = Config.primeP - 1 := by omega
  rw [pfMul, pfInvNonzero_eq_mod, Nat.mul_mod_mod, ← pow_succ', exponent, pow_primeP_sub_one_mod hx hne]

/-- Without zeros the batch inverse is the inverse of each element. -/
theorem map_pfInv_eq_pfBatchInv {xs : List Nat} (hne : ∀ x ∈ xs, x ≠ 0) : xs.map pfInv = (pfBatchInv xs).map .ok := by
  rw [pfBatchInv, List.map_map]
  refine List.map_congr_left fun x hx => ?_
  simp only [Function.comp_apply, pfInv_of_ne_zero (hne x hx), if_neg (hne x hx)]

/-! ### How a command on two element registers fails -/

theorem isNone_e_iff (s : State) (i : EReg) : s.isNone (.e i) ↔ s.e[i] = none := by
  simp [State.isNone, State.contents]

/-- A command whose operands cannot be read, or are out of range, fails with the code raised. -/
theorem finishPrimeE_of_operands_error {β : Type} {operands : Except FailCode β} {c : FailCode} (h : operands = .error c)
    (rd : EReg) (f : β → Except FailCode Nat) (s : State) :
    finishPrimeE rd (operands >>= f) s = .next (s.failedE rd c.number) := by
  rw [h]; rfl

/-- A command whose operands pass ends as its operation does. -/
theorem finishPrimeE_of_operands_ok {β : Type} {operands : Except FailCode β} {b : β} (h : operands = .ok b)
    (rd : EReg) (f : β → Except FailCode Nat) (s : State) :
    finishPrimeE rd (operands >>= f) s = finishPrimeE rd (f b) s := by
  rw [h]; rfl

/-- For a command with two element sources, a missing source is one of the two registers holding `none`. -/
theorem failsOnMissingSource_of_pair {i : Instr} {rd ra rb : EReg} {s : State} (hsources : sources i = [.e ra, .e rb])
    (hdestination : destination i = .e rd)
    (hfails : s.e[ra] = none ∨ s.e[rb] = none → exec i s = .next (s.failedE rd 7)) : FailsOnMissingSource i s := by
  rintro ⟨r, hr, missing⟩
  rw [hsources, List.mem_pair] at hr
  rw [hdestination]
  rcases hr with rfl | rfl
  · exact hfails (.inl ((isNone_e_iff s ra).1 missing))
  · exact hfails (.inr ((isNone_e_iff s rb).1 missing))

/-! ### The commands on two canonical elements: `PADD`, `PSUB`, `PMUL` (R103 to R105) -/

/-- The command reads two element registers, checks both against `P` and writes `f` of their values. -/
structure PrimePairCommand (i : Instr) (rd ra rb : EReg) (f : Nat → Nat → Nat) : Prop where
  sources_eq : sources i = [.e ra, .e rb]
  destination_eq : destination i = .e rd
  exec_eq : ∀ s, exec i s = finishPrimeE rd (primePairE ra rb s >>= fun p => .ok (f p.1 p.2)) s

theorem padd_primePairCommand (rd ra rb : EReg) : PrimePairCommand (.padd rd ra rb) rd ra rb pfAdd :=
  ⟨rfl, rfl, fun _ => rfl⟩

theorem psub_primePairCommand (rd ra rb : EReg) : PrimePairCommand (.psub rd ra rb) rd ra rb pfSub :=
  ⟨rfl, rfl, fun _ => rfl⟩

theorem pmul_primePairCommand (rd ra rb : EReg) : PrimePairCommand (.pmul rd ra rb) rd ra rb pfMul :=
  ⟨rfl, rfl, fun _ => rfl⟩

section
variable {i : Instr} {rd ra rb : EReg} {f : Nat → Nat → Nat}

theorem PrimePairCommand.gives (h : PrimePairCommand i rd ra rb f) {s : State} {x y : Elem} (hx : s.e[ra] = some x)
    (hy : s.e[rb] = some y) (hxP : x.toNat < Config.primeP) (hyP : y.toNat < Config.primeP) :
    exec i s = .next (s.gaveE rd (toElem (f x.toNat y.toNat))) := by
  have operands := (primePairE_ok ra rb s (x.toNat, y.toNat)).2 ⟨x, y, hx, hy, hxP, hyP, rfl⟩
  rw [h.exec_eq, finishPrimeE_of_operands_ok operands]
  rfl

theorem PrimePairCommand.failsOnMissingSource (h : PrimePairCommand i rd ra rb f) (s : State) :
    FailsOnMissingSource i s := by
  refine failsOnMissingSource_of_pair h.sources_eq h.destination_eq fun missing => ?_
  have operands := (primePairE_error ra rb s .invalid).2 (.inl ⟨rfl, missing⟩)
  exact (h.exec_eq s).trans (finishPrimeE_of_operands_error operands ..)

theorem PrimePairCommand.failsOutOfRangePair (h : PrimePairCommand i rd ra rb f) (s : State) :
    FailsOutOfRangePair i rd ra rb s := by
  intro x y hx hy outside
  have operands := (primePairE_error ra rb s .range).2 (.inr ⟨rfl, x, y, hx, hy, outside⟩)
  exact (h.exec_eq s).trans (finishPrimeE_of_operands_error operands ..)

end

/-! ### `PEXP` (R106): only the base is checked -/

theorem exec_pexp (rd ra rb : EReg) (s : State) :
    exec (.pexp rd ra rb) s = finishPrimeE rd (primeBaseExponent ra rb s >>= fun p => .ok (pfExp p.1 p.2)) s := rfl

theorem exec_pexp_of_canonical_base (rd : EReg) {ra rb : EReg} {s : State} {x y : Elem} (hx : s.e[ra] = some x)
    (hy : s.e[rb] = some y) (hxP : x.toNat < Config.primeP) :
    exec (.pexp rd ra rb) s = .next (s.gaveE rd (toElem (pfExp x.toNat y.toNat))) := by
  have operands := (primeBaseExponent_ok ra rb s (x.toNat, y.toNat)).2 ⟨x, y, hx, hy, hxP, rfl⟩
  rw [exec_pexp, finishPrimeE_of_operands_ok operands]
  rfl

theorem exec_pexp_of_base_out_of_range (rd : EReg) {ra rb : EReg} {s : State} {x y : Elem} (hx : s.e[ra] = some x)
    (hy : s.e[rb] = some y) (hxP : Config.primeP ≤ x.toNat) : exec (.pexp rd ra rb) s = .next (s.failedE rd 2) :=
  have operands := (primeBaseExponent_error ra rb s .range).2 (.inr ⟨rfl, x, y, hx, hy, hxP⟩)
  finishPrimeE_of_operands_error operands ..

theorem pexp_failsOnMissingSource (rd ra rb : EReg) (s : State) : FailsOnMissingSource (.pexp rd ra rb) s := by
  refine failsOnMissingSource_of_pair (rd := rd) rfl rfl fun missing => ?_
  have operands := (primeBaseExponent_error ra rb s .invalid).2 (.inl ⟨rfl, missing⟩)
  exact finishPrimeE_of_operands_error operands ..

/-! ### The statements -/

/-- Settles O13: sums cancel as residues, the Fermat inverse multiplies to `x ^ (P - 1) = 1`, and the batch inverse is
elementwise by definition. -/
theorem primeFieldLaws : Obligations.PrimeFieldLaws := by
  refine ⟨fun x y hx hy => ⟨pfAdd_comm x y, pfSub_pfAdd_cancel hx hy⟩, fun x hx hne => ⟨?inverse, ?fermat⟩,
    fun _ _ _ => rfl, fun xs hxs => map_pfInv_eq_pfBatchInv fun x hx => (hxs x hx).2, by decide⟩
  case inverse => exact ⟨pfInvNonzero x, pfInv_of_ne_zero hne, pfMul_pfInvNonzero hx hne⟩
  case fermat => rw [pfExp_eq_mod, pow_primeP_sub_one_mod hx hne]

/-- Settles O19: the base passes its check exactly below `P`, and `pf.exp` is the residue of the power for every
exponent. -/
theorem pexpWritesThePowerModuloP : Obligations.PexpWritesThePowerModuloP := by
  refine fun rd ra rb s => ⟨fun x y hx hy hxP => ?_, pexp_failsOnMissingSource rd ra rb s,
    fun x y hx hy hxP => exec_pexp_of_base_out_of_range rd hx hy hxP, Laws.opField_encodeR ..⟩
  rw [exec_pexp_of_canonical_base rd hx hy hxP, pfExp_eq_mod, toElem]

/-- Settles O11: each operation is the residue its lemma above states. -/
theorem primeFieldOperationsAreResidues : Obligations.PrimeFieldOperationsAreResidues :=
  fun x y hx hy => ⟨pfAdd_eq_mod hx hy, pfSub_eq_emod hx hy, rfl, rfl, pfAdd_lt hx hy, pfSub_lt hx hy, pfMul_lt x y,
    pfSub_lt primeP_pos hx⟩

/-- Settles O16: `PADD` is a command on two canonical elements, and `pf.add` is the residue of the sum. -/
theorem paddWritesTheSumModuloP : Obligations.PaddWritesTheSumModuloP := by
  intro rd ra rb s
  have padd := padd_primePairCommand rd ra rb
  refine ⟨fun x y hx hy hxP hyP => ?_, padd.failsOnMissingSource s, padd.failsOutOfRangePair s, Laws.opField_encodeR ..⟩
  rw [padd.gives hx hy hxP hyP, pfAdd_eq_mod hxP hyP, toElem]

/-- Settles O17: `PSUB` is a command on two canonical elements, and `pf.sub` is the residue of the difference. -/
theorem psubWritesTheDifferenceModuloP : Obligations.PsubWritesTheDifferenceModuloP := by
  intro rd ra rb s
  have psub := psub_primePairCommand rd ra rb
  refine ⟨fun x y hx hy hxP hyP => ?_, psub.failsOnMissingSource s, psub.failsOutOfRangePair s, Laws.opField_encodeR ..⟩
  rw [psub.gives hx hy hxP hyP, pfSub_eq_mod hxP hyP, toElem]

/-- Settles O18: `PMUL` is a command on two canonical elements, and `pf.mul` is the residue of the product. -/
theorem pmulWritesTheProductModuloP : Obligations.PmulWritesTheProductModuloP := by
  intro rd ra rb s
  have pmul := pmul_primePairCommand rd ra rb
  refine ⟨fun x y hx hy hxP hyP => ?_, pmul.failsOnMissingSource s, pmul.failsOutOfRangePair s, Laws.opField_encodeR ..⟩
  rw [pmul.gives hx hy hxP hyP, pfMul, toElem]

end Sys2Proof.Proofs

/-! Binary-field multiplication and the commands on two unchecked elements (41_binary_field.md R133, R136 to R138). An element
is mapped into the quotient ring of `GF(2)[X]` by `Q`; there a doubling of `bf.mul` is the product with the root of `Q`. -/

namespace Sys2Proof.Proofs

open Sys2Proof Sys2Proof.Machine Sys2Proof.Meaning

/-! ### The residue an element stands for -/

/-- The residue class modulo `Q` of an element's polynomial. -/
noncomputable def residueClass (x : Elem) : AdjoinRoot (bitPolynomial Config.binaryQ) :=
  AdjoinRoot.mk _ (bitPolynomial x.toNat)

@[simp] theorem residueClass_zero : residueClass 0#256 = 0 := by
  simp [residueClass]

theorem residueClass_xor (x y : Elem) : residueClass (x ^^^ y) = residueClass x + residueClass y := by
  rw [residueClass, BitVec.toNat_xor, Laws.bitPolynomial_xor, map_add]; rfl

/-- An element's polynomial has degree below 256, so it is the reduced representative of its class. -/
theorem bitPolynomial_eq_modQ_of_residueClass_eq {z : Elem} {p : Polynomial (ZMod 2)}
    (h : residueClass z = AdjoinRoot.mk _ p) : bitPolynomial z.toNat = modQ p := by
  have monic := Laws.bitPolynomial_binaryQ_monic
  have reduced : modQ (bitPolynomial z.toNat) = bitPolynomial z.toNat := by
    rw [modQ, Polynomial.modByMonic_eq_self_iff monic, Polynomial.degree_eq_natDegree monic.ne_zero,
      Laws.bitPolynomial_binaryQ_natDegree]
    exact Laws.bitPolynomial_degree_lt z.isLt
  exact reduced.symm.trans (Polynomial.modByMonic_eq_of_dvd_sub monic (AdjoinRoot.mk_eq_mk.1 h))

/-! ### `bf.mul` (R133) -/

/-- Dropping a clear top bit keeps the value. -/
theorem toNat_setWidth_of_msb_false {n : Nat} {w : BitVec (n + 1)} (h : w.msb = false) :
    (w.setWidth n).toNat = w.toNat := by
  have below : w.toNat < 2 ^ n := BitVec.toNat_lt_of_msb_false h
  rw [BitVec.toNat_setWidth, Nat.mod_eq_of_lt below]

/-- A shift by one into one more bit loses nothing. -/
theorem toNat_setWidth_succ_shiftLeft_one {n : Nat} (w : BitVec n) :
    (w.setWidth (n + 1) <<< 1).toNat = w.toNat <<< 1 := by
  rw [BitVec.toNat_shiftLeft, BitVec.toNat_setWidth_of_le n.le_succ, Nat.mod_eq_of_lt (Nat.shiftLeft_lt w.isLt)]

/-- A doubling shifts by one and adds `Q` exactly when the shift leaves the 256 bits. -/
theorem toNat_bfTimesX (a : Elem) :
    (bfTimesX a).toNat = if a.getLsbD 255 then a.toNat <<< 1 ^^^ Config.binaryQ else a.toNat <<< 1 := by
  have shifted : (a.setWidth 257 <<< 1).toNat = a.toNat <<< 1 := toNat_setWidth_succ_shiftLeft_one a
  have top : (a.setWidth 257 <<< 1).getLsbD 256 = a.getLsbD 255 := by simp
  have msb : (a.setWidth 257 <<< 1).msb = a.getLsbD 255 := (BitVec.msb_eq_getLsbD_last _).trans top
  have toNatQ : (BitVec.ofNat 257 Config.binaryQ).toNat = Config.binaryQ := by decide +kernel
  have msbQ : (BitVec.ofNat 257 Config.binaryQ).msb = true := by decide +kernel
  simp only [bfTimesX, top]
  split
  case isTrue leaves =>
    have cleared : (a.setWidth 257 <<< 1 ^^^ BitVec.ofNat 257 Config.binaryQ).msb = false := by
      rw [BitVec.msb_xor, msb, msbQ, leaves, Bool.xor_self]
    rw [toNat_setWidth_of_msb_false cleared, BitVec.toNat_xor, shifted, toNatQ]
  case isFalse stays =>
    rw [toNat_setWidth_of_msb_false (msb.trans (Bool.eq_false_of_not_eq_true stays)), shifted]

/-- A doubling of `bf.mul` is the product with the root of `Q`. -/
theorem residueClass_bfTimesX (a : Elem) : residueClass (bfTimesX a) = AdjoinRoot.root _ * residueClass a := by
  have shift : AdjoinRoot.mk (bitPolynomial Config.binaryQ) (bitPolynomial (a.toNat <<< 1)) =
      AdjoinRoot.root _ * residueClass a := by
    rw [Laws.bitPolynomial_shiftLeft, pow_one, map_mul, AdjoinRoot.mk_X, residueClass]
  rw [residueClass, toNat_bfTimesX]
  split
  · rw [Laws.bitPolynomial_xor, map_add, AdjoinRoot.mk_self, add_zero, shift]
  · exact shift

/-- The bits of a pattern from bit `i` up: bit `i`, and the bits after it one place higher. -/
theorem bitPolynomial_shiftRight_succ (y i : Nat) :
    bitPolynomial (y >>> i) = (if y.testBit i then 1 else 0) + Polynomial.X * bitPolynomial (y >>> (i + 1)) := by
  have low : y >>> i % 2 ^ 1 = if y.testBit i then 1 else 0 := by
    rw [pow_one, Nat.testBit, Nat.one_and_eq_mod_two]
    rcases Nat.mod_two_eq_zero_or_one (y >>> i) with h | h <;> simp [h]
  rw [Laws.bitPolynomial_split (y >>> i) 1, low, pow_one, Nat.shiftRight_add]
  split <;> simp

/-- The loop of `bf.mul` adds to the accumulator the product of the working value with the bits of `y` still to come. -/
theorem residueClass_bfMulLoop (y : Elem) (n i : Nat) (remaining : i + n = 256) (acc a : Elem) :
    residueClass (bfMulLoop y n i acc a) =
      residueClass acc + residueClass a * AdjoinRoot.mk _ (bitPolynomial (y.toNat >>> i)) := by
  induction n generalizing i acc a with
  | zero =>
    obtain rfl : i = 256 := remaining
    have none_left : y.toNat >>> 256 = 0 := Nat.shiftRight_eq_zero _ _ y.isLt
    rw [bfMulLoop, none_left, Laws.bitPolynomial_zero, map_zero, mul_zero, add_zero]
  | succ n ih =>
    rw [bfMulLoop, ih (i + 1) (by omega), residueClass_bfTimesX, bitPolynomial_shiftRight_succ y.toNat i, map_add, map_mul,
      AdjoinRoot.mk_X, BitVec.testBit_toNat]
    split
    · rw [residueClass_xor, map_one]; ring
    · rw [map_zero]; ring

/-- `bf.mul` is the product in the quotient ring. -/
theorem residueClass_bfMul (x y : Elem) : residueClass (bfMul x y) = residueClass x * residueClass y := by
  rw [bfMul, residueClass_bfMulLoop y 256 0 rfl, residueClass_zero, zero_add, Nat.shiftRight_zero]; rfl

/-- `bf.mul` is the product of polynomials reduced modulo `Q`. -/
theorem bitPolynomial_bfMul (x y : Elem) :
    bitPolynomial (bfMul x y).toNat = modQ (bitPolynomial x.toNat * bitPolynomial y.toNat) :=
  bitPolynomial_eq_modQ_of_residueClass_eq ((residueClass_bfMul x y).trans (map_mul _ _ _).symm)

/-! ### The commands on two unchecked elements -/

/-- The command reads two element registers without a range check (R130) and ends as `f` of their values does. -/
structure BinaryPairCommand (i : Instr) (rd ra rb : EReg) (f : Elem → Elem → Except FailCode Elem) : Prop where
  sources_eq : sources i = [.e ra, .e rb]
  destination_eq : destination i = .e rd
  exec_eq : ∀ s, exec i s = finishE rd (pairE ra rb s >>= fun p => f p.1 p.2) s

theorem badd_binaryPairCommand (rd ra rb : EReg) :
    BinaryPairCommand (.badd rd ra rb) rd ra rb fun x y => .ok (x ^^^ y) := ⟨rfl, rfl, fun _ => rfl⟩

theorem bsub_binaryPairCommand (rd ra rb : EReg) :
    BinaryPairCommand (.bsub rd ra rb) rd ra rb fun x y => .ok (x ^^^ y) := ⟨rfl, rfl, fun _ => rfl⟩

theorem bmul_binaryPairCommand (rd ra rb : EReg) :
    BinaryPairCommand (.bmul rd ra rb) rd ra rb fun x y => .ok (bfMul x y) := ⟨rfl, rfl, fun _ => rfl⟩

section
variable {i : Instr} {rd ra rb : EReg} {f : Elem → Elem → Except FailCode Elem}

theorem BinaryPairCommand.gives (h : BinaryPairCommand i rd ra rb f) {s : State} {x y z : Elem} (hx : s.e[ra] = some x)
    (hy : s.e[rb] = some y) (hz : f x y = .ok z) : exec i s = .next (s.gaveE rd z) := by
  have operands := (pairE_ok ra rb s (x, y)).2 ⟨hx, hy⟩
  have result := (except_bind_ok _ (fun p => f p.1 p.2) z).2 ⟨_, operands, hz⟩
  rw [h.exec_eq, finishE_next]
  exact .inl ⟨z, result, rfl⟩

theorem BinaryPairCommand.failsOnMissingSource (h : BinaryPairCommand i rd ra rb f) (s : State) :
    FailsOnMissingSource i s := by
  refine failsOnMissingSource_of_pair h.sources_eq h.destination_eq fun missing => ?_
  have operands := (pairE_error ra rb s .invalid).2 ⟨rfl, missing⟩
  have result := (except_bind_error _ (fun p => f p.1 p.2) .invalid).2 (.inl operands)
  rw [h.exec_eq, finishE_next]
  exact .inr ⟨.invalid, result, rfl⟩

end

/-! ### The statements -/

/-- Settles O25: `BMUL` is a command on two unchecked elements, and `bf.mul` is the product of polynomials modulo `Q`. -/
theorem bmulWritesTheProductModuloQ : Obligations.BmulWritesTheProductModuloQ := by
  intro rd ra rb s
  have bmul := bmul_binaryPairCommand rd ra rb
  exact ⟨fun x y hx hy => ⟨bfMul x y, bmul.gives hx hy rfl, rfl, bitPolynomial_bfMul x y⟩, bmul.failsOnMissingSource s,
    Laws.opField_encodeR ..⟩

/-- Settles O24: `BADD` and `BSUB` are commands on two unchecked elements, with the exclusive-or as their result. -/
theorem baddAndBsubWriteTheExclusiveOr : Obligations.BaddAndBsubWriteTheExclusiveOr := by
  intro rd ra rb s i hi
  have command : BinaryPairCommand i rd ra rb fun x y => .ok (x ^^^ y) := by
    rcases List.mem_pair.1 hi with rfl | rfl
    · exact badd_binaryPairCommand rd ra rb
    · exact bsub_binaryPairCommand rd ra rb
  exact ⟨fun x y hx hy => command.gives hx hy rfl, command.failsOnMissingSource s, Laws.opField_encodeR ..,
    Laws.opField_encodeR ..⟩

end Sys2Proof.Proofs

/-! `PFROMB` (44_byte_loading.md R220, R222): the bytes of a range read as a big-endian number, and the words that encode
the command. -/

namespace Sys2Proof.Proofs

open Sys2Proof Sys2Proof.Machine

/-! ### The big-endian number of a byte string -/

/-- One more byte at the end moves the others up one place. -/
theorem bigEndian_append_singleton (bytes : List Byte) (b : Byte) :
    bigEndian (bytes ++ [b]) = bigEndian bytes * 256 + b.toNat := by
  rw [bigEndian, List.foldl_append]; rfl

/-- Horner's scheme in `be` is the sum of the bytes at their places. -/
theorem bigEndian_map_range (byte : Nat → Byte) (n : Nat) :
    bigEndian ((List.range n).map byte) = ∑ k ∈ Finset.range n, (byte k).toNat * 256 ^ (n - 1 - k) := by
  induction n with
  | zero => rfl
  | succ n ih =>
    have place : ∀ k ∈ Finset.range n,
        (byte k).toNat * 256 ^ (n - 1 - k) * 256 = (byte k).toNat * 256 ^ (n + 1 - 1 - k) := by
      intro k hk
      have higher : n + 1 - 1 - k = n - 1 - k + 1 := by have := Finset.mem_range.1 hk; omega
      rw [higher, pow_succ, mul_assoc]
    have last : n + 1 - 1 - n = 0 := by omega
    rw [List.range_succ, List.map_append, List.map_singleton, bigEndian_append_singleton, ih, Finset.sum_mul,
      Finset.sum_congr rfl place, Finset.sum_range_succ, last, pow_zero, mul_one]

theorem loadFromBytes_memRead (m : Memory) (off len : Nat) :
    loadFromBytes (memRead m off len) =
      (∑ k ∈ Finset.range len, (Memory.read m (off + k)).toNat * 256 ^ (len - 1 - k)) % Config.primeP := by
  rw [loadFromBytes, memRead, bigEndian_map_range]

/-! ### The command in a state -/

theorem exec_pfromb (rd : EReg) (off len : Nat) (s : State) :
    exec (.pfromb rd off len) s =
      finishPrimeE rd (bufferOperand off len s >>= fun bytes => .ok (loadFromBytes bytes)) s := rfl

theorem exec_pfromb_of_within_bfill (rd : EReg) {off len : Nat} {s : State} (within : off + len ≤ s.bfill.toNat) :
    exec (.pfromb rd off len) s = .next (s.gaveE rd (toElem (loadFromBytes (memRead s.buf off len)))) := by
  have operand := (bufferOperand_ok off len s _).2 ⟨within, rfl⟩
  rw [exec_pfromb, finishPrimeE_of_operands_ok operand]
  rfl

theorem exec_pfromb_of_past_bfill (rd : EReg) {off len : Nat} {s : State} (past : s.bfill.toNat < off + len) :
    exec (.pfromb rd off len) s = .next (s.failedE rd 2) :=
  have operand := (bufferOperand_error off len s .range).2 ⟨rfl, past⟩
  finishPrimeE_of_operands_error operand ..

/-! ### The words of the command -/

/-- Bits 51:50 of an L-format word are its selector. -/
theorem widthField_encodeL (op : BitVec 8) (rd : BitVec 4) (width : BitVec 2) (off len : Nat) :
    widthField (encodeL op rd width off len) = width := by
  have fields := append_lFields (encodeL op rd width off len)
  conv_rhs at fields => rw [encodeL]
  simp only [append_eq_append_iff] at fields
  obtain ⟨⟨⟨⟨-, selector⟩, -⟩, -⟩, -⟩ := fields
  exact selector

/-- A word with the opcode of `PFROMB` and a selector other than zero is illegal (R74, R77). -/
theorem decode_of_fromb_selector_ne_zero {w : CommandWord} (hop : opField w = 0x50#8) (selector : widthField w ≠ 0#2) :
    decode w = .error .chunkSelector := by
  have opcode : (opField w).toNat = 0x50 := congrArg BitVec.toNat hop
  have shape : decode w = decodeFromb w := by simp only [decode, opcode]
  have refused : decodeNoWidth (widthField w) = .error .chunkSelector := if_neg selector
  rw [shape, decodeFromb, refused]
  rfl

/-- Settles O41: the operand passes its check exactly within `BFILL`, and Horner's scheme over its bytes is the sum of the
statement. -/
theorem pfrombLoadsABigEndianNumber : Obligations.PfrombLoadsABigEndianNumber := by
  refine fun rd off len s => ⟨fun within => ?gives, exec_pfromb_of_past_bfill rd, Laws.opField_encodeL ..,
    widthField_encodeL .., fun w hop selector i decoded => ?illegal⟩
  case gives => rw [exec_pfromb_of_within_bfill rd within, loadFromBytes_memRead, toElem]
  case illegal =>
    rw [decode_of_fromb_selector_ne_zero hop selector] at decoded
    cases decoded

end Sys2Proof.Proofs

/-! `E_INVALID` (60_exceptions.md R240). Every command reads its sources first (30_encoding.md R79 step 3): its operand form
raises `E_INVALID` exactly if a source holds `none`, and no later step raises it. How a command ends is decided by the result
of these steps alone. -/

namespace Sys2Proof.Proofs

open Sys2Proof Sys2Proof.Machine

/-! ### How the result of a command's steps decides its end -/

/-- Outcome `o` of a command with destination `d` ends state `s` as the result `r` says: whole failure with the code raised, or
a next state with a success in `STATUS`. -/
structure EndsAs {α : Type} (o : Host.Outcome State Fault Refusal) (d : Reg) (s : State) (r : Except FailCode α) : Prop where
  of_error : ∀ c, r = .error c → o = .next (s.failed c.number d)
  of_ok : ∀ a, r = .ok a → ∃ t zskip, o = .next t ∧ t.status = successStatus zskip

/-- Storing a result in another form does not change how the command ends. -/
theorem EndsAs.of_map {α β : Type} {o : Host.Outcome State Fault Refusal} {d : Reg} {s : State} {r : Except FailCode α}
    {f : α → β} (h : EndsAs o d s (r.map f)) : EndsAs o d s r where
  of_error c hr := h.of_error c ((except_map_error r f c).2 hr)
  of_ok a hr := h.of_ok (f a) ((except_map_ok r f (f a)).2 ⟨a, hr, rfl⟩)

theorem finishE_endsAs (rd : EReg) (r : Except FailCode Elem) (s : State) : EndsAs (finishE rd r s) (.e rd) s r where
  of_error c hr := (finishE_next ..).2 (.inr ⟨c, hr, rfl⟩)
  of_ok x hr := ⟨_, false, (finishE_next ..).2 (.inl ⟨x, hr, rfl⟩), rfl⟩

theorem finishV_endsAs (rd : VReg) (r : Except FailCode (List Elem × Bool)) (s : State) :
    EndsAs (finishV rd r s) (.v rd) s r where
  of_error c hr := (finishV_next ..).2 (.inr ⟨c, hr, rfl⟩)
  of_ok p hr := ⟨_, p.2, (finishV_next ..).2 (.inl ⟨p.1, p.2, hr, rfl⟩), rfl⟩

theorem finishPrimeE_endsAs (rd : EReg) (r : Except FailCode Nat) (s : State) :
    EndsAs (finishPrimeE rd r s) (.e rd) s r := (finishE_endsAs ..).of_map

theorem finishPrimeV_endsAs (rd : VReg) (r : Except FailCode (List Nat)) (s : State) :
    EndsAs (finishPrimeV rd r s) (.v rd) s r := (finishV_endsAs ..).of_map

theorem successStatus_ne_seven (zskip : Bool) : successStatus zskip ≠ 7#64 := by cases zskip <;> decide

theorem failed_status (s : State) (k : Nat) (d : Reg) : (s.failed k d).status = BitVec.ofNat 64 k := by cases d <;> rfl

theorem eq_invalid_of_failureStatus {c : FailCode} (h : failureStatus c = 7#64) : c = .invalid := by
  have code := congrArg statusCode h
  rw [failureStatus_code] at code
  exact FailCode.number_injective code

/-- A command ends with `STATUS` 7 only if `E_INVALID` was raised. -/
theorem EndsAs.eq_invalid_of_status {α : Type} {o : Host.Outcome State Fault Refusal} {d : Reg} {s t : State}
    {r : Except FailCode α} (h : EndsAs o d s r) (next : o = .next t) (status : t.status = 7#64) : r = .error .invalid := by
  rcases hr : r with c | a
  · have failed := next.symm.trans (h.of_error c hr)
    cases failed
    rw [failed_status] at status
    rw [eq_invalid_of_failureStatus status]
  · obtain ⟨u, zskip, succeeded, success⟩ := h.of_ok a hr
    cases next.symm.trans succeeded
    exact absurd (success.symm.trans status) (successStatus_ne_seven zskip)

/-! ### The steps after reading the sources never raise `E_INVALID` -/

/-- The computation does not raise `E_INVALID`. -/
def NeverInvalid {α : Type} (r : Except FailCode α) : Prop := r ≠ .error .invalid

theorem neverInvalid_ok {α : Type} (a : α) : NeverInvalid (.ok a : Except FailCode α) := nofun

theorem neverInvalid_bind {α β : Type} {r : Except FailCode α} {f : α → Except FailCode β} (hr : NeverInvalid r)
    (hf : ∀ a, NeverInvalid (f a)) : NeverInvalid (r >>= f) := by
  intro raised
  rcases (except_bind_error r f .invalid).1 raised with early | ⟨a, -, late⟩
  · exact hr early
  · exact hf a late

theorem neverInvalid_pfInv (x : Nat) : NeverInvalid (pfInv x) := by
  unfold pfInv; split <;> exact nofun

theorem neverInvalid_bfInv (x : Elem) : NeverInvalid (bfInv x) := by
  unfold bfInv; split <;> exact nofun

theorem neverInvalid_bfDiv (x y : Elem) : NeverInvalid (bfDiv x y) :=
  neverInvalid_bind (neverInvalid_bfInv y) fun _ => neverInvalid_ok _

theorem neverInvalid_fitsVector (n : Nat) (s : State) : NeverInvalid (fitsVector n s) := fun raised =>
  nomatch ((fitsVector_error ..).1 raised).1

theorem neverInvalid_productFits (a b : List Nat) (s : State) : NeverInvalid (productFits a b s) := fun raised =>
  nomatch ((productFits_error ..).1 raised).1

theorem neverInvalid_fourSamples (xs ys : List Nat) : NeverInvalid (fourSamples xs ys) := fun raised =>
  nomatch ((fourSamples_error ..).1 raised).1

theorem neverInvalid_polyDivrem (a b : List Nat) : NeverInvalid (polyDivrem a b) := by
  unfold polyDivrem
  split
  case isTrue => exact nofun
  case isFalse =>
    split
    case isTrue => exact nofun
    case isFalse => exact neverInvalid_bind (neverInvalid_pfInv _) fun _ => neverInvalid_ok _

theorem neverInvalid_lagrangeTerm (z : List Nat) (x y : Nat) : NeverInvalid (lagrangeTerm z x y) :=
  neverInvalid_bind (neverInvalid_polyDivrem _ _) fun _ =>
    neverInvalid_bind (neverInvalid_pfInv _) fun _ => neverInvalid_ok _

theorem neverInvalid_lagrangeLoop (z : List Nat) (samples : List (Nat × Nat)) (res : List Nat) :
    NeverInvalid (lagrangeLoop z samples res) := by
  induction samples generalizing res with
  | nil => exact neverInvalid_ok _
  | cons sample rest ih => exact neverInvalid_bind (neverInvalid_lagrangeTerm _ _ _) fun _ => ih _

theorem neverInvalid_polyLagrange (xs ys : List Nat) : NeverInvalid (polyLagrange xs ys) := by
  unfold polyLagrange
  split
  case isTrue => exact nofun
  case isFalse =>
    split
    case isTrue => exact nofun
    case isFalse => exact neverInvalid_lagrangeLoop _ _ _

theorem neverInvalid_rootPowers (g room cur : Nat) : NeverInvalid (rootPowers g room cur) := by
  induction room generalizing cur with
  | zero => unfold rootPowers; split <;> exact nofun
  | succ room ih =>
    unfold rootPowers
    split
    case isTrue => exact neverInvalid_ok _
    case isFalse => exact neverInvalid_bind (ih _) fun _ => neverInvalid_ok _

theorem neverInvalid_orderGenerator (root : Nat) (inverse : Bool) : NeverInvalid (orderGenerator root inverse) := by
  cases inverse
  case false => exact neverInvalid_ok _
  case true => exact neverInvalid_pfInv _

theorem neverInvalid_fftOrder (nmax root : Nat) (inverse : Bool) : NeverInvalid (fftOrder nmax root inverse) := by
  refine neverInvalid_bind (neverInvalid_orderGenerator _ _) fun _ => ?_
  refine neverInvalid_bind (neverInvalid_rootPowers _ _ _) fun _ => ?_
  split <;> exact nofun

theorem neverInvalid_forwardTransform (cs t : List Nat) : NeverInvalid (forwardTransform cs t) := by
  unfold forwardTransform; split <;> exact nofun

theorem neverInvalid_inverseTransform (evals t : List Nat) : NeverInvalid (inverseTransform evals t) := by
  unfold inverseTransform
  split
  case isTrue => exact nofun
  case isFalse => exact neverInvalid_bind (neverInvalid_pfInv _) fun _ => neverInvalid_ok _

/-! ### Each operand form raises `E_INVALID` exactly on a missing source -/

theorem isNone_v_iff (s : State) (i : VReg) : s.isNone (.v i) ↔ s.v[i] = none := by
  simp [State.isNone, State.contents]

/-- Some register of the list holds `none`. -/
def SomeNone (regs : List Reg) (s : State) : Prop := ∃ r ∈ regs, s.isNone r

theorem not_someNone_nil (s : State) : ¬ SomeNone [] s := by simp [SomeNone]

theorem someNone_singleton (a : Reg) (s : State) : SomeNone [a] s ↔ s.isNone a := by simp [SomeNone]

theorem someNone_pair (a b : Reg) (s : State) : SomeNone [a, b] s ↔ s.isNone a ∨ s.isNone b := by simp [SomeNone]

theorem sourceE_invalid_iff (ra : EReg) (s : State) : sourceE ra s = .error .invalid ↔ SomeNone [.e ra] s := by
  simp [sourceE_error, someNone_singleton, isNone_e_iff]

theorem primeE_invalid_iff (ra : EReg) (s : State) : primeE ra s = .error .invalid ↔ SomeNone [.e ra] s := by
  simp [primeE_error, someNone_singleton, isNone_e_iff]

theorem primeV_invalid_iff (ra : VReg) (s : State) : primeV ra s = .error .invalid ↔ SomeNone [.v ra] s := by
  simp [primeV_error, someNone_singleton, isNone_v_iff]

theorem pairE_invalid_iff (ra rb : EReg) (s : State) : pairE ra rb s = .error .invalid ↔ SomeNone [.e ra, .e rb] s := by
  simp [pairE_error, someNone_pair, isNone_e_iff]

theorem primePairE_invalid_iff (ra rb : EReg) (s : State) :
    primePairE ra rb s = .error .invalid ↔ SomeNone [.e ra, .e rb] s := by
  simp [primePairE_error, someNone_pair, isNone_e_iff]

theorem primeBaseExponent_invalid_iff (ra rb : EReg) (s : State) :
    primeBaseExponent ra rb s = .error .invalid ↔ SomeNone [.e ra, .e rb] s := by
  simp [primeBaseExponent_error, someNone_pair, isNone_e_iff]

theorem primePairV_invalid_iff (ra rb : VReg) (s : State) :
    primePairV ra rb s = .error .invalid ↔ SomeNone [.v ra, .v rb] s := by
  simp [primePairV_error, someNone_pair, isNone_v_iff]

theorem primeVE_invalid_iff (ra : VReg) (rb : EReg) (s : State) :
    primeVE ra rb s = .error .invalid ↔ SomeNone [.v ra, .e rb] s := by
  simp [primeVE_error, someNone_pair, isNone_v_iff, isNone_e_iff]

/-- A load has no source register, and its operand is not one. -/
theorem bufferOperand_invalid_iff (off len : Nat) (s : State) : bufferOperand off len s = .error .invalid ↔ SomeNone [] s := by
  simp [bufferOperand_error, not_someNone_nil]

/-! ### The commands -/

/-- `E_INVALID` is how the command ends exactly if one of its sources holds `none`. -/
def InvalidExactlyOnMissingSource (i : Instr) (s : State) : Prop :=
  FailsOnMissingSource i s ∧ ∀ t, exec i s = .next t → t.status = 7#64 → SomeNone (sources i) s

/-- A command that reads its sources with `operands` and goes on with steps that never raise `E_INVALID`. -/
theorem invalidExactly_of_steps {α β : Type} {i : Instr} {s : State} {operands : Except FailCode α}
    {rest : α → Except FailCode β} (operands_iff : operands = .error .invalid ↔ SomeNone (sources i) s)
    (ends : EndsAs (exec i s) (destination i) s (operands >>= rest)) (never : ∀ a, NeverInvalid (rest a)) :
    InvalidExactlyOnMissingSource i s := by
  refine ⟨fun missing => ?fails, fun t next status => ?only⟩
  case fails => exact ends.of_error .invalid ((except_bind_error ..).2 (.inl (operands_iff.2 missing)))
  case only =>
    rcases (except_bind_error ..).1 (ends.eq_invalid_of_status next status) with raised | ⟨a, -, raised⟩
    · exact operands_iff.1 raised
    · exact absurd raised (never a)

/-- The commands by operand form, by the class of the destination, and by what follows the reading of the sources. -/
theorem exec_invalidExactlyOnMissingSource (i : Instr) (s : State) : InvalidExactlyOnMissingSource i s := by
  cases i with
  | padd | psub | pmul =>
    exact invalidExactly_of_steps (primePairE_invalid_iff ..) (finishPrimeE_endsAs ..) fun _ => neverInvalid_ok _
  | pexp =>
    exact invalidExactly_of_steps (primeBaseExponent_invalid_iff ..) (finishPrimeE_endsAs ..) fun _ => neverInvalid_ok _
  | pinv | pinve =>
    exact invalidExactly_of_steps (primeE_invalid_iff ..) (finishPrimeE_endsAs ..) neverInvalid_pfInv
  | pbinv =>
    exact invalidExactly_of_steps (primeV_invalid_iff ..) (finishV_endsAs ..) fun _ => neverInvalid_ok _
  | badd | bsub | bmul | bexp =>
    exact invalidExactly_of_steps (pairE_invalid_iff ..) (finishE_endsAs ..) fun _ => neverInvalid_ok _
  | binv | binve =>
    exact invalidExactly_of_steps (sourceE_invalid_iff ..) (finishE_endsAs ..) neverInvalid_bfInv
  | bdiv =>
    exact invalidExactly_of_steps (pairE_invalid_iff ..) (finishE_endsAs ..) fun _ => neverInvalid_bfDiv _ _
  | peval =>
    exact invalidExactly_of_steps (primeVE_invalid_iff ..) (finishPrimeE_endsAs ..) fun _ => neverInvalid_ok _
  | pvanish =>
    exact invalidExactly_of_steps (primeV_invalid_iff ..) (finishPrimeV_endsAs ..) fun _ =>
      neverInvalid_bind (neverInvalid_fitsVector _ _) fun _ => neverInvalid_ok _
  | ppmul =>
    exact invalidExactly_of_steps (primePairV_invalid_iff ..) (finishPrimeV_endsAs ..) fun _ =>
      neverInvalid_bind (neverInvalid_productFits _ _ _) fun _ => neverInvalid_ok _
  | ppdiv | pprem =>
    exact invalidExactly_of_steps (primePairV_invalid_iff ..) (finishPrimeV_endsAs ..) fun _ =>
      neverInvalid_bind (neverInvalid_polyDivrem _ _) fun _ => neverInvalid_ok _
  | plag =>
    exact invalidExactly_of_steps (primePairV_invalid_iff ..) (finishPrimeV_endsAs ..) fun _ => neverInvalid_polyLagrange _ _
  | plag4 =>
    exact invalidExactly_of_steps (primePairV_invalid_iff ..) (finishPrimeV_endsAs ..) fun _ =>
      neverInvalid_bind (neverInvalid_fourSamples _ _) fun _ => neverInvalid_polyLagrange _ _
  | order =>
    exact invalidExactly_of_steps (primeE_invalid_iff ..) (finishPrimeV_endsAs ..) fun _ => neverInvalid_fftOrder _ _ _
  | fft =>
    exact invalidExactly_of_steps (primeVE_invalid_iff ..) (finishPrimeV_endsAs ..) fun _ =>
      neverInvalid_bind (neverInvalid_fftOrder _ _ _) fun _ => neverInvalid_forwardTransform _ _
  | ifft =>
    exact invalidExactly_of_steps (primeVE_invalid_iff ..) (finishPrimeV_endsAs ..) fun _ =>
      neverInvalid_bind (neverInvalid_fftOrder _ _ _) fun _ => neverInvalid_inverseTransform _ _
  | pfromb =>
    exact invalidExactly_of_steps (bufferOperand_invalid_iff ..) (finishPrimeE_endsAs ..) fun _ => neverInvalid_ok _
  | ploadv =>
    exact invalidExactly_of_steps (bufferOperand_invalid_iff ..) (finishPrimeV_endsAs ..) fun _ =>
      neverInvalid_bind (neverInvalid_fitsVector _ _) fun _ => neverInvalid_ok _

/-- Settles O43: command by command, the operand form raises `E_INVALID` exactly on a missing source and no later step does. -/
theorem missingSourceFailsWithInvalid : Obligations.MissingSourceFailsWithInvalid := exec_invalidExactlyOnMissingSource

end Sys2Proof.Proofs

/-! Encoding and decoding are inverse (30_encoding.md R70 to R78): each operand decoder inverts its encoder, a word of a
format is made of its fields, and each operand shape reads exactly the words its format writes. -/

namespace Sys2Proof.Proofs

open Sys2Proof Sys2Proof.Machine

/-! ### Operands (R72 to R75) -/

theorem decodeEReg_eq_iff (f : BitVec 4) (i : EReg) : decodeEReg f = i ↔ f = encodeEReg i := by decide +revert

theorem decodeVReg_ok_iff (f : BitVec 4) (i : VReg) : decodeVReg f = .ok i ↔ f = encodeVReg i := by decide +revert

theorem decodeWidth_ok_iff (f : BitVec 2) (c : ChunkWidth) : decodeWidth f = .ok c ↔ f = encodeWidth c := by
  cases c <;> decide +revert

theorem decodeInverseFlag_ok_iff (f : BitVec 4) (b : Bool) :
    decodeInverseFlag f = .ok b ↔ f = if b then 1 else 0 := by decide +revert

theorem decodeUnused_ok_iff (f : BitVec 4) (u : Unit) : decodeUnused f = .ok u ↔ f = 0 := by decide +revert

theorem decodeNoFlags_ok_iff (f : BitVec 4) (u : Unit) : decodeNoFlags f = .ok u ↔ f = 0 := by decide +revert

theorem decodeNoWidth_ok_iff (f : BitVec 2) (u : Unit) : decodeNoWidth f = .ok u ↔ f = 0 := by decide +revert

/-- A 24-bit field reads as an immediate exactly if the immediate fits it and is what it holds. -/
theorem toNat_eq_immediate_iff (f : BitVec 24) (n : Nat) :
    f.toNat = n ↔ fitsImmediate n = true ∧ f = BitVec.ofNat 24 n := by
  rw [fitsImmediate, decide_eq_true_iff, BitVec.toNat_eq_nat]

/-! ### Words -/

/-- Six concatenated fields are equal exactly if each field is. -/
theorem six_append_eq_iff {n₁ n₂ n₃ n₄ n₅ n₆ : Nat} (f₁ g₁ : BitVec n₁) (f₂ g₂ : BitVec n₂) (f₃ g₃ : BitVec n₃)
    (f₄ g₄ : BitVec n₄) (f₅ g₅ : BitVec n₅) (f₆ g₆ : BitVec n₆) :
    f₁ ++ f₂ ++ f₃ ++ f₄ ++ f₅ ++ f₆ = g₁ ++ g₂ ++ g₃ ++ g₄ ++ g₅ ++ g₆ ↔
      f₁ = g₁ ∧ f₂ = g₂ ∧ f₃ = g₃ ∧ f₄ = g₄ ∧ f₅ = g₅ ∧ f₆ = g₆ := by
  simp only [append_eq_append_iff, and_assoc]

theorem eq_encodeR_iff (w : CommandWord) (op : BitVec 8) (rd ra rb fl : BitVec 4) :
    w = encodeR op rd ra rb fl ↔
      opField w = op ∧ rdField w = rd ∧ raField w = ra ∧ rbField w = rb ∧ flField w = fl ∧ restField w = 0 := by
  conv_lhs => lhs; rw [← append_rFields w]
  exact six_append_eq_iff ..

theorem eq_encodeL_iff (w : CommandWord) (op : BitVec 8) (rd : BitVec 4) (width : BitVec 2) (off len : Nat) :
    w = encodeL op rd width off len ↔
      opField w = op ∧ rdField w = rd ∧ widthField w = width ∧ padField w = 0 ∧ offField w = BitVec.ofNat 24 off ∧
        lenField w = BitVec.ofNat 24 len := by
  conv_lhs => lhs; rw [← append_lFields w]
  exact six_append_eq_iff ..

/-! ### Each operand shape reads the words its format writes (R71, R72, R76) -/

theorem decodeEEE_ok_iff {w : CommandWord} {op : BitVec 8} (hop : opField w = op)
    (mk : EReg → EReg → EReg → Instr) (i : Instr) :
    decodeEEE w mk = .ok i ↔ ∃ rd ra rb, mk rd ra rb = i ∧
      w = encodeR op (encodeEReg rd) (encodeEReg ra) (encodeEReg rb) 0 := by
  simp only [decodeEEE, illegal_bind_ok, decodeNoFlags_ok_iff, decodeRest_ok, eq_encodeR_iff, hop, ← decodeEReg_eq_iff,
    Except.ok.injEq, true_and]
  constructor
  · rintro ⟨_, fl, _, rest, rfl⟩
    exact ⟨_, _, _, rfl, rfl, rfl, rfl, fl, rest⟩
  · rintro ⟨_, _, _, rfl, rfl, rfl, rfl, fl, rest⟩
    exact ⟨(), fl, (), rest, rfl⟩

theorem decodeEE_ok_iff {w : CommandWord} {op : BitVec 8} (hop : opField w = op) (mk : EReg → EReg → Instr) (i : Instr) :
    decodeEE w mk = .ok i ↔ ∃ rd ra, mk rd ra = i ∧ w = encodeR op (encodeEReg rd) (encodeEReg ra) 0 0 := by
  simp only [decodeEE, illegal_bind_ok, decodeUnused_ok_iff, decodeNoFlags_ok_iff, decodeRest_ok, eq_encodeR_iff, hop,
    ← decodeEReg_eq_iff, Except.ok.injEq, true_and]
  constructor
  · rintro ⟨_, rb, _, fl, _, rest, rfl⟩
    exact ⟨_, _, rfl, rfl, rfl, rb, fl, rest⟩
  · rintro ⟨_, _, rfl, rfl, rfl, rb, fl, rest⟩
    exact ⟨(), rb, (), fl, (), rest, rfl⟩

theorem decodeVV_ok_iff {w : CommandWord} {op : BitVec 8} (hop : opField w = op) (mk : VReg → VReg → Instr) (i : Instr) :
    decodeVV w mk = .ok i ↔ ∃ rd ra, mk rd ra = i ∧ w = encodeR op (encodeVReg rd) (encodeVReg ra) 0 0 := by
  simp only [decodeVV, illegal_bind_ok, decodeVReg_ok_iff, decodeUnused_ok_iff, decodeNoFlags_ok_iff, decodeRest_ok,
    eq_encodeR_iff, hop, Except.ok.injEq, true_and]
  constructor
  · rintro ⟨_, rd, _, ra, _, rb, _, fl, _, rest, rfl⟩
    exact ⟨_, _, rfl, rd, ra, rb, fl, rest⟩
  · rintro ⟨_, _, rfl, rd, ra, rb, fl, rest⟩
    exact ⟨_, rd, _, ra, (), rb, (), fl, (), rest, rfl⟩

theorem decodeVVV_ok_iff {w : CommandWord} {op : BitVec 8} (hop : opField w = op)
    (mk : VReg → VReg → VReg → Instr) (i : Instr) :
    decodeVVV w mk = .ok i ↔ ∃ rd ra rb, mk rd ra rb = i ∧
      w = encodeR op (encodeVReg rd) (encodeVReg ra) (encodeVReg rb) 0 := by
  simp only [decodeVVV, illegal_bind_ok, decodeVReg_ok_iff, decodeNoFlags_ok_iff, decodeRest_ok, eq_encodeR_iff, hop,
    Except.ok.injEq, true_and]
  constructor
  · rintro ⟨_, rd, _, ra, _, rb, _, fl, _, rest, rfl⟩
    exact ⟨_, _, _, rfl, rd, ra, rb, fl, rest⟩
  · rintro ⟨_, _, _, rfl, rd, ra, rb, fl, rest⟩
    exact ⟨_, rd, _, ra, _, rb, (), fl, (), rest, rfl⟩

theorem decodeEVE_ok_iff {w : CommandWord} {op : BitVec 8} (hop : opField w = op)
    (mk : EReg → VReg → EReg → Instr) (i : Instr) :
    decodeEVE w mk = .ok i ↔ ∃ rd ra rb, mk rd ra rb = i ∧
      w = encodeR op (encodeEReg rd) (encodeVReg ra) (encodeEReg rb) 0 := by
  simp only [decodeEVE, illegal_bind_ok, decodeVReg_ok_iff, decodeNoFlags_ok_iff, decodeRest_ok, eq_encodeR_iff, hop,
    ← decodeEReg_eq_iff, Except.ok.injEq, true_and]
  constructor
  · rintro ⟨_, ra, _, fl, _, rest, rfl⟩
    exact ⟨_, _, _, rfl, rfl, ra, rfl, fl, rest⟩
  · rintro ⟨_, _, _, rfl, rfl, ra, rfl, fl, rest⟩
    exact ⟨_, ra, (), fl, (), rest, rfl⟩

theorem decodeVVE_ok_iff {w : CommandWord} {op : BitVec 8} (hop : opField w = op)
    (mk : VReg → VReg → EReg → Instr) (i : Instr) :
    decodeVVE w mk = .ok i ↔ ∃ rd ra rb, mk rd ra rb = i ∧
      w = encodeR op (encodeVReg rd) (encodeVReg ra) (encodeEReg rb) 0 := by
  simp only [decodeVVE, illegal_bind_ok, decodeVReg_ok_iff, decodeNoFlags_ok_iff, decodeRest_ok, eq_encodeR_iff, hop,
    ← decodeEReg_eq_iff, Except.ok.injEq, true_and]
  constructor
  · rintro ⟨_, rd, _, ra, _, fl, _, rest, rfl⟩
    exact ⟨_, _, _, rfl, rd, ra, rfl, fl, rest⟩
  · rintro ⟨_, _, _, rfl, rd, ra, rfl, fl, rest⟩
    exact ⟨_, rd, _, ra, (), fl, (), rest, rfl⟩

theorem decodeOrder_ok_iff {w : CommandWord} {op : BitVec 8} (hop : opField w = op) (i : Instr) :
    decodeOrder w = .ok i ↔ ∃ rd ra inverse, Instr.order rd ra inverse = i ∧
      w = encodeR op (encodeVReg rd) (encodeEReg ra) 0 (if inverse then 1 else 0) := by
  simp only [decodeOrder, illegal_bind_ok, decodeVReg_ok_iff, decodeUnused_ok_iff, decodeInverseFlag_ok_iff, decodeRest_ok,
    eq_encodeR_iff, hop, ← decodeEReg_eq_iff, Except.ok.injEq, true_and]
  constructor
  · rintro ⟨_, rd, _, rb, _, fl, _, rest, rfl⟩
    exact ⟨_, _, _, rfl, rd, rfl, rb, fl, rest⟩
  · rintro ⟨_, _, _, rfl, rd, rfl, rb, fl, rest⟩
    exact ⟨_, rd, (), rb, _, fl, (), rest, rfl⟩

theorem decodeFromb_ok_iff {w : CommandWord} {op : BitVec 8} (hop : opField w = op) (i : Instr) :
    decodeFromb w = .ok i ↔ ∃ rd off len, Instr.pfromb rd off len = i ∧ i.wf = true ∧
      w = encodeL op (encodeEReg rd) 0 off len := by
  simp only [decodeFromb, illegal_bind_ok, decodeNoWidth_ok_iff, decodePad_ok, eq_encodeL_iff, hop, ← decodeEReg_eq_iff,
    Except.ok.injEq, true_and]
  constructor
  · rintro ⟨_, width, _, pad, rfl⟩
    obtain ⟨offFits, off⟩ := (toNat_eq_immediate_iff (offField w) _).1 rfl
    obtain ⟨lenFits, len⟩ := (toNat_eq_immediate_iff (lenField w) _).1 rfl
    exact ⟨_, _, _, rfl, Bool.and_eq_true_iff.2 ⟨offFits, lenFits⟩, rfl, width, pad, off, len⟩
  · rintro ⟨_, off, len, rfl, fits, rfl, width, pad, hoff, hlen⟩
    obtain ⟨offFits, lenFits⟩ := Bool.and_eq_true_iff.1 fits
    obtain rfl := (toNat_eq_immediate_iff (offField w) off).2 ⟨offFits, hoff⟩
    obtain rfl := (toNat_eq_immediate_iff (lenField w) len).2 ⟨lenFits, hlen⟩
    exact ⟨(), width, (), pad, rfl⟩

theorem decodeLoadv_ok_iff {w : CommandWord} {op : BitVec 8} (hop : opField w = op) (i : Instr) :
    decodeLoadv w = .ok i ↔ ∃ rd off len width, Instr.ploadv rd off len width = i ∧ i.wf = true ∧
      w = encodeL op (encodeVReg rd) (encodeWidth width) off len := by
  simp only [decodeLoadv, illegal_bind_ok, decodeVReg_ok_iff, decodeWidth_ok_iff, decodePad_ok, eq_encodeL_iff, hop,
    Except.ok.injEq, true_and]
  constructor
  · rintro ⟨_, rd, _, width, _, pad, rfl⟩
    obtain ⟨offFits, off⟩ := (toNat_eq_immediate_iff (offField w) _).1 rfl
    obtain ⟨lenFits, len⟩ := (toNat_eq_immediate_iff (lenField w) _).1 rfl
    exact ⟨_, _, _, _, rfl, Bool.and_eq_true_iff.2 ⟨offFits, lenFits⟩, rd, width, pad, off, len⟩
  · rintro ⟨_, off, len, _, rfl, fits, rd, width, pad, hoff, hlen⟩
    obtain ⟨offFits, lenFits⟩ := Bool.and_eq_true_iff.1 fits
    obtain rfl := (toNat_eq_immediate_iff (offField w) off).2 ⟨offFits, hoff⟩
    obtain rfl := (toNat_eq_immediate_iff (lenField w) len).2 ⟨lenFits, hlen⟩
    exact ⟨_, rd, _, width, (), pad, rfl⟩

/-! ### The two directions -/

/-- The command's word is a word of its opcode, and its shape's decoder reads it back. -/
theorem decode_encode {i : Instr} (fits : i.wf = true) : decode (encode i) = .ok i := by
  cases i with
  | padd | psub | pmul | pexp | badd | bsub | bmul | bexp | bdiv =>
    simp only [encode, decode, Laws.opField_encodeR]
    exact (decodeEEE_ok_iff (Laws.opField_encodeR ..) ..).2 ⟨_, _, _, rfl, rfl⟩
  | pinv | pinve | binv | binve =>
    simp only [encode, decode, Laws.opField_encodeR]
    exact (decodeEE_ok_iff (Laws.opField_encodeR ..) ..).2 ⟨_, _, rfl, rfl⟩
  | pbinv | pvanish =>
    simp only [encode, decode, Laws.opField_encodeR]
    exact (decodeVV_ok_iff (Laws.opField_encodeR ..) ..).2 ⟨_, _, rfl, rfl⟩
  | ppmul | ppdiv | pprem | plag | plag4 =>
    simp only [encode, decode, Laws.opField_encodeR]
    exact (decodeVVV_ok_iff (Laws.opField_encodeR ..) ..).2 ⟨_, _, _, rfl, rfl⟩
  | peval =>
    simp only [encode, decode, Laws.opField_encodeR]
    exact (decodeEVE_ok_iff (Laws.opField_encodeR ..) ..).2 ⟨_, _, _, rfl, rfl⟩
  | fft | ifft =>
    simp only [encode, decode, Laws.opField_encodeR]
    exact (decodeVVE_ok_iff (Laws.opField_encodeR ..) ..).2 ⟨_, _, _, rfl, rfl⟩
  | order =>
    simp only [encode, decode, Laws.opField_encodeR]
    exact (decodeOrder_ok_iff (Laws.opField_encodeR ..) ..).2 ⟨_, _, _, rfl, rfl⟩
  | pfromb =>
    simp only [encode, decode, Laws.opField_encodeL]
    exact (decodeFromb_ok_iff (Laws.opField_encodeL ..) ..).2 ⟨_, _, _, rfl, fits, rfl⟩
  | ploadv =>
    simp only [encode, decode, Laws.opField_encodeL]
    exact (decodeLoadv_ok_iff (Laws.opField_encodeL ..) ..).2 ⟨_, _, _, _, rfl, fits, rfl⟩

/-- Settles O1: the word of a command carries its opcode, and the decoder of the command's operand shape reads exactly the
words the encoder writes. -/
theorem decodeInvertsEncode : Obligations.DecodeInvertsEncode := fun _ fits => decode_encode fits

/-- What a decoder gives for the words of one opcode encodes back to the word. -/
def EncodesBack (op : BitVec 8) (d : CommandWord → Except Illegal Instr) : Prop :=
  ∀ w i, opField w = op → d w = .ok i → i.wf = true ∧ encode i = w

theorem decodeEEE_encodesBack (op : BitVec 8) (mk : EReg → EReg → EReg → Instr)
    (hmk : ∀ rd ra rb, (mk rd ra rb).wf = true ∧
      encode (mk rd ra rb) = encodeR op (encodeEReg rd) (encodeEReg ra) (encodeEReg rb) 0 := by
        exact fun _ _ _ => ⟨rfl, rfl⟩) :
    EncodesBack op (decodeEEE · mk) := by
  intro w i hop h
  obtain ⟨rd, ra, rb, rfl, word⟩ := (decodeEEE_ok_iff hop mk i).1 h
  exact word ▸ hmk rd ra rb

theorem decodeEE_encodesBack (op : BitVec 8) (mk : EReg → EReg → Instr)
    (hmk : ∀ rd ra, (mk rd ra).wf = true ∧ encode (mk rd ra) = encodeR op (encodeEReg rd) (encodeEReg ra) 0 0 := by
      exact fun _ _ => ⟨rfl, rfl⟩) :
    EncodesBack op (decodeEE · mk) := by
  intro w i hop h
  obtain ⟨rd, ra, rfl, word⟩ := (decodeEE_ok_iff hop mk i).1 h
  exact word ▸ hmk rd ra

theorem decodeVV_encodesBack (op : BitVec 8) (mk : VReg → VReg → Instr)
    (hmk : ∀ rd ra, (mk rd ra).wf = true ∧ encode (mk rd ra) = encodeR op (encodeVReg rd) (encodeVReg ra) 0 0 := by
      exact fun _ _ => ⟨rfl, rfl⟩) :
    EncodesBack op (decodeVV · mk) := by
  intro w i hop h
  obtain ⟨rd, ra, rfl, word⟩ := (decodeVV_ok_iff hop mk i).1 h
  exact word ▸ hmk rd ra

theorem decodeVVV_encodesBack (op : BitVec 8) (mk : VReg → VReg → VReg → Instr)
    (hmk : ∀ rd ra rb, (mk rd ra rb).wf = true ∧
      encode (mk rd ra rb) = encodeR op (encodeVReg rd) (encodeVReg ra) (encodeVReg rb) 0 := by
        exact fun _ _ _ => ⟨rfl, rfl⟩) :
    EncodesBack op (decodeVVV · mk) := by
  intro w i hop h
  obtain ⟨rd, ra, rb, rfl, word⟩ := (decodeVVV_ok_iff hop mk i).1 h
  exact word ▸ hmk rd ra rb

theorem decodePeval_encodesBack : EncodesBack 0x30 (decodeEVE · .peval) := by
  intro w i hop h
  obtain ⟨rd, ra, rb, rfl, word⟩ := (decodeEVE_ok_iff hop .peval i).1 h
  exact ⟨rfl, word.symm⟩

theorem decodeVVE_encodesBack (op : BitVec 8) (mk : VReg → VReg → EReg → Instr)
    (hmk : ∀ rd ra rb, (mk rd ra rb).wf = true ∧
      encode (mk rd ra rb) = encodeR op (encodeVReg rd) (encodeVReg ra) (encodeEReg rb) 0 := by
        exact fun _ _ _ => ⟨rfl, rfl⟩) :
    EncodesBack op (decodeVVE · mk) := by
  intro w i hop h
  obtain ⟨rd, ra, rb, rfl, word⟩ := (decodeVVE_ok_iff hop mk i).1 h
  exact word ▸ hmk rd ra rb

theorem decodeOrder_encodesBack : EncodesBack 0x40 decodeOrder := by
  intro w i hop h
  obtain ⟨rd, ra, inverse, rfl, word⟩ := (decodeOrder_ok_iff hop i).1 h
  exact ⟨rfl, word.symm⟩

theorem decodeFromb_encodesBack : EncodesBack 0x50 decodeFromb := by
  intro w i hop h
  obtain ⟨rd, off, len, rfl, fits, word⟩ := (decodeFromb_ok_iff hop i).1 h
  exact ⟨fits, word.symm⟩

theorem decodeLoadv_encodesBack : EncodesBack 0x51 decodeLoadv := by
  intro w i hop h
  obtain ⟨rd, off, len, width, rfl, fits, word⟩ := (decodeLoadv_ok_iff hop i).1 h
  exact ⟨fits, word.symm⟩

/-- Row by row of the opcode map, the decoder `decode` runs on the row's opcode encodes back. -/
theorem decode_encodesBack : ∀ r ∈ opcodeRows, EncodesBack (BitVec.ofNat 8 r.op) decode := by
  have runs : ∀ {op : BitVec 8} {d : CommandWord → Except Illegal Instr},
      (∀ w, (opField w).toNat = op.toNat → decode w = d w) → EncodesBack op d → EncodesBack op decode :=
    fun same back w i hop h => back w i hop (same w (congrArg BitVec.toNat hop) ▸ h)
  simp only [opcodeRows, List.forall_mem_cons, List.not_mem_nil, false_implies, implies_true, and_true]
  refine ⟨runs ?_ (decodeEEE_encodesBack 0x10 .padd), runs ?_ (decodeEEE_encodesBack 0x11 .psub),
    runs ?_ (decodeEEE_encodesBack 0x12 .pmul), runs ?_ (decodeEEE_encodesBack 0x13 .pexp),
    runs ?_ (decodeEE_encodesBack 0x14 .pinv), runs ?_ (decodeEE_encodesBack 0x15 .pinve),
    runs ?_ (decodeVV_encodesBack 0x16 .pbinv), runs ?_ (decodeEEE_encodesBack 0x20 .badd),
    runs ?_ (decodeEEE_encodesBack 0x21 .bsub), runs ?_ (decodeEEE_encodesBack 0x22 .bmul),
    runs ?_ (decodeEEE_encodesBack 0x23 .bexp), runs ?_ (decodeEE_encodesBack 0x24 .binv),
    runs ?_ (decodeEE_encodesBack 0x25 .binve), runs ?_ (decodeEEE_encodesBack 0x26 .bdiv),
    runs ?_ decodePeval_encodesBack, runs ?_ (decodeVV_encodesBack 0x31 .pvanish),
    runs ?_ (decodeVVV_encodesBack 0x32 .ppmul), runs ?_ (decodeVVV_encodesBack 0x33 .ppdiv),
    runs ?_ (decodeVVV_encodesBack 0x34 .pprem), runs ?_ (decodeVVV_encodesBack 0x35 .plag),
    runs ?_ (decodeVVV_encodesBack 0x36 .plag4), runs ?_ decodeOrder_encodesBack,
    runs ?_ (decodeVVE_encodesBack 0x41 .fft), runs ?_ (decodeVVE_encodesBack 0x42 .ifft),
    runs ?_ decodeFromb_encodesBack, runs ?_ decodeLoadv_encodesBack⟩
  all_goals
    intro w h
    simp only [decode, h]
    rfl

/-- Settles O2: a word that decodes has the opcode of a row, and the row's decoder encodes back. -/
theorem encodeInvertsDecode : Obligations.EncodeInvertsDecode := by
  intro w i h
  obtain ⟨r, hr, hop⟩ := opField_mem_of_decode_ok h
  exact decode_encodesBack r hr w i (by rw [← hop, BitVec.ofNat_toNat, BitVec.setWidth_eq]) h

end Sys2Proof.Proofs

/-! How every command ends (30_encoding.md R79, 60_exceptions.md R236, R237). The steps of a command give a result of the class
of its destination or raise a failure, and the next state follows from that alone: the whole state is named here once for all
26 commands. -/

namespace Sys2Proof.Proofs

open Sys2Proof Sys2Proof.Machine

/-! ### Results and the states they end in -/

/-- What a command writes to a destination: an element, or a sequence with the command's `ZSKIP`. -/
def Result : Reg → Type
  | .e _ => Elem
  | .v _ => List Elem × Bool

/-- The state a command with destination `d` ends in: the result written whole, or the failure entry. -/
def endState (s : State) : (d : Reg) → Except FailCode (Result d) → State
  | d, .error c => s.failed c.number d
  | .e rd, .ok x => s.gaveE rd x
  | .v rd, .ok (xs, zskip) => s.gaveV rd xs (successStatus zskip)

theorem finishE_eq (rd : EReg) (r : Except FailCode Elem) (s : State) : finishE rd r s = .next (endState s (.e rd) r) := by
  cases r <;> rfl

theorem finishV_eq (rd : VReg) (r : Except FailCode (List Elem × Bool)) (s : State) :
    finishV rd r s = .next (endState s (.v rd) r) := by
  cases r <;> rfl

section
variable (s : State) (d : Reg) (r : Except FailCode (Result d))

@[simp] theorem endState_buf : (endState s d r).buf = s.buf := by cases r <;> cases d <;> rfl
@[simp] theorem endState_bfill : (endState s d r).bfill = s.bfill := by cases r <;> cases d <;> rfl
@[simp] theorem endState_pending : (endState s d r).pending = s.pending := by cases r <;> cases d <;> rfl
@[simp] theorem endState_nmax : (endState s d r).nmax = s.nmax := by cases r <;> cases d <;> rfl
@[simp] theorem endState_vcap : (endState s d r).vcap = s.vcap := by cases r <;> cases d <;> rfl
@[simp] theorem endState_bcap : (endState s d r).bcap = s.bcap := by cases r <;> cases d <;> rfl

end

/-- The flag a result carries; only a sequence has one (10_state.md R27). -/
def Result.zskip : {d : Reg} → Result d → Bool
  | .e _, _ => false
  | .v _, (_, zskip) => zskip

/-- `STATUS` after a result or a failure. -/
def endStatus {d : Reg} : Except FailCode (Result d) → Csr
  | .error c => failureStatus c
  | .ok r => successStatus r.zskip

theorem endState_status (s : State) (d : Reg) (r : Except FailCode (Result d)) : (endState s d r).status = endStatus r := by
  cases r <;> cases d <;> rfl

theorem endState_errsum_error (s : State) (d : Reg) (c : FailCode) :
    (endState s d (.error c)).errsum = s.errsum ||| errsumBit c := by
  cases d <;> rfl

theorem endState_errsum_ok (s : State) (d : Reg) (r : Result d) : (endState s d (.ok r)).errsum = s.errsum := by
  cases d <;> rfl

/-- The contents a result gives its destination. -/
def Result.contents : {d : Reg} → Result d → Option Elem × Option (List Elem)
  | .e _, x => (some x, none)
  | .v _, (xs, _) => (none, some xs)

/-- The contents of the destination after a result or a failure. -/
def endContents {d : Reg} : Except FailCode (Result d) → Option Elem × Option (List Elem)
  | .error _ => (none, none)
  | .ok r => r.contents

theorem endState_contents (s : State) (d : Reg) (r : Except FailCode (Result d)) :
    (endState s d r).contents d = endContents r := by
  match d, r with
  | .e rd, .error _ => exact congrArg (·, none) (setE_get_same s rd none)
  | .v rd, .error _ => exact congrArg (none, ·) (setV_get_same s rd none)
  | .e rd, .ok x => exact congrArg (·, none) (setE_get_same s rd (some x))
  | .v rd, .ok (xs, _) => exact congrArg (none, ·) (setV_get_same s rd (some xs))

/-! ### The steps of each command (R79 steps 3 to 6) -/

/-- A prime-field element as a result. -/
def primeResult (rd : EReg) (r : Except FailCode Nat) : Except FailCode (Result (.e rd)) := r.map toElem

/-- A prime-field sequence as a result, `ZSKIP` staying 0. -/
def primeSequence (rd : VReg) (r : Except FailCode (List Nat)) : Except FailCode (Result (.v rd)) :=
  r.map fun xs => (toElems xs, false)

/-- The result of a command in a state: sources and their checks, the command's own checks, the pure function. -/
def run : (i : Instr) → State → Except FailCode (Result (destination i))
  | .padd rd ra rb, s => primeResult rd (primePairE ra rb s >>= fun p => .ok (pfAdd p.1 p.2))
  | .psub rd ra rb, s => primeResult rd (primePairE ra rb s >>= fun p => .ok (pfSub p.1 p.2))
  | .pmul rd ra rb, s => primeResult rd (primePairE ra rb s >>= fun p => .ok (pfMul p.1 p.2))
  | .pexp rd ra rb, s => primeResult rd (primeBaseExponent ra rb s >>= fun p => .ok (pfExp p.1 p.2))
  | .pinv rd ra, s => primeResult rd (primeE ra s >>= pfInv)
  | .pinve rd ra, s => primeResult rd (primeE ra s >>= pfInv)
  | .pbinv _ ra, s => primeV ra s >>= fun xs => .ok (toElems (pfBatchInv xs), zeroSkipped xs)
  | .badd _ ra rb, s => pairE ra rb s >>= fun p => .ok (bfAdd p.1 p.2)
  | .bsub _ ra rb, s => pairE ra rb s >>= fun p => .ok (bfAdd p.1 p.2)
  | .bmul _ ra rb, s => pairE ra rb s >>= fun p => .ok (bfMul p.1 p.2)
  | .bexp _ ra rb, s => pairE ra rb s >>= fun p => .ok (bfExp p.1 p.2.toNat)
  | .binv _ ra, s => sourceE ra s >>= bfInv
  | .binve _ ra, s => sourceE ra s >>= bfInv
  | .bdiv _ ra rb, s => pairE ra rb s >>= fun p => bfDiv p.1 p.2
  | .peval rd ra rb, s => primeResult rd (primeVE ra rb s >>= fun p => .ok (polyEval p.1 p.2))
  | .pvanish rd ra, s => primeSequence rd (primeV ra s >>= fun roots =>
      fitsVector (roots.length + 1) s >>= fun _ => .ok (polyVanish roots))
  | .ppmul rd ra rb, s => primeSequence rd (primePairV ra rb s >>= fun p =>
      productFits p.1 p.2 s >>= fun _ => .ok (polyMul p.1 p.2))
  | .ppdiv rd ra rb, s => primeSequence rd (primePairV ra rb s >>= fun p => polyDivrem p.1 p.2 >>= fun qr => .ok qr.1)
  | .pprem rd ra rb, s => primeSequence rd (primePairV ra rb s >>= fun p => polyDivrem p.1 p.2 >>= fun qr => .ok qr.2)
  | .plag rd ra rb, s => primeSequence rd (primePairV ra rb s >>= fun p => polyLagrange p.1 p.2)
  | .plag4 rd ra rb, s => primeSequence rd (primePairV ra rb s >>= fun p =>
      fourSamples p.1 p.2 >>= fun _ => polyLagrange p.1 p.2)
  | .order rd ra inverse, s => primeSequence rd (primeE ra s >>= fun root => fftOrder s.nmax.toNat root inverse)
  | .fft rd ra rb, s => primeSequence rd (primeVE ra rb s >>= fun p =>
      fftOrder s.nmax.toNat p.2 false >>= fun t => forwardTransform p.1 t)
  | .ifft rd ra rb, s => primeSequence rd (primeVE ra rb s >>= fun p =>
      fftOrder s.nmax.toNat p.2 true >>= fun t => inverseTransform p.1 t)
  | .pfromb rd off len, s => primeResult rd (bufferOperand off len s >>= fun bytes => .ok (loadFromBytes bytes))
  | .ploadv rd off len w, s => primeSequence rd (bufferOperand off len s >>= fun bytes =>
      fitsVector (chunkCount len (chunkBytes w)) s >>= fun _ => .ok (loadChunks bytes (chunkBytes w)))

/-- Every command answers a next state, the one its result ends in. -/
theorem exec_eq (i : Instr) (s : State) : exec i s = .next (endState s (destination i) (run i s)) := by
  cases i with
  | padd | psub | pmul | pexp | pinv | pinve | badd | bsub | bmul | bexp | binv | binve | bdiv | peval | pfromb =>
    exact finishE_eq ..
  | pbinv | pvanish | ppmul | ppdiv | pprem | plag | plag4 | order | fft | ifft | ploadv => exact finishV_eq ..

theorem exec_of_run_error {i : Instr} {s : State} {c : FailCode} (h : run i s = .error c) :
    exec i s = .next (s.failed c.number (destination i)) := by
  rw [exec_eq, h, endState]

theorem exec_of_run_ok {i : Instr} {s : State} {r : Result (destination i)} (h : run i s = .ok r) :
    exec i s = .next (endState s (destination i) (.ok r)) := by
  rw [exec_eq, h]

/-- The next state of a command is the one its result ends in. -/
theorem eq_endState_of_exec {i : Instr} {s t : State} (h : exec i s = .next t) : t = endState s (destination i) (run i s) := by
  rw [exec_eq] at h
  cases h
  rfl

/-! ### What the result depends on -/

/-- The two states hold the same in each register of the list. -/
def AgreeOn (regs : List Reg) (s s' : State) : Prop := ∀ r ∈ regs, s.contents r = s'.contents r

section
variable {s s' : State}

theorem sourceE_congr {ra : EReg} (same : AgreeOn [.e ra] s s') : sourceE ra s = sourceE ra s' := by
  have value : s.e[ra] = s'.e[ra] := congrArg Prod.fst (same (.e ra) (by simp))
  simp only [sourceE, value]

theorem sourceV_congr {ra : VReg} (same : AgreeOn [.v ra] s s') : sourceV ra s = sourceV ra s' := by
  have value : s.v[ra] = s'.v[ra] := congrArg Prod.snd (same (.v ra) (by simp))
  simp only [sourceV, value]

theorem agreeOn_pair (a b : Reg) : AgreeOn [a, b] s s' ↔ AgreeOn [a] s s' ∧ AgreeOn [b] s s' := by
  simp [AgreeOn]

theorem primeE_congr {ra : EReg} (same : AgreeOn [.e ra] s s') : primeE ra s = primeE ra s' := by
  rw [primeE, primeE, sourceE_congr same]

theorem primeV_congr {ra : VReg} (same : AgreeOn [.v ra] s s') : primeV ra s = primeV ra s' := by
  rw [primeV, primeV, sourceV_congr same]

theorem pairE_congr {ra rb : EReg} (same : AgreeOn [.e ra, .e rb] s s') : pairE ra rb s = pairE ra rb s' := by
  obtain ⟨ha, hb⟩ := (agreeOn_pair ..).1 same
  rw [pairE, pairE, sourceE_congr ha, sourceE_congr hb]

theorem primePairE_congr {ra rb : EReg} (same : AgreeOn [.e ra, .e rb] s s') :
    primePairE ra rb s = primePairE ra rb s' := by
  obtain ⟨ha, hb⟩ := (agreeOn_pair ..).1 same
  rw [primePairE, primePairE, sourceE_congr ha, sourceE_congr hb]

theorem primeBaseExponent_congr {ra rb : EReg} (same : AgreeOn [.e ra, .e rb] s s') :
    primeBaseExponent ra rb s = primeBaseExponent ra rb s' := by
  obtain ⟨ha, hb⟩ := (agreeOn_pair ..).1 same
  rw [primeBaseExponent, primeBaseExponent, sourceE_congr ha, sourceE_congr hb]

theorem primePairV_congr {ra rb : VReg} (same : AgreeOn [.v ra, .v rb] s s') :
    primePairV ra rb s = primePairV ra rb s' := by
  obtain ⟨ha, hb⟩ := (agreeOn_pair ..).1 same
  rw [primePairV, primePairV, sourceV_congr ha, sourceV_congr hb]

theorem primeVE_congr {ra : VReg} {rb : EReg} (same : AgreeOn [.v ra, .e rb] s s') :
    primeVE ra rb s = primeVE ra rb s' := by
  obtain ⟨ha, hb⟩ := (agreeOn_pair ..).1 same
  rw [primeVE, primeVE, sourceV_congr ha, sourceE_congr hb]

theorem fitsVector_congr (n : Nat) (vcap : s.vcap = s'.vcap) : fitsVector n s = fitsVector n s' := by
  rw [fitsVector, fitsVector, vcap]

theorem productFits_congr (a b : List Nat) (vcap : s.vcap = s'.vcap) : productFits a b s = productFits a b s' := by
  rw [productFits, productFits, fitsVector_congr _ vcap]

/-- A load reads only bytes below `BFILL`. -/
theorem bufferOperand_congr {off len : Nat} (bfill : s.bfill = s'.bfill)
    (bytes : ∀ a < s.bfill.toNat, off ≤ a ∧ a < off + len → Memory.read s.buf a = Memory.read s'.buf a) :
    bufferOperand off len s = bufferOperand off len s' := by
  rw [bufferOperand, bufferOperand, ← bfill]
  split
  case isTrue => rfl
  case isFalse within =>
    refine congrArg Except.ok (List.map_congr_left fun k hk => bytes (off + k) ?_ ?_)
    all_goals
      have := List.mem_range.1 hk
      omega

end

/-- The result of a command depends on its sources, `NMAX`, `VCAP` and, for a load, on `BFILL` and the bytes it names. -/
theorem run_congr {i : Instr} {s s' : State} (nmax : s.nmax = s'.nmax) (vcap : s.vcap = s'.vcap)
    (bfill : readsBuffer i = true → s.bfill = s'.bfill) (same : AgreeOn (sources i) s s')
    (bytes : ∀ a < s.bfill.toNat, namesByte a i → Memory.read s.buf a = Memory.read s'.buf a) : run i s = run i s' := by
  cases i with
  | padd | psub | pmul => exact congrArg (fun r => primeResult _ (r >>= _)) (primePairE_congr same)
  | pexp => exact congrArg (fun r => primeResult _ (r >>= _)) (primeBaseExponent_congr same)
  | pinv | pinve => exact congrArg (fun r => primeResult _ (r >>= _)) (primeE_congr same)
  | pbinv => exact congrArg (· >>= _) (primeV_congr same)
  | badd | bsub | bmul | bexp | bdiv => exact congrArg (· >>= _) (pairE_congr same)
  | binv | binve => exact congrArg (· >>= _) (sourceE_congr same)
  | peval => exact congrArg (fun r => primeResult _ (r >>= _)) (primeVE_congr same)
  | ppdiv | pprem | plag | plag4 => exact congrArg (fun r => primeSequence _ (r >>= _)) (primePairV_congr same)
  | pvanish =>
    rw [run, run, primeV_congr same]
    simp only [fitsVector_congr _ vcap]
    rfl
  | ppmul =>
    rw [run, run, primePairV_congr same]
    simp only [productFits_congr _ _ vcap]
    rfl
  | order => rw [run, run, primeE_congr same, nmax]
  | fft | ifft => rw [run, run, primeVE_congr same, nmax]
  | pfromb => exact congrArg (fun r => primeResult _ (r >>= _)) (bufferOperand_congr (bfill rfl) bytes)
  | ploadv =>
    rw [run, run, bufferOperand_congr (bfill rfl) bytes]
    simp only [fitsVector_congr _ vcap]
    rfl

/-- Settles O47: equal results end in equal `STATUS` and equal contents of the destination. -/
theorem outcomeDependsOnlyOnWhatTheCommandNames : Obligations.OutcomeDependsOnlyOnWhatTheCommandNames := by
  intro i s s' nmax vcap bfill same bytes
  have result := run_congr nmax vcap bfill same bytes
  refine ⟨_, _, exec_eq i s, exec_eq i s', ?_, ?_⟩
  · rw [endState_status, endState_status, result]
  · rw [endState_contents, endState_contents, result]

/-! ### `ZSKIP` (10_state.md R27) -/

/-- `ZSKIP` is set exactly after a result that carries it. -/
theorem statusZskip_endStatus_iff {d : Reg} (r : Except FailCode (Result d)) :
    statusZskip (endStatus r) = true ↔ ∃ a, r = .ok a ∧ a.zskip = true := by
  cases r with
  | error c => simp [endStatus, failureStatus_zskip]
  | ok a => simp [endStatus, successStatus_zskip]

theorem zskip_of_primeSequence {rd : VReg} {r : Except FailCode (List Nat)} {a : Result (.v rd)}
    (h : primeSequence rd r = .ok a) : a.zskip = false := by
  obtain ⟨xs, -, rfl⟩ := (except_map_ok ..).1 h
  rfl

/-- Zero is skipped exactly if it is an element. -/
theorem zeroSkipped_toNat_iff (xs : List Elem) : zeroSkipped (xs.map BitVec.toNat) = true ↔ 0#256 ∈ xs := by
  have zero : ∀ x : Elem, x.toNat = 0 ↔ x = 0#256 := fun x => (BitVec.toNat_eq (x := x) (y := 0#256)).symm
  simp [zeroSkipped, zero]

/-- `PBINV` gives the inverses of a canonical source, with `ZSKIP` for a zero. -/
theorem run_pbinv_of_canonical (rd : VReg) {ra : VReg} {s : State} {xs : List Elem} (source : s.v[ra] = some xs)
    (canonical : Canonical xs) :
    run (.pbinv rd ra) s = .ok (toElems (pfBatchInv (xs.map BitVec.toNat)), zeroSkipped (xs.map BitVec.toNat)) :=
  (except_bind_ok ..).2 ⟨_, (primeV_ok ..).2 ⟨xs, source, canonical, rfl⟩, rfl⟩

/-- Only `PBINV` gives a result that carries `ZSKIP`, for a source with a zero. -/
theorem zskip_of_run_iff (i : Instr) (s : State) :
    (∃ a, run i s = .ok a ∧ a.zskip = true) ↔
      ∃ rd ra xs, i = .pbinv rd ra ∧ s.v[ra] = some xs ∧ Canonical xs ∧ 0#256 ∈ xs := by
  constructor
  · rintro ⟨a, ran, flag⟩
    cases i with
    | padd | psub | pmul | pexp | pinv | pinve | badd | bsub | bmul | bexp | binv | binve | bdiv | peval | pfromb =>
      cases flag
    | pvanish | ppmul | ppdiv | pprem | plag | plag4 | order | fft | ifft | ploadv =>
      exact absurd (flag.symm.trans (zskip_of_primeSequence ran)) nofun
    | pbinv rd ra =>
      obtain ⟨ns, source, result⟩ := (except_bind_ok ..).1 ran
      cases result
      obtain ⟨xs, holds, canonical, rfl⟩ := (primeV_ok ..).1 source
      exact ⟨rd, ra, xs, rfl, holds, canonical, (zeroSkipped_toNat_iff xs).1 flag⟩
  · rintro ⟨rd, ra, xs, rfl, holds, canonical, zero⟩
    exact ⟨_, run_pbinv_of_canonical rd holds canonical, (zeroSkipped_toNat_iff xs).2 zero⟩

/-- `STATUS` is overwritten whole. -/
theorem endState_with_status (s : State) (st : Csr) (d : Reg) (r : Except FailCode (Result d)) :
    endState { s with status := st } d r = endState s d r := by
  cases d <;> cases r <;> rfl

/-- A command neither reads `STATUS` nor leaves any of it. -/
theorem exec_with_status (i : Instr) (s : State) (st : Csr) : exec i { s with status := st } = exec i s := by
  have result : run i { s with status := st } = run i s :=
    run_congr rfl rfl (fun _ => rfl) (fun r _ => by cases r <;> rfl) fun _ _ _ => rfl
  rw [exec_eq, exec_eq, result, endState_with_status]

/-- Settles O48: `STATUS` is that of the result, which carries `ZSKIP` for `PBINV` alone. -/
theorem zskipFlagsExactlyTheSkippedZeros : Obligations.ZskipFlagsExactlyTheSkippedZeros := by
  refine ⟨fun i s t h => ?_, exec_with_status, by decide⟩
  rw [eq_endState_of_exec h, endState_status, statusZskip_endStatus_iff, zskip_of_run_iff]

end Sys2Proof.Proofs

/-! The step and the host port (10_state.md R28 to R41, 20_memory.md R55 to R67, 70_reset_and_hazards.md R260): what each event
does to the engine, named once, and the statements on single transactions. -/

namespace Sys2Proof.Proofs

open Sys2Proof Sys2Proof.Machine

/-! ### The step, one equation for each way it goes -/

section
variable {s : State} {ev : HostEvent} {rest : List HostEvent}

theorem step_of_settled {t : State} (next : s.pending = ev :: rest)
    (settled : portEvent ev { s with pending := rest } = .settled t) : step s = .next t := by
  simp only [step, next, settled]

theorem step_of_decoded {w : CommandWord} {i : Instr} (next : s.pending = .hIssue w :: rest) (decoded : decode w = .ok i) :
    step s = .next (answerStatus (endState { s with pending := rest } (destination i) (run i { s with pending := rest }))) := by
  have command : portEvent (.hIssue w) { s with pending := rest } = .command i := by simp only [portEvent, decoded]
  simp only [step, next, command, exec_eq, issued]

theorem step_of_illegal {w : CommandWord} {why : Illegal} (next : s.pending = .hIssue w :: rest)
    (illegal : decode w = .error why) : step s = .next (issueIllegal { s with pending := rest }) :=
  step_of_settled next (by simp only [portEvent, illegal])

end

/-- Settles O8: every event settles at the port or is a command, and every command answers a next state. -/
theorem nothingEndsARun : Obligations.NothingEndsARun := by
  intro s
  rcases next : s.pending with _ | ⟨ev, rest⟩
  · exact ⟨s, by simp only [step, next]⟩
  · cases ev with
    | hIssue w =>
      rcases word : decode w with _ | i
      · exact ⟨_, step_of_illegal next word⟩
      · exact ⟨_, step_of_decoded next word⟩
    | hWriteE | hReadE | hWriteV | hReadV | hLoadBuf | hReadCsr | hClearErr | reset => exact ⟨_, step_of_settled next rfl⟩

/-- Settles O4: the words are evaluated. -/
theorem specWordsDecode : Obligations.SpecWordsDecode := by
  unfold Obligations.SpecWordsDecode
  decide

/-- Settles O5: the state after the command is the one its result ends in, and the answer is its `STATUS`. -/
theorem stepRunsTheDecodedCommand : Obligations.StepRunsTheDecodedCommand := by
  intro s w rest i next decoded
  obtain ⟨fits, -⟩ := encodeInvertsDecode w i decoded
  exact ⟨fits, _, exec_eq .., endState_pending .., step_of_decoded next decoded⟩

/-- Settles O6: the failure entry without a destination touches `STATUS` and `ERRSUM` only. -/
theorem illegalWordChangesNoRegister : Obligations.IllegalWordChangesNoRegister := by
  intro s w rest next noCommand
  rcases word : decode w with why | i
  · exact step_of_illegal next word
  · exact absurd word (noCommand i)

/-- Settles O7: with nothing pending the step is the identity. -/
theorem engineHoldsItsStateBetweenTransactions : Obligations.EngineHoldsItsStateBetweenTransactions := by
  intro s idle
  simp only [step, idle]

/-! ### What each transaction does (20_memory.md R59 to R65) -/

section
variable {s : State}

theorem hostWriteE_of_fits (i : EReg) {val : Nat} (fits : val < 2 ^ 256) :
    hostWriteE i.val val s = (s.setE i (some (BitVec.ofNat 256 val))).answering .done :=
  dif_pos ⟨i.isLt, fits⟩

theorem hostReadE_of_some {i : EReg} {x : Elem} (holds : s.e[i] = some x) :
    hostReadE i.val s = s.answering (.element x) := by
  have value : s.e[i.val] = some x := holds
  simp only [hostReadE, dif_pos i.isLt, value]

theorem hostReadE_of_none {i : EReg} (holds : s.e[i] = none) : hostReadE i.val s = s.answering .noValue := by
  have value : s.e[i.val] = none := holds
  simp only [hostReadE, dif_pos i.isLt, value]

theorem hostWriteV_of_fits (i : VReg) {seq : List Nat} (short : seq.length ≤ s.vcap.toNat) (fits : ∀ x ∈ seq, x < 2 ^ 256) :
    hostWriteV i.val seq s = (s.setV i (some (seq.map (BitVec.ofNat 256)))).answering .done :=
  dif_pos ⟨i.isLt, short, List.all_eq_true.2 fun x hx => decide_eq_true (fits x hx)⟩

theorem hostReadV_of_some {i : VReg} {xs : List Elem} (holds : s.v[i] = some xs) :
    hostReadV i.val s = s.answering (.sequence xs) := by
  have value : s.v[i.val] = some xs := holds
  simp only [hostReadV, dif_pos i.isLt, value]

theorem hostReadV_of_none {i : VReg} (holds : s.v[i] = none) : hostReadV i.val s = s.answering .noValue := by
  have value : s.v[i.val] = none := holds
  simp only [hostReadV, dif_pos i.isLt, value]

theorem hostLoadBuf_of_fits {bytes : List Byte} (fits : bytes.length ≤ s.bcap.toNat) :
    hostLoadBuf bytes s = ({ s with buf := Memory.writeBytes s.buf 0 bytes,
                                    bfill := BitVec.ofNat 64 bytes.length } : State).answering .done :=
  if_pos fits

theorem hostReadCsr_of_some {n : Nat} {x : BitVec 257} (value : s.csr n = some x) :
    hostReadCsr n s = s.answering (.csr x) := by
  simp only [hostReadCsr, value]

/-- The CSRs that exist are `0x00` to `0x09` and `0x10` to `0x17` (10_state.md R28). -/
theorem csr_eq_none_iff (s : State) (n : Nat) : s.csr n = none ↔ (0x09 < n ∧ n < 0x10) ∨ 0x17 < n := by
  unfold State.csr
  split
  case h_11 =>
    split
    case isTrue view => simp only [reduceCtorEq, false_iff]; omega
    case isFalse view => simp only [imp_false, eq_self, true_iff] at *; omega
  all_goals simp

end

/-- Settles O51: within their ranges the two transactions are a register write and an answer. -/
theorem hostWritesAndReadsElementRegisters : Obligations.HostWritesAndReadsElementRegisters := fun s rest i =>
  ⟨fun _ fits next => step_of_settled next (congrArg _ (hostWriteE_of_fits i fits)),
    fun next => ⟨fun _ holds => step_of_settled next
        (congrArg PortResult.settled (hostReadE_of_some (s := { s with pending := rest }) holds)),
      fun holds => step_of_settled next
        (congrArg PortResult.settled (hostReadE_of_none (s := { s with pending := rest }) holds))⟩⟩

/-- Settles O52: within their ranges the two transactions are a register write and an answer. -/
theorem hostWritesAndReadsVectorRegisters : Obligations.HostWritesAndReadsVectorRegisters := fun s rest i =>
  ⟨fun _ short fits next => step_of_settled next
      (congrArg PortResult.settled (hostWriteV_of_fits (s := { s with pending := rest }) i short fits)),
    fun next => ⟨fun _ holds => step_of_settled next
        (congrArg PortResult.settled (hostReadV_of_some (s := { s with pending := rest }) holds)),
      fun holds => step_of_settled next
        (congrArg PortResult.settled (hostReadV_of_none (s := { s with pending := rest }) holds))⟩⟩

/-- Settles O53: the string is stored byte after byte, which keeps the canonical form and every byte beyond it. -/
theorem loadBufReplacesTheByteStream : Obligations.LoadBufReplacesTheByteStream := by
  intro s rest bytes canonical fits next
  refine ⟨_, step_of_settled next (congrArg PortResult.settled
    (hostLoadBuf_of_fits (s := { s with pending := rest }) fits)), Memory.writeBytes_wf 0 bytes canonical,
    fun k hk => ?stored, fun a ha => ?beyond⟩
  case stored => rw [Memory.read_writeBytes canonical, if_pos (by omega), Nat.sub_zero]
  case beyond => rw [Memory.read_writeBytes canonical, if_neg (by omega)]

/-- The bits of `ERRSUM` that exist are 8:1 (10_state.md R33). -/
theorem errsumBits_getLsbD (k : Nat) : errsumBits.getLsbD k = decide (1 ≤ k ∧ k ≤ 8) := by
  have low : ∀ k < 64, errsumBits.getLsbD k = decide (1 ≤ k ∧ k ≤ 8) := by decide
  rcases Nat.lt_or_ge k 64 with hk | hk
  · exact low k hk
  · rw [BitVec.getLsbD_of_ge _ _ hk, eq_comm, decide_eq_false_iff_not]
    omega

theorem errsum_clear_iff (errsum mask : Csr) (k : Nat) :
    (errsum &&& ~~~(mask &&& errsumBits)).getLsbD k = true ↔
      errsum.getLsbD k = true ∧ ¬ (1 ≤ k ∧ k ≤ 8 ∧ mask.getLsbD k = true) := by
  rw [BitVec.getLsbD_and, Bool.and_eq_true]
  refine and_congr_right fun set => ?_
  have inside : k < 64 := by
    by_contra outside
    rw [BitVec.getLsbD_of_ge _ _ (Nat.not_lt.1 outside)] at set
    cases set
  rw [BitVec.getLsbD_not, BitVec.getLsbD_and, errsumBits_getLsbD]
  simp only [inside, decide_true, Bool.true_and, Bool.not_eq_true', ← Bool.not_eq_true, Bool.and_eq_true,
    decide_eq_true_eq]
  tauto

/-- Settles O55: a masked bit of 8:1 is cleared, every other bit stays. -/
theorem clearErrClearsTheMaskedBits : Obligations.ClearErrClearsTheMaskedBits := fun s _ mask next =>
  ⟨_, step_of_settled next rfl, errsum_clear_iff s.errsum mask⟩

/-- Settles O57: reset is one assignment of the whole state. -/
theorem resetLeavesTheResetState : Obligations.ResetLeavesTheResetState := fun _ _ next => step_of_settled next rfl

theorem portEvent_of_outOfRange {s : State} {ev : HostEvent} (out : outOfRange s ev) :
    portEvent ev s = .settled (refuseTransaction s) := by
  cases ev with
  | hWriteE i val => exact congrArg _ (dif_neg (by simp only [outOfRange] at out; omega))
  | hReadE i => exact congrArg _ (dif_neg (Nat.not_lt.2 out))
  | hWriteV i seq =>
    refine congrArg _ (dif_neg ?_)
    rintro ⟨index, short, fits⟩
    rcases out with far | long | ⟨x, hx, wide⟩
    · omega
    · omega
    · have := List.all_eq_true.1 fits x hx
      simp at this
      omega
  | hReadV i => exact congrArg _ (dif_neg (Nat.not_lt.2 out))
  | hLoadBuf bytes => exact congrArg _ (if_neg (Nat.not_le.2 out))
  | hReadCsr n => simp only [portEvent, hostReadCsr, (csr_eq_none_iff s n).2 out]
  | hClearErr | hIssue | reset => exact out.elim

/-- Settles O56: every argument out of its range is refused at the port. -/
theorem outOfRangeTransactionsChangeNothing : Obligations.OutOfRangeTransactionsChangeNothing := fun _ _ _ next out =>
  step_of_settled next (portEvent_of_outOfRange (by exact out))

/-! ### The CSRs (10_state.md R28 to R37) -/

/-- Bit `k` of a file's valid bits says whether register `k` exists and holds a value. -/
theorem testBit_validBits {α : Type} (file : List (Option α)) (k : Nat) :
    (validBits file).testBit k = true ↔ ∃ h : k < file.length, file[k].isSome = true := by
  induction file generalizing k with
  | nil => simp [validBits]
  | cons r file ih =>
    have bit : (if r.isSome then 1 else 0) < 2 := by split <;> decide
    cases k with
    | zero => cases r <;> simp [validBits, Nat.testBit_zero, Nat.add_mod]
    | succ k =>
      have half : ((if r.isSome then 1 else 0) + 2 * validBits file) / 2 = validBits file := by omega
      rw [validBits, Nat.testBit_succ, half, ih]
      simp

theorem getLsbD_view_iff {α : Type} {n : Nat} (file : Vector (Option α) n) (small : n ≤ 64) (k : Nat) :
    ((BitVec.ofNat 64 (validBits file.toList)).setWidth 257).getLsbD k = true ↔
      ∃ i : Fin n, i.val = k ∧ file[i].isSome = true := by
  have width : k < n → k < 257 ∧ k < 64 := by omega
  rw [BitVec.getLsbD_setWidth, BitVec.getLsbD_ofNat, Bool.and_eq_true, Bool.and_eq_true, testBit_validBits]
  simp only [decide_eq_true_eq, Vector.length_toList]
  constructor
  · rintro ⟨-, -, inside, some⟩
    exact ⟨⟨k, inside⟩, rfl, by simpa using some⟩
  · rintro ⟨i, rfl, some⟩
    obtain ⟨wide, small⟩ := width i.isLt
    exact ⟨wide, small, i.isLt, by simpa using some⟩

theorem csr_vlen (s : State) (i : VReg) : s.csr (0x10 + i.val) = some ((s.vlen i).setWidth 257) := by
  fin_cases i <;> rfl

theorem vlen_of_some {s : State} {i : VReg} {xs : List Elem} (holds : s.v[i] = some xs) :
    s.vlen i = BitVec.ofNat 64 xs.length := by
  rw [State.vlen, holds]

theorem vlen_of_none {s : State} {i : VReg} (holds : s.v[i] = none) : s.vlen i = 0#64 := by
  rw [State.vlen, holds]

/-- The terms of `Q` (10_state.md R30). -/
theorem binaryQ_getLsbD_iff (k : Nat) :
    (BitVec.ofNat 257 Config.binaryQ).getLsbD k = true ↔ k ∈ [256, 241, 178, 121, 0] := by
  have inside : ∀ k < 257, ((BitVec.ofNat 257 Config.binaryQ).getLsbD k = true ↔ k ∈ [256, 241, 178, 121, 0]) := by
    decide +kernel
  rcases Nat.lt_or_ge k 257 with hk | hk
  · exact inside k hk
  · rw [BitVec.getLsbD_of_ge _ _ hk]
    simp
    omega

/-- Settles O54: the CSRs are the named fields and views; an event of reading one changes nothing. -/
theorem csrReadsReturnTheRegistersAndViews : Obligations.CsrReadsReturnTheRegistersAndViews := by
  intro s
  refine ⟨rfl, ⟨_, rfl, binaryQ_getLsbD_iff⟩, rfl, rfl, rfl, rfl, rfl, rfl, ⟨_, rfl, getLsbD_view_iff s.e (by decide)⟩,
    ⟨_, rfl, getLsbD_view_iff s.v (by decide)⟩, fun i => ?length, csr_eq_none_iff s, fun n x rest value next =>
      step_of_settled next (congrArg PortResult.settled (hostReadCsr_of_some (s := { s with pending := rest }) value))⟩
  case length =>
    rw [csr_vlen]
    exact ⟨fun xs holds => by rw [vlen_of_some holds], fun holds => by rw [vlen_of_none holds, BitVec.setWidth_zero]⟩

/-! ### The reset state (10_state.md R41) -/

theorem nmax_bounds : 256 ≤ Config.nmax ∧ Config.nmax ≤ 2 ^ 32 := by
  have exponent : 8 + Config.nmaxChoice % 25 ≤ 32 := by omega
  exact ⟨Nat.pow_le_pow_right Nat.two_pos (Nat.le_add_right 8 _), Nat.pow_le_pow_right Nat.two_pos exponent⟩

theorem vcap_bounds : Config.nmax ≤ Config.vcap ∧ Config.vcap < 2 ^ 64 := by
  have nmax := nmax_bounds
  have choice : Config.vcapChoice % (2 ^ 64 - Config.nmax) < 2 ^ 64 - Config.nmax := Nat.mod_lt _ (by omega)
  unfold Config.vcap
  omega

theorem bcap_bounds : 32 ≤ Config.bcap ∧ Config.bcap ≤ 2 ^ 24 := by
  have choice : Config.bcapChoice % (2 ^ 24 - 31) < 2 ^ 24 - 31 := Nat.mod_lt _ (by decide)
  unfold Config.bcap
  omega

/-- The configured parameters fit their CSRs, and lie within the bounds of 00_scope.md R8. -/
theorem reset_paramsLegal : State.reset.paramsLegal := by
  obtain ⟨nmaxLow, nmaxHigh⟩ := nmax_bounds
  obtain ⟨vcapLow, vcapHigh⟩ := vcap_bounds
  obtain ⟨bcapLow, bcapHigh⟩ := bcap_bounds
  have nmax : State.reset.nmax.toNat = Config.nmax := Nat.mod_eq_of_lt (by omega)
  have vcap : State.reset.vcap.toNat = Config.vcap := Nat.mod_eq_of_lt vcapHigh
  have bcap : State.reset.bcap.toNat = Config.bcap := Nat.mod_eq_of_lt (by omega)
  simp only [State.paramsLegal, nmax, vcap, bcap]
  exact ⟨⟨_, rfl⟩, nmaxLow, nmaxHigh, vcapLow, bcapLow, bcapHigh⟩

theorem reset_e (i : EReg) : State.reset.e[i] = none := Vector.getElem_replicate ..

theorem reset_v (i : VReg) : State.reset.v[i] = none := Vector.getElem_replicate ..

/-- What reset leaves is legal, whatever the parameters. -/
theorem platformReset_legal {s : State} (params : s.paramsLegal) : (platformReset s).Legal where
  params := params
  vectors i := by
    simp
  buffer := ⟨Memory.wf_nil, by simp, by simp⟩
  status := .inr (by simp)
  errsum k set := by simp at set

/-- Settles O9: the registers are `none` by definition, the views read 0 of them, and the parameters are within bounds. -/
theorem resetStateIsLegal : Obligations.ResetStateIsLegal :=
  ⟨reset_e, reset_v, rfl, rfl, rfl, by decide, by decide, fun i => vlen_of_none (reset_v i),
    platformReset_legal reset_paramsLegal⟩

/-! ### What an event can do -/

/-- How the port settles an event: an access to registers, or one of the four events that change something else. -/
inductive Settles (s : State) : HostEvent → State → Prop where
  | access (ev : HostEvent) (e : Vector (Option Elem) 16) (v : Vector (Option (List Elem)) 8) (answer : Option Answer)
      (fits : ∀ i : VReg, v[i] = s.v[i] ∨ (v[i].getD []).length ≤ s.vcap.toNat) :
      Settles s ev { s with e := e, v := v, answer := answer }
  | load (bytes : List Byte) (fits : bytes.length ≤ s.bcap.toNat) :
      Settles s (.hLoadBuf bytes) { s with buf := Memory.writeBytes s.buf 0 bytes, bfill := BitVec.ofNat 64 bytes.length,
                                           answer := some .done }
  | clear (mask : BitVec 64) : Settles s (.hClearErr mask) (hostClearErr mask s)
  | illegal (w : CommandWord) : Settles s (.hIssue w) (issueIllegal s)
  | reset : Settles s .reset (platformReset s)

theorem Settles.of_answer (s : State) (ev : HostEvent) (answer : Answer) : Settles s ev (s.answering answer) :=
  .access ev s.e s.v (some answer) fun _ => .inl rfl

theorem settles_of_portEvent {ev : HostEvent} {s t : State} (h : portEvent ev s = .settled t) : Settles s ev t := by
  cases ev with
  | hWriteE i val =>
    cases h
    unfold hostWriteE
    split
    · exact .access _ _ s.v _ fun _ => .inl rfl
    · exact .of_answer ..
  | hReadE i =>
    cases h
    unfold hostReadE
    split
    · split <;> exact .of_answer ..
    · exact .of_answer ..
  | hWriteV i seq =>
    cases h
    unfold hostWriteV
    split
    case isTrue inside =>
      obtain ⟨index, short, -⟩ := inside
      refine .access _ s.e _ _ fun j => ?_
      by_cases same : (⟨i, index⟩ : VReg) = j
      · subst same
        right
        rw [setV_get_same, Option.getD_some, List.length_map]
        exact short
      · exact .inl (setV_get_other s _ _ _ same)
    case isFalse => exact .of_answer ..
  | hReadV i =>
    cases h
    unfold hostReadV
    split
    · split <;> exact .of_answer ..
    · exact .of_answer ..
  | hLoadBuf bytes =>
    cases h
    unfold hostLoadBuf
    split
    case isTrue fits => exact .load bytes fits
    case isFalse => exact .of_answer ..
  | hReadCsr n =>
    cases h
    unfold hostReadCsr
    split <;> exact .of_answer ..
  | hClearErr mask =>
    cases h
    exact .clear mask
  | hIssue w =>
    simp only [portEvent] at h
    split at h <;> cases h
    exact .illegal w
  | reset =>
    cases h
    exact .reset

/-- What a step can do: nothing, settle an event at the port, or run a command. -/
inductive Steps (s : State) : State → Prop where
  | idle (none : s.pending = []) : Steps s s
  | settled {ev : HostEvent} {rest : List HostEvent} {t : State} (next : s.pending = ev :: rest)
      (settles : Settles { s with pending := rest } ev t) : Steps s t
  | command {w : CommandWord} {rest : List HostEvent} (i : Instr) (next : s.pending = .hIssue w :: rest) :
      Steps s (answerStatus (endState { s with pending := rest } (destination i) (run i { s with pending := rest })))

theorem steps_of_step {s t : State} (h : step s = .next t) : Steps s t := by
  rcases step_cases s t h with ⟨none, rfl⟩ | ⟨ev, rest, next, settled⟩ | ⟨w, rest, i, u, next, -, ran, rfl⟩
  · exact .idle none
  · exact .settled next (settles_of_portEvent settled)
  · rw [eq_endState_of_exec ran]
    exact .command i next

/-- Settles O50: read off from what each kind of step changes. -/
theorem parametersAreReadOnly : Obligations.ParametersAreReadOnly := by
  intro s t h
  cases steps_of_step h with
  | idle => exact ⟨rfl, rfl, rfl, .inl ⟨rfl, rfl⟩, .inl rfl⟩
  | @settled ev rest _ next settles =>
    cases settles with
    | access => exact ⟨rfl, rfl, rfl, .inl ⟨rfl, rfl⟩, .inl rfl⟩
    | load bytes => exact ⟨rfl, rfl, rfl, .inr ⟨rest, .inr ⟨bytes, next⟩⟩, .inl rfl⟩
    | clear => exact ⟨rfl, rfl, rfl, .inl ⟨rfl, rfl⟩, .inl rfl⟩
    | illegal w => exact ⟨rfl, rfl, rfl, .inl ⟨rfl, rfl⟩, .inr ⟨rest, .inr ⟨w, next⟩⟩⟩
    | reset => exact ⟨rfl, rfl, rfl, .inr ⟨rest, .inl next⟩, .inr ⟨rest, .inl next⟩⟩
  | @command w rest i next =>
    simp only [answerStatus, answering_nmax, answering_vcap, answering_bcap, answering_buf, answering_bfill, endState_nmax,
      endState_vcap, endState_bcap, endState_buf, endState_bfill, true_and]
    exact ⟨.inl trivial, .inr ⟨rest, .inr ⟨w, next⟩⟩⟩

theorem failureStatus_toNat (c : FailCode) : (failureStatus c).toNat = c.number := by cases c <;> rfl

/-- Raising a failure keeps the bits of `ERRSUM`, and adds at most the bit of its code. -/
theorem errsum_raise (errsum : Csr) (c : FailCode) (k : Nat) :
    (errsum.getLsbD k = true → (errsum ||| errsumBit c).getLsbD k = true) ∧
      (errsum.getLsbD k = false → (errsum ||| errsumBit c).getLsbD k = true →
        1 ≤ k ∧ k ≤ 8 ∧ (failureStatus c).toNat = k) := by
  rw [BitVec.getLsbD_or, errsumBit_getLsbD, failureStatus_toNat]
  refine ⟨fun set => by rw [set, Bool.true_or], fun clear set => ?_⟩
  rw [clear, Bool.false_or, decide_eq_true_eq] at set
  obtain ⟨low, high⟩ := c.number_bounds
  exact ⟨set ▸ low, set ▸ high, set.symm⟩

/-- A command adds at most the bit of the code it leaves in `STATUS`. -/
theorem endState_errsum (s : State) (d : Reg) (r : Except FailCode (Result d)) (k : Nat) :
    (s.errsum.getLsbD k = true → (endState s d r).errsum.getLsbD k = true) ∧
      (s.errsum.getLsbD k = false → (endState s d r).errsum.getLsbD k = true →
        1 ≤ k ∧ k ≤ 8 ∧ (endState s d r).status.toNat = k) := by
  cases r with
  | error c =>
    rw [endState_errsum_error, endState_status]
    exact errsum_raise s.errsum c k
  | ok a =>
    rw [endState_errsum_ok]
    exact ⟨id, fun clear set => absurd (clear.symm.trans set) nofun⟩

/-- Settles O49: only `H_ISSUE` sets a bit, the one of the code it leaves in `STATUS`; only `H_CLEAR_ERR` and reset clear. -/
theorem errsumIsSticky : Obligations.ErrsumIsSticky := by
  intro s t k h
  have absent : ∀ {b : Bool} {p : Prop}, b = false → b = true → p := fun clear set => absurd (clear.symm.trans set) nofun
  cases steps_of_step h with
  | idle => exact ⟨.inl, absent⟩
  | @settled ev rest _ next settles =>
    cases settles with
    | access | load => exact ⟨.inl, absent⟩
    | clear mask =>
      refine ⟨fun set => ?_, fun clear set => absent clear ((errsum_clear_iff s.errsum mask k).1 set).1⟩
      by_cases masked : mask.getLsbD k = true
      · exact .inr ⟨rest, .inr ⟨mask, next, masked⟩⟩
      · exact .inl ((errsum_clear_iff s.errsum mask k).2 ⟨set, fun ⟨_, _, inMask⟩ => masked inMask⟩)
    | illegal w =>
      obtain ⟨keeps, adds⟩ := errsum_raise s.errsum .illegal k
      refine ⟨fun set => .inl (keeps set), fun clear set => ?_⟩
      obtain ⟨low, high, status⟩ := adds clear set
      exact ⟨low, high, status, w, rest, next⟩
    | reset => exact ⟨fun _ => .inr ⟨rest, .inl next⟩, fun _ set => (by simp at set)⟩
  | @command w rest i next =>
    obtain ⟨keeps, adds⟩ := endState_errsum { s with pending := rest } (destination i) (run i { s with pending := rest }) k
    refine ⟨fun set => .inl (keeps set), fun clear set => ?_⟩
    obtain ⟨low, high, status⟩ := adds clear set
    exact ⟨low, high, status, w, rest, next⟩

end Sys2Proof.Proofs

/-! Inverses in the prime field (40_prime_field.md R102, R107 to R109): the extended Euclidean loop and the batch schedule give
the Fermat inverse, and the commands that write inverses. -/

namespace Sys2Proof.Proofs

open Sys2Proof Sys2Proof.Machine

/-! ### Canonical integers and their images in `ZMod P` -/

/-- Canonical integers with one image are equal. -/
theorem eq_of_natCast_eq {a b : Nat} (ha : a < Config.primeP) (hb : b < Config.primeP)
    (h : (a : ZMod Config.primeP) = b) : a = b := by
  rwa [ZMod.natCast_eq_natCast_iff', Nat.mod_eq_of_lt ha, Nat.mod_eq_of_lt hb] at h

theorem natCast_ne_zero {a : Nat} (ha : a < Config.primeP) (hne : a ≠ 0) : (a : ZMod Config.primeP) ≠ 0 := fun h =>
  hne (eq_of_natCast_eq ha primeP_pos (h.trans Nat.cast_zero.symm))

theorem pfInvNonzero_lt (x : Nat) : pfInvNonzero x < Config.primeP := pfExp_lt ..

theorem natCast_mul_pfInvNonzero {x : Nat} (hx : x < Config.primeP) (hne : x ≠ 0) :
    (x : ZMod Config.primeP) * pfInvNonzero x = 1 := by
  rw [← natCast_pfMul, pfMul_pfInvNonzero hx hne, Nat.cast_one]

/-- The Fermat inverse is the only canonical inverse. -/
theorem eq_pfInvNonzero {x y : Nat} (hx : x < Config.primeP) (hne : x ≠ 0) (hy : y < Config.primeP)
    (h : (y : ZMod Config.primeP) * x = 1) : y = pfInvNonzero x :=
  eq_of_natCast_eq hy (pfInvNonzero_lt x) (left_inv_eq_right_inv h (natCast_mul_pfInvNonzero hx hne))

theorem pfMul_ne_zero {x y : Nat} (hx : x < Config.primeP) (hxne : x ≠ 0) (hy : y < Config.primeP) (hyne : y ≠ 0) :
    pfMul x y ≠ 0 := by
  have : Fact (Nat.Prime Config.primeP) := ⟨primeP_prime⟩
  intro zero
  have product := natCast_pfMul x y
  rw [zero, Nat.cast_zero, eq_comm] at product
  exact mul_ne_zero (natCast_ne_zero hx hxne) (natCast_ne_zero hy hyne) product

/-- Settles O12: `pf.exp` is the residue of the power, and the other two are products with such a power. -/
theorem primeFieldPowersAndInverses : Obligations.PrimeFieldPowersAndInverses := by
  intro x y e _ _
  refine ⟨pfExp_eq_mod x e, fun hne => ?inv, rfl, fun hne => ?div, rfl⟩
  case inv => rw [pfInv_of_ne_zero hne, pfInvNonzero_eq_mod]
  case div =>
    refine (except_bind_ok ..).2 ⟨_, pfInv_of_ne_zero hne, ?_⟩
    rw [pfMul, pfInvNonzero_eq_mod, Nat.mul_mod_mod]

/-! ### The extended Euclidean inverse (R108) -/

/-- The product of the two remainders halves at every division step. -/
theorem remainder_mul_lt {low high k : Nat} (less : low < high) (bound : low * high < 2 ^ (k + 1)) :
    high % low * low < 2 ^ k := by
  rcases Nat.eq_zero_or_pos low with rfl | positive
  · simp
  · have small : high % low < low := Nat.mod_lt _ positive
    have half : 2 * (high % low) ≤ high := by
      have split := Nat.mod_add_div high low
      have quotient : 1 ≤ high / low := (Nat.one_le_div_iff positive).2 less.le
      nlinarith
    have twice : 2 * (high % low * low) ≤ low * high := by nlinarith
    rw [pow_succ] at bound
    omega

/-- The loop keeps its remainders coprime and its multipliers those of the remainders modulo `P`; with fuel for the remainders'
product it ends at remainder 1. -/
theorem pfEuclidLoop_mul (x : ZMod Config.primeP) (fuel : Nat) (lm hm : Int) (low high : Nat) (positive : 0 < low)
    (less : low < high) (coprime : low.Coprime high) (bound : low * high < 2 ^ fuel)
    (hlow : (lm : ZMod Config.primeP) * x = low) (hhigh : (hm : ZMod Config.primeP) * x = high) :
    (pfEuclidLoop fuel lm hm low high : ZMod Config.primeP) * x = 1 := by
  induction fuel generalizing lm hm low high with
  | zero =>
    have : 0 < low * high := Nat.mul_pos positive (by omega)
    omega
  | succ fuel ih =>
    rw [pfEuclidLoop]
    split
    case isTrue larger =>
      have remainder : high - low * (high / low) = high % low := (Nat.mod_eq_sub ..).symm
      have next : (high % low).Coprime low := by rwa [Nat.Coprime, ← Nat.gcd_rec]
      have nonzero : 0 < high % low := by
        refine Nat.pos_of_ne_zero fun zero => ?_
        rw [zero, Nat.coprime_zero_left] at next
        omega
      have multiplier : ((hm - lm * (high / low : Nat) : Int) : ZMod Config.primeP) * x = (high % low : Nat) := by
        have split := congrArg (Nat.cast : Nat → ZMod Config.primeP) (Nat.mod_add_div high low)
        rw [Nat.cast_add, Nat.cast_mul] at split
        rw [Int.cast_sub, Int.cast_mul, Int.cast_natCast]
        linear_combination hhigh - split - (high / low : Nat) * hlow
      simp only [remainder]
      exact ih _ _ _ _ nonzero (Nat.mod_lt _ positive) next (remainder_mul_lt less bound) multiplier hlow
    case isFalse one =>
      obtain rfl : low = 1 := by omega
      rw [hlow, Nat.cast_one]

/-- Settles O14: the multiplier at remainder 1 is an inverse, and there is only one. -/
theorem extendedEuclidGivesTheFermatInverse : Obligations.ExtendedEuclidGivesTheFermatInverse := by
  intro x positive below
  have coprime : x.Coprime Config.primeP := (Nat.coprime_of_lt_prime positive.ne' below primeP_prime).symm
  have small : Config.primeP < 2 ^ 256 := by decide
  have bits : 512 = 256 + 256 := rfl
  have bound : x * Config.primeP < 2 ^ 512 := by
    rw [bits, pow_add]
    exact Nat.mul_lt_mul'' (below.trans small) small
  have inverse := pfEuclidLoop_mul x 512 1 0 x Config.primeP positive below coprime bound (by simp) (by simp)
  have nonneg := Int.emod_nonneg (pfEuclidLoop 512 1 0 x Config.primeP) (Int.natCast_ne_zero.2 primeP_pos.ne')
  have less := Int.emod_lt_of_pos (pfEuclidLoop 512 1 0 x Config.primeP) (Int.natCast_pos.2 primeP_pos)
  have image : (pfEuclidInv x : ZMod Config.primeP) = pfEuclidLoop 512 1 0 x Config.primeP := by
    rw [pfEuclidInv, ← Int.cast_natCast, Int.toNat_of_nonneg nonneg, ZMod.intCast_mod]
  rw [← pfInvNonzero_eq_mod]
  exact eq_pfInvNonzero below positive.ne' (by rw [pfEuclidInv]; omega) (image ▸ inverse)

/-! ### The batch schedule (R109) -/

theorem pfBatchInv_cons (x : Nat) (xs : List Nat) :
    pfBatchInv (x :: xs) = (if x = 0 then 0 else pfInvNonzero x) :: pfBatchInv xs := rfl

/-- From the inverse of the product of `p` with the non-zero elements, the unwinding writes every inverse and is left with the
inverse of `p`. -/
theorem batchUnwind_eq (xs : List Nat) (hxs : ∀ x ∈ xs, x < Config.primeP) (p : Nat) (hp : p < Config.primeP) (hne : p ≠ 0)
    (rest : List (Nat × Nat)) (out : List Nat) :
    batchUnwind (pfInvNonzero ((batchRunningProducts p xs).getLastD p))
        ((xs.zip (p :: batchRunningProducts p xs)).reverse ++ rest) out =
      batchUnwind (pfInvNonzero p) rest (pfBatchInv xs ++ out) := by
  induction xs generalizing p rest out with
  | nil => rfl
  | cons x xs ih =>
    obtain ⟨hx, hxs⟩ := List.forall_mem_cons.1 hxs
    simp only [batchRunningProducts, List.getLastD_cons, List.zip_cons_cons, List.reverse_cons, List.append_assoc,
      List.cons_append, List.nil_append, pfBatchInv_cons]
    by_cases zero : x = 0
    · have same : pfMul p 1 = p := by rw [pfMul, mul_one, Nat.mod_eq_of_lt hp]
      rw [if_pos zero, same, ih hxs p hp hne, batchUnwind, if_pos zero, if_pos zero]
    · have hpx : pfMul p x ≠ 0 := pfMul_ne_zero hp hne hx zero
      have inverse := natCast_mul_pfInvNonzero (pfMul_lt p x) hpx
      rw [natCast_pfMul] at inverse
      have ofElement : pfMul p (pfInvNonzero (pfMul p x)) = pfInvNonzero x := by
        refine eq_pfInvNonzero hx zero (pfMul_lt ..) ?_
        rw [natCast_pfMul]
        linear_combination inverse
      have ofProduct : pfMul (pfInvNonzero (pfMul p x)) x = pfInvNonzero p := by
        refine eq_pfInvNonzero hp hne (pfMul_lt ..) ?_
        rw [natCast_pfMul]
        linear_combination inverse
      rw [if_neg zero, ih hxs _ (pfMul_lt p x) hpx, batchUnwind, if_neg zero, if_neg zero, ofElement, ofProduct]

/-- Settles O15: the schedule unwinds from the inverse of the whole product down to the empty product 1. -/
theorem batchScheduleGivesElementwiseInverses : Obligations.BatchScheduleGivesElementwiseInverses := by
  intro xs hxs
  have unwound := batchUnwind_eq xs hxs 1 primeP_prime.one_lt one_ne_zero [] []
  rw [List.append_nil, List.append_nil] at unwound
  rw [pfBatchSchedule, List.getLastD_cons, unwound, batchUnwind]

/-! ### `PINV`, `PINVE` (R107, R108) and `PBINV` (R109) -/

theorem toNat_ne_zero {x : Elem} (hne : x ≠ 0#256) : x.toNat ≠ 0 := fun h => hne (BitVec.eq_of_toNat_eq h)

/-- The command writes `pf.inv` of one canonical element. -/
structure PrimeInverseCommand (i : Instr) (rd ra : EReg) : Prop where
  exec_eq : ∀ s, exec i s = finishPrimeE rd (primeE ra s >>= pfInv) s
  opcode : (opField (encode i)).toNat = opcodeOf i

theorem pinv_primeInverseCommand (rd ra : EReg) : PrimeInverseCommand (.pinv rd ra) rd ra :=
  ⟨fun _ => rfl, Laws.OpcodeInWord.pinv rd ra⟩

theorem pinve_primeInverseCommand (rd ra : EReg) : PrimeInverseCommand (.pinve rd ra) rd ra :=
  ⟨fun _ => rfl, Laws.OpcodeInWord.pinve rd ra⟩

/-- Settles O20: both commands read one canonical element and end as `pf.inv` does. -/
theorem pinvAndPinveWriteTheInverse : Obligations.PinvAndPinveWriteTheInverse := by
  intro rd ra s i hi
  have command : PrimeInverseCommand i rd ra := by
    rcases List.mem_pair.1 hi with rfl | rfl
    · exact pinv_primeInverseCommand rd ra
    · exact pinve_primeInverseCommand rd ra
  refine ⟨fun x holds canonical hne => ?gives, fun holds => ?zero, fun x holds outside => ?range,
    (missingSourceFailsWithInvalid i s).1, command.opcode⟩
  case gives =>
    have operand := (primeE_ok ra s _).2 ⟨x, holds, canonical, rfl⟩
    rw [command.exec_eq, finishPrimeE_of_operands_ok operand, pfInv_of_ne_zero (toNat_ne_zero hne), pfInvNonzero_eq_mod]
    rfl
  case zero =>
    have operand := (primeE_ok ra s 0).2 ⟨_, holds, primeP_pos, rfl⟩
    rw [command.exec_eq, finishPrimeE_of_operands_ok operand]
    rfl
  case range =>
    have operand := (primeE_error ra s .range).2 (.inr ⟨rfl, x, holds, outside⟩)
    exact (command.exec_eq s).trans (finishPrimeE_of_operands_error operand ..)

theorem toElems_pfBatchInv (xs : List Elem) :
    toElems (pfBatchInv (xs.map BitVec.toNat)) =
      xs.map fun x => if x = 0#256 then 0#256 else BitVec.ofNat 256 (x.toNat ^ (Config.primeP - 2) % Config.primeP) := by
  rw [toElems, pfBatchInv, List.map_map, List.map_map]
  refine List.map_congr_left fun x _ => ?_
  by_cases zero : x = 0#256
  · simp [zero, toElem]
  · simp only [Function.comp_apply, if_neg zero, if_neg (toNat_ne_zero zero), pfInvNonzero_eq_mod, toElem]

theorem successStatus_zeroSkipped (xs : List Elem) :
    successStatus (zeroSkipped (xs.map BitVec.toNat)) = if 0#256 ∈ xs then 0x100#64 else 0#64 := by
  simp only [successStatus, zeroSkipped_toNat_iff]

/-- Settles O21: the result is the batch inverse of the source, with `ZSKIP` for a zero. -/
theorem pbinvInvertsEveryElement : Obligations.PbinvInvertsEveryElement := by
  intro rd ra s
  refine ⟨fun xs holds canonical => ?gives, fun xs holds outside => ?range, (missingSourceFailsWithInvalid _ s).1,
    Laws.opField_encodeR ..⟩
  case gives =>
    rw [exec_of_run_ok (run_pbinv_of_canonical rd holds canonical), ← toElems_pfBatchInv, ← successStatus_zeroSkipped]
    rfl
  case range =>
    have operand := (primeV_error ra s .range).2 (.inr ⟨rfl, xs, holds, outside⟩)
    exact exec_of_run_error (i := .pbinv rd ra) ((except_bind_error ..).2 (.inl operand))

end Sys2Proof.Proofs

/-! Powers and inverses in the binary field (41_binary_field.md R133 to R135, R139 to R142). An element is read as its residue
class modulo `Q`, where `bf.exp` is the power; the Euclidean loop keeps its multipliers those of its remainders there. -/

namespace Sys2Proof.Proofs

open Sys2Proof Sys2Proof.Machine Sys2Proof.Meaning

/-! ### Residue classes (R131) -/

theorem residueClass_injective : Function.Injective residueClass := by
  intro x y h
  have reduced := bitPolynomial_eq_modQ_of_residueClass_eq (h : residueClass x = AdjoinRoot.mk _ (bitPolynomial y.toNat))
  rw [← bitPolynomial_eq_modQ_of_residueClass_eq (rfl : residueClass y = AdjoinRoot.mk _ (bitPolynomial y.toNat))] at reduced
  exact BitVec.eq_of_toNat_eq (Laws.bitPolynomial_injective reduced)

@[simp] theorem residueClass_one : residueClass 1#256 = 1 := by
  simp [residueClass]

theorem residueClass_ne_zero {x : Elem} (hne : x ≠ 0#256) : residueClass x ≠ 0 := fun h =>
  hne (residueClass_injective (h.trans residueClass_zero.symm))

/-- `bf.exp` is the power of the residue class. -/
theorem residueClass_bfExp (x : Elem) (e : Nat) : residueClass (bfExp x e) = residueClass x ^ e :=
  squareAndMultiply_eq residueClass bfMul residueClass_bfMul 1#256 x residueClass_one e

theorem bitPolynomial_bfExp (x : Elem) (e : Nat) : bitPolynomial (bfExp x e).toNat = modQ (bitPolynomial x.toNat ^ e) :=
  bitPolynomial_eq_modQ_of_residueClass_eq ((residueClass_bfExp x e).trans (map_pow _ _ _).symm)

/-- Settles O22: `bf.mul` is the product of residue classes, and an element is determined by its class. -/
theorem binaryProductIsThePolynomialProductModuloQ : Obligations.BinaryProductIsThePolynomialProductModuloQ := by
  intro x y z
  refine ⟨bitPolynomial_bfMul x y, ?_, ?_, ?_, ?_⟩
  all_goals
    apply residueClass_injective
    simp only [residueClass_bfMul, residueClass_one, residueClass_zero]
    ring

/-! ### The Fermat inverse (R134) -/

/-- Raising to `2 ^ n` substitutes `X ^ 2 ^ n` for `X`: the coefficients of GF(2) are their own powers. -/
theorem pow_two_pow_eq_expand (p : Polynomial (ZMod 2)) (n : Nat) : p ^ 2 ^ n = Polynomial.expand (ZMod 2) (2 ^ n) p := by
  induction n with
  | zero => rw [pow_zero, pow_one, Polynomial.expand_one]
  | succ n ih => rw [pow_succ, pow_mul, ih, ← ZMod.expand_card, Polynomial.expand_expand, mul_comm]

/-- Every residue class is its own power with exponent `2 ^ 256`, as the root of `Q` is. -/
theorem residueClass_pow_two_pow (x : Elem) : residueClass x ^ 2 ^ (128 + 128) = residueClass x := by
  have root : AdjoinRoot.root (bitPolynomial Config.binaryQ) ^ 2 ^ (128 + 128) = AdjoinRoot.root _ := by
    have divides := AdjoinRoot.mk_eq_zero.2 Laws.binaryQ_dvd_frobenius
    rw [map_sub, map_pow, AdjoinRoot.mk_X] at divides
    exact sub_eq_zero.1 divides
  rw [residueClass, ← map_pow, pow_two_pow_eq_expand, ← AdjoinRoot.aeval_eq, Polynomial.expand_aeval, root,
    AdjoinRoot.aeval_eq]

/-- There are no zero divisors modulo `Q`, which is irreducible (log 13). -/
theorem isDomain_modQ : IsDomain (AdjoinRoot (bitPolynomial Config.binaryQ)) :=
  AdjoinRoot.isDomain_of_prime Laws.binaryQ_irreducible.prime

theorem residueClass_mul_bfInvNonzero {x : Elem} (hne : x ≠ 0#256) :
    residueClass x * residueClass (bfInvNonzero x) = 1 := by
  have := isDomain_modQ
  have exponent : 2 ^ 256 - 2 + 1 + 1 = 2 ^ (128 + 128) := by norm_num
  refine mul_left_cancel₀ (residueClass_ne_zero hne) ?_
  rw [bfInvNonzero, residueClass_bfExp, mul_one, ← pow_succ', ← pow_succ', exponent, residueClass_pow_two_pow]

/-- The Fermat inverse is the only inverse. -/
theorem eq_bfInvNonzero {x y : Elem} (hne : x ≠ 0#256) (h : residueClass y * residueClass x = 1) : y = bfInvNonzero x :=
  residueClass_injective (left_inv_eq_right_inv h (residueClass_mul_bfInvNonzero hne))

theorem bfInv_of_ne_zero {x : Elem} (hne : x ≠ 0#256) : bfInv x = .ok (bfInvNonzero x) := if_neg hne

theorem bfDiv_of_ne_zero (x : Elem) {y : Elem} (hne : y ≠ 0#256) : bfDiv x y = .ok (bfMul x (bfInvNonzero y)) :=
  (except_bind_ok ..).2 ⟨_, bfInv_of_ne_zero hne, rfl⟩

theorem bfDiv_zero (x : Elem) : bfDiv x 0#256 = .error .zero := rfl

/-! ### The commands `BEXP`, `BINV`, `BINVE`, `BDIV` (R139 to R142) -/

theorem bexp_binaryPairCommand (rd ra rb : EReg) :
    BinaryPairCommand (.bexp rd ra rb) rd ra rb fun x y => .ok (bfExp x y.toNat) := ⟨rfl, rfl, fun _ => rfl⟩

theorem bdiv_binaryPairCommand (rd ra rb : EReg) : BinaryPairCommand (.bdiv rd ra rb) rd ra rb bfDiv :=
  ⟨rfl, rfl, fun _ => rfl⟩

/-- Settles O26: `BEXP` is a command on two unchecked elements, and `bf.exp` is the power modulo `Q`. -/
theorem bexpWritesThePowerModuloQ : Obligations.BexpWritesThePowerModuloQ := by
  intro rd ra rb s
  have bexp := bexp_binaryPairCommand rd ra rb
  exact ⟨fun x y hx hy => ⟨_, bexp.gives hx hy rfl, bitPolynomial_bfExp x y.toNat⟩, bexp.failsOnMissingSource s,
    Laws.opField_encodeR ..⟩

/-- The command writes `bf.inv` of one unchecked element. -/
structure BinaryInverseCommand (i : Instr) (rd ra : EReg) : Prop where
  exec_eq : ∀ s, exec i s = finishE rd (sourceE ra s >>= bfInv) s
  opcode : (opField (encode i)).toNat = opcodeOf i

theorem binv_binaryInverseCommand (rd ra : EReg) : BinaryInverseCommand (.binv rd ra) rd ra :=
  ⟨fun _ => rfl, Laws.OpcodeInWord.binv rd ra⟩

theorem binve_binaryInverseCommand (rd ra : EReg) : BinaryInverseCommand (.binve rd ra) rd ra :=
  ⟨fun _ => rfl, Laws.OpcodeInWord.binve rd ra⟩

/-- Settles O27: both commands read one element and end as `bf.inv` does. -/
theorem binvAndBinveWriteTheFermatInverse : Obligations.BinvAndBinveWriteTheFermatInverse := by
  intro rd ra s i hi
  have command : BinaryInverseCommand i rd ra := by
    rcases List.mem_pair.1 hi with rfl | rfl
    · exact binv_binaryInverseCommand rd ra
    · exact binve_binaryInverseCommand rd ra
  refine ⟨fun x holds hne => ⟨bfInvNonzero x, ?gives, bitPolynomial_bfExp x _⟩, fun holds => ?zero,
    (missingSourceFailsWithInvalid i s).1, command.opcode⟩
  case gives =>
    have steps := (except_bind_ok _ bfInv _).2 ⟨x, (sourceE_ok ..).2 holds, bfInv_of_ne_zero hne⟩
    exact (command.exec_eq s).trans ((finishE_next ..).2 (.inl ⟨_, steps, rfl⟩))
  case zero =>
    have steps := (except_bind_error _ bfInv _).2 (.inr ⟨_, (sourceE_ok ..).2 holds, rfl⟩)
    exact (command.exec_eq s).trans ((finishE_next ..).2 (.inr ⟨.zero, steps, rfl⟩))

/-- Settles O28: `BDIV` is a command on two unchecked elements that ends as the product with `bf.inv` of the divisor does. -/
theorem bdivWritesTheQuotient : Obligations.BdivWritesTheQuotient := by
  intro rd ra rb s
  have bdiv := bdiv_binaryPairCommand rd ra rb
  refine ⟨fun x y hx hy hne => ⟨_, bdiv.gives hx hy (bfDiv_of_ne_zero x hne), ?quotient⟩, fun x hx hy => ?zero,
    bdiv.failsOnMissingSource s, Laws.opField_encodeR ..⟩
  case quotient =>
    refine bitPolynomial_eq_modQ_of_residueClass_eq ?_
    rw [residueClass_bfMul, bfInvNonzero, residueClass_bfExp, map_mul, map_pow]
    rfl
  case zero =>
    have operands := (pairE_ok ra rb s (x, 0#256)).2 ⟨hx, hy⟩
    have steps := (except_bind_error _ (fun p => bfDiv p.1 p.2) _).2 (.inr ⟨_, operands, bfDiv_zero x⟩)
    exact (bdiv.exec_eq s).trans ((finishE_next ..).2 (.inr ⟨.zero, steps, rfl⟩))

/-! ### Lengths of bit patterns (00_scope.md R10) -/

theorem bitLen_le_iff (n k : Nat) : bitLen n ≤ k ↔ n < 2 ^ k := by
  unfold bitLen
  split
  case isTrue zero => simp [zero]
  case isFalse nonzero => rw [Nat.succ_le_iff, Nat.log2_lt nonzero]

theorem bitLen_pos {n : Nat} (hne : n ≠ 0) : 0 < bitLen n := by
  rw [bitLen, if_neg hne]
  exact Nat.succ_pos _

theorem testBit_bitLen_sub_one {n : Nat} (hne : n ≠ 0) : n.testBit (bitLen n - 1) = true := by
  rw [bitLen, if_neg hne, Nat.add_sub_cancel]
  exact Nat.testBit_log2 hne

theorem shiftLeft_lt_two_pow {n k : Nat} (h : n < 2 ^ k) (s : Nat) : n <<< s < 2 ^ (k + s) := by
  rw [Nat.shiftLeft_eq, pow_add]
  exact Nat.mul_lt_mul_of_pos_right h (Nat.two_pow_pos s)

/-- Two patterns with the same top bit cancel it. -/
theorem xor_lt_of_top_bits {a b k : Nat} (ha : a < 2 ^ (k + 1)) (hb : b < 2 ^ (k + 1)) (topA : a.testBit k = true)
    (topB : b.testBit k = true) : a ^^^ b < 2 ^ k := by
  refine Nat.lt_pow_two_of_testBit _ fun i hi => ?_
  rcases Nat.eq_or_lt_of_le hi with rfl | above
  · rw [Nat.testBit_xor, topA, topB, Bool.xor_self]
  · exact Nat.testBit_lt_two_pow (Nat.lt_of_lt_of_le (Nat.xor_lt_two_pow ha hb) (Nat.pow_le_pow_right Nat.two_pos above))

/-! ### `bf.divide` (R135) -/

/-- Adding the shifted divisor lowers the length of the remainder. -/
theorem bitLen_reduce_lt {b r : Nat} (hb : b ≠ 0) (hr : r ≠ 0) (longer : bitLen b ≤ bitLen r) :
    bitLen (r ^^^ b <<< (bitLen r - bitLen b)) < bitLen r := by
  have rPos := bitLen_pos hr
  have bPos := bitLen_pos hb
  obtain ⟨k, hk⟩ : ∃ k, bitLen r = k + 1 := ⟨bitLen r - 1, by omega⟩
  have topR : r.testBit k = true := by simpa [hk] using testBit_bitLen_sub_one hr
  have topB : (b <<< (bitLen r - bitLen b)).testBit k = true := by
    have place : k - (bitLen r - bitLen b) = bitLen b - 1 := by omega
    have inside : bitLen r - bitLen b ≤ k := by omega
    rw [Nat.testBit_shiftLeft, place, testBit_bitLen_sub_one hb, decide_eq_true inside]
    rfl
  have belowR : r < 2 ^ (k + 1) := (bitLen_le_iff ..).1 hk.le
  have belowB : b <<< (bitLen r - bitLen b) < 2 ^ (k + 1) := by
    have length : bitLen b + (bitLen r - bitLen b) = k + 1 := by omega
    rw [← length]
    exact shiftLeft_lt_two_pow ((bitLen_le_iff ..).1 le_rfl) _
  have short := (bitLen_le_iff ..).2 (xor_lt_of_top_bits belowR belowB topR topB)
  omega

/-- What the division loop reaches from quotient `q` and remainder `r`: the same dividend, a remainder shorter than the divisor,
and no quotient bit at or above `k`, given as much fuel as the remainder is too long. -/
structure Divides (b q r k : Nat) (out : Nat × Nat) : Prop where
  dividend : bitPolynomial out.1 * bitPolynomial b + bitPolynomial out.2 = bitPolynomial q * bitPolynomial b + bitPolynomial r
  shorter : bitLen out.2 < bitLen b
  quotient : out.1 < 2 ^ k

theorem bfDivideLoop_divides {b : Nat} (hb : b ≠ 0) (fuel q r k : Nat) (enough : bitLen r < fuel + bitLen b)
    (hq : q < 2 ^ k) (hk : bitLen r < k + bitLen b) : Divides b q r k (bfDivideLoop b fuel q r) := by
  induction fuel generalizing q r with
  | zero => exact ⟨rfl, Nat.lt_of_lt_of_eq enough (Nat.zero_add _), hq⟩
  | succ fuel ih =>
    rw [bfDivideLoop]
    split
    case isTrue pass =>
      obtain ⟨hr, longer⟩ := pass
      have less := bitLen_reduce_lt hb hr longer
      have bPos := bitLen_pos hb
      have bit : 1 <<< (bitLen r - bitLen b) < 2 ^ k := by
        rw [Nat.one_shiftLeft]
        exact Nat.pow_lt_pow_right Nat.one_lt_two (by omega)
      obtain ⟨dividend, shorter, quotient⟩ := ih (q ^^^ 1 <<< (bitLen r - bitLen b)) (r ^^^ b <<< (bitLen r - bitLen b))
        (by omega) (Nat.xor_lt_two_pow hq bit) (by omega)
      refine ⟨dividend.trans ?_, shorter, quotient⟩
      have two : (2 : Polynomial (ZMod 2)) = 0 := CharTwo.two_eq_zero
      rw [Laws.bitPolynomial_xor, Laws.bitPolynomial_xor, Laws.bitPolynomial_shiftLeft, Laws.bitPolynomial_shiftLeft,
        Laws.bitPolynomial_one]
      linear_combination (Polynomial.X ^ (bitLen r - bitLen b) * bitPolynomial b) * two
    case isFalse stop =>
      refine ⟨rfl, ?_, hq⟩
      rcases Nat.eq_zero_or_pos r with rfl | positive
      · exact bitLen_pos hb
      · exact Nat.lt_of_not_le fun longer => stop ⟨positive.ne', longer⟩

theorem bfDivide_divides (a : Nat) {b : Nat} (hb : b ≠ 0) : Divides b 0 a (bitLen a + 1 - bitLen b) (bfDivide a b) :=
  bfDivideLoop_divides hb _ 0 a _ (by omega) (Nat.two_pow_pos _) (by omega)

/-- The dividend is the quotient times the divisor plus the remainder. -/
theorem bitPolynomial_bfDivide (a : Nat) {b : Nat} (hb : b ≠ 0) :
    bitPolynomial a = bitPolynomial (bfDivide a b).1 * bitPolynomial b + bitPolynomial (bfDivide a b).2 := by
  rw [(bfDivide_divides a hb).dividend, Laws.bitPolynomial_zero, zero_mul, zero_add]

/-- Settles O23: each pass of the loop keeps the dividend and shortens the remainder. -/
theorem polynomialDivisionOverGf2HasSmallerRemainder : Obligations.PolynomialDivisionOverGf2HasSmallerRemainder := by
  intro a b hb
  refine ⟨Laws.bitPolynomial_injective ?_, (bfDivide_divides a hb).shorter⟩
  rw [Laws.bitPolynomial_xor, Laws.bitPolynomial_clmul, bitPolynomial_bfDivide a hb]

/-! ### The Euclidean inverse (R141) -/

theorem clmulLoop_lt {a m : Nat} (ha : a < 2 ^ m) (b k : Nat) : clmulLoop a b k < 2 ^ (m + k - 1) := by
  induction k with
  | zero => exact Nat.two_pow_pos _
  | succ k ih =>
    have wider : clmulLoop a b k < 2 ^ (m + (k + 1) - 1) :=
      Nat.lt_of_lt_of_le ih (Nat.pow_le_pow_right Nat.two_pos (by omega))
    have row : (if b.testBit k then a <<< k else 0) < 2 ^ (m + (k + 1) - 1) := by
      split
      · exact shiftLeft_lt_two_pow ha k
      · exact Nat.two_pow_pos _
    exact Nat.xor_lt_two_pow wider row

theorem clmul_lt {a m : Nat} (ha : a < 2 ^ m) (b : Nat) : clmul a b < 2 ^ (m + bitLen b - 1) := clmulLoop_lt ha b _

/-- What the Euclidean loop keeps, for the class `x` of the element: the multipliers are those of the remainders, the remainders
are coprime and shrink, and a multiplier grows no more than the remainder before it has shrunk. -/
structure EuclidState (x : AdjoinRoot (bitPolynomial Config.binaryQ)) (r0 r1 t0 t1 : Nat) : Prop where
  multiplier0 : AdjoinRoot.mk _ (bitPolynomial t0) * x = AdjoinRoot.mk _ (bitPolynomial r0)
  multiplier1 : AdjoinRoot.mk _ (bitPolynomial t1) * x = AdjoinRoot.mk _ (bitPolynomial r1)
  coprime : IsCoprime (bitPolynomial r0) (bitPolynomial r1)
  shrinks : bitLen r1 < bitLen r0
  length0 : bitLen t0 + bitLen r1 ≤ 258
  length1 : bitLen t1 + bitLen r0 ≤ 258
  fits : t0 < 2 ^ 256

theorem EuclidState.next {x : AdjoinRoot (bitPolynomial Config.binaryQ)} {r0 r1 t0 t1 : Nat} (h : EuclidState x r0 r1 t0 t1)
    (hr : r1 ≠ 0) :
    EuclidState x r1 (bfDivide r0 r1).2 t1 (t0 ^^^ clmul (bfDivide r0 r1).1 t1) where
  multiplier0 := h.multiplier1
  multiplier1 := by
    have two : (2 : AdjoinRoot (bitPolynomial Config.binaryQ)) = 0 := by
      have image := congrArg (AdjoinRoot.mk (bitPolynomial Config.binaryQ)) (CharTwo.two_eq_zero (R := Polynomial (ZMod 2)))
      rwa [map_ofNat, map_zero] at image
    have division := congrArg (AdjoinRoot.mk (bitPolynomial Config.binaryQ)) (bitPolynomial_bfDivide r0 hr)
    rw [map_add, map_mul] at division
    rw [Laws.bitPolynomial_xor, Laws.bitPolynomial_clmul, map_add, map_mul]
    linear_combination h.multiplier0 + AdjoinRoot.mk _ (bitPolynomial (bfDivide r0 r1).1) * h.multiplier1 + division +
      AdjoinRoot.mk _ (bitPolynomial (bfDivide r0 r1).1) * AdjoinRoot.mk _ (bitPolynomial r1) * two
  coprime := by
    have coprime := h.coprime
    rw [bitPolynomial_bfDivide r0 hr, IsCoprime.mul_add_right_left_iff] at coprime
    exact coprime.symm
  shrinks := (bfDivide_divides r0 hr).shorter
  length0 := by
    have := (bfDivide_divides r0 hr).shorter
    have := h.shrinks
    have := h.length1
    omega
  length1 := by
    have positive := bitLen_pos hr
    have shrinks := h.shrinks
    have length0 := h.length0
    have length1 := h.length1
    have product := clmul_lt (bfDivide_divides r0 hr).quotient t1
    have bound : t0 ^^^ clmul (bfDivide r0 r1).1 t1 < 2 ^ (258 - bitLen r1) := by
      refine Nat.xor_lt_two_pow ((bitLen_le_iff ..).1 (by omega)) (Nat.lt_of_lt_of_le product ?_)
      exact Nat.pow_le_pow_right Nat.two_pos (by omega)
    have := (bitLen_le_iff ..).2 bound
    omega
  fits := by
    have positive := bitLen_pos hr
    have shrinks := h.shrinks
    have length1 := h.length1
    exact (bitLen_le_iff ..).1 (by omega)

/-- The only pattern coprime to 0 is 1. -/
theorem eq_one_of_isCoprime_zero {n : Nat} (h : IsCoprime (bitPolynomial n) (bitPolynomial 0)) : n = 1 := by
  rw [Laws.bitPolynomial_zero, isCoprime_zero_right, Polynomial.isUnit_iff] at h
  obtain ⟨c, unit, constant⟩ := h
  have units : ∀ c : ZMod 2, IsUnit c → c = 1 := by decide
  rw [units c unit, Polynomial.C_1, ← Laws.bitPolynomial_one] at constant
  exact (Laws.bitPolynomial_injective constant).symm

theorem EuclidState.inverse {x : AdjoinRoot (bitPolynomial Config.binaryQ)} {r0 t0 t1 : Nat} (h : EuclidState x r0 0 t0 t1) :
    AdjoinRoot.mk _ (bitPolynomial t0) * x = 1 := by
  rw [h.multiplier0, eq_one_of_isCoprime_zero h.coprime, Laws.bitPolynomial_one, map_one]

/-- With a pass for each bit of the second remainder the loop ends at the multiplier of the greatest common divisor 1. -/
theorem bfEuclidLoop_inverts {x : AdjoinRoot (bitPolynomial Config.binaryQ)} (fuel r0 r1 t0 t1 : Nat)
    (h : EuclidState x r0 r1 t0 t1) (enough : bitLen r1 ≤ fuel) :
    AdjoinRoot.mk _ (bitPolynomial (bfEuclidLoop fuel r0 r1 t0 t1)) * x = 1 ∧ bfEuclidLoop fuel r0 r1 t0 t1 < 2 ^ 256 := by
  induction fuel generalizing r0 r1 t0 t1 with
  | zero =>
    obtain rfl : r1 = 0 := by
      by_contra hr
      have := bitLen_pos hr
      omega
    exact ⟨h.inverse, h.fits⟩
  | succ fuel ih =>
    rw [bfEuclidLoop]
    split
    case isTrue hr =>
      have shorter := (bfDivide_divides r0 hr).shorter
      exact ih _ _ _ _ (h.next hr) (by omega)
    case isFalse zero =>
      obtain rfl := not_not.1 zero
      exact ⟨h.inverse, h.fits⟩

/-- The loop starts with `Q`, whose multiplier is 0, and the element, whose multiplier is 1; `Q` is irreducible (log 13). -/
theorem euclidState_start {x : Elem} (hne : x ≠ 0#256) : EuclidState (residueClass x) Config.binaryQ x.toNat 0 1 where
  multiplier0 := by rw [Laws.bitPolynomial_zero, map_zero, zero_mul, AdjoinRoot.mk_self]
  multiplier1 := by rw [Laws.bitPolynomial_one, map_one, one_mul]; rfl
  coprime := (Irreducible.coprime_iff_not_dvd Laws.binaryQ_irreducible).2 fun divides =>
    residueClass_ne_zero hne (AdjoinRoot.mk_eq_zero.2 divides)
  shrinks := Nat.lt_of_le_of_lt ((bitLen_le_iff ..).2 x.isLt) (by decide +kernel)
  length0 := by
    have short : bitLen x.toNat ≤ 256 := (bitLen_le_iff ..).2 x.isLt
    have zero : bitLen 0 = 0 := rfl
    omega
  length1 := by decide +kernel
  fits := Nat.two_pow_pos _

theorem bfEuclidInv_eq {x : Elem} (hne : x ≠ 0#256) : bfEuclidInv x = bfInvNonzero x := by
  obtain ⟨inverse, fits⟩ := bfEuclidLoop_inverts 256 _ _ _ _ (euclidState_start hne) ((bitLen_le_iff ..).2 x.isLt)
  refine eq_bfInvNonzero hne ?_
  rw [residueClass, bfEuclidInv, BitVec.toNat_ofNat, Nat.mod_eq_of_lt fits]
  exact inverse

/-- Settles O29: the product with the Fermat inverse is 1 modulo `Q`, and the Euclidean inverse is an inverse too. -/
theorem binaryDivisionUndoesMultiplication : Obligations.BinaryDivisionUndoesMultiplication := by
  refine ⟨fun x y hne => ?undoes, fun x hne => ⟨?inverse, bfEuclidInv_eq hne⟩, fun _ _ _ => rfl⟩
  case undoes =>
    rw [bfDiv_of_ne_zero _ hne]
    refine congrArg Except.ok (residueClass_injective ?_)
    rw [residueClass_bfMul, residueClass_bfMul, mul_assoc, residueClass_mul_bfInvNonzero hne, mul_one]
  case inverse =>
    apply residueClass_injective
    rw [residueClass_bfMul, residueClass_mul_bfInvNonzero hne, residueClass_one]

end Sys2Proof.Proofs

/-! Polynomials over the prime field (42_polynomial.md R160 to R172). A coefficient sequence is read as the polynomial it
denotes; each pure function is the ring operation on what its arguments denote, with the stated length and canonical
coefficients. -/

namespace Sys2Proof.Proofs

open Sys2Proof Sys2Proof.Machine Sys2Proof.Meaning

/-! ### Sequences and the polynomials they denote (R160) -/

/-- Every integer of the sequence is canonical. -/
def AllBelowP (ns : List Nat) : Prop := ∀ n ∈ ns, n < Config.primeP

theorem allBelowP_cons (n : Nat) (ns : List Nat) : AllBelowP (n :: ns) ↔ n < Config.primeP ∧ AllBelowP ns :=
  List.forall_mem_cons

theorem allBelowP_append (ms ns : List Nat) : AllBelowP (ms ++ ns) ↔ AllBelowP ms ∧ AllBelowP ns := List.forall_mem_append

theorem allBelowP_nil : AllBelowP [] := nofun

theorem allBelowP_map_toNat_iff (xs : List Elem) : AllBelowP (xs.map BitVec.toNat) ↔ Canonical xs := by
  simp [AllBelowP, Canonical]

theorem AllBelowP.take {ns : List Nat} (h : AllBelowP ns) (k : Nat) : AllBelowP (ns.take k) := fun _ hn =>
  h _ (List.mem_of_mem_take hn)

theorem AllBelowP.drop {ns : List Nat} (h : AllBelowP ns) (k : Nat) : AllBelowP (ns.drop k) := fun _ hn =>
  h _ (List.mem_of_mem_drop hn)

theorem allBelowP_map_pfMul (c : Nat) (ns : List Nat) : AllBelowP (ns.map (pfMul c)) := by
  rintro _ hn
  obtain ⟨n, -, rfl⟩ := List.mem_map.1 hn
  exact pfMul_lt c n

theorem natCast_pfAdd {x y : Nat} (hx : x < Config.primeP) (hy : y < Config.primeP) :
    (pfAdd x y : ZMod Config.primeP) = x + y := by
  rw [pfAdd_eq_mod hx hy, ZMod.natCast_mod, Nat.cast_add]

theorem natCast_pfSub {x y : Nat} (hx : x < Config.primeP) (hy : y < Config.primeP) :
    (pfSub x y : ZMod Config.primeP) = x - y := by
  rw [pfSub_eq_mod hx hy, ZMod.natCast_mod, Nat.cast_add, Nat.cast_sub hy.le, ZMod.natCast_self]
  ring

theorem seqPolynomial_coeff (cs : List Nat) (j : Nat) : (seqPolynomial cs).coeff j = (cs.getD j 0 : Nat) := by
  induction cs generalizing j with
  | nil => simp [seqPolynomial]
  | cons c cs ih => cases j <;> simp [seqPolynomial, ih]

theorem seqPolynomial_append (as bs : List Nat) :
    seqPolynomial (as ++ bs) = seqPolynomial as + Polynomial.X ^ as.length * seqPolynomial bs := by
  induction as with
  | nil => simp [seqPolynomial]
  | cons a as ih => rw [List.cons_append, seqPolynomial, seqPolynomial, ih, List.length_cons]; ring

theorem seqPolynomial_zero_cons (cs : List Nat) : seqPolynomial (0 :: cs) = Polynomial.X * seqPolynomial cs := by
  rw [seqPolynomial, Nat.cast_zero, Polynomial.C_0, zero_add]

theorem seqPolynomial_map_pfMul (c : Nat) (cs : List Nat) :
    seqPolynomial (cs.map (pfMul c)) = Polynomial.C (c : ZMod Config.primeP) * seqPolynomial cs := by
  induction cs with
  | nil => simp [seqPolynomial]
  | cons d cs ih => rw [List.map_cons, seqPolynomial, seqPolynomial, ih, natCast_pfMul, Polynomial.C_mul]; ring

/-- Cutting a sequence where its polynomial ends keeps the polynomial. -/
theorem seqPolynomial_take {cs : List Nat} {n : Nat} (h : ∀ j, n ≤ j → (seqPolynomial cs).coeff j = 0) :
    seqPolynomial (cs.take n) = seqPolynomial cs := by
  ext j
  by_cases inside : j < n
  · rw [seqPolynomial_coeff, seqPolynomial_coeff, List.getD_eq_getElem?_getD, List.getElem?_take_of_lt inside,
      ← List.getD_eq_getElem?_getD]
  · have outside : n ≤ j := Nat.not_lt.1 inside
    rw [h j outside, seqPolynomial_coeff, List.getD_eq_default _ _ ((List.length_take_le _ _).trans outside), Nat.cast_zero]

/-- The value of the polynomial is the sum of the coefficients times the powers of the point. -/
theorem seqPolynomial_eval_eq_sum (cs : List Nat) (x : ZMod Config.primeP) :
    (seqPolynomial cs).eval x = ∑ i ∈ Finset.range cs.length, (cs.getD i 0 : ZMod Config.primeP) * x ^ i := by
  induction cs with
  | nil => simp [seqPolynomial]
  | cons c cs ih =>
    rw [seqPolynomial, Polynomial.eval_add, Polynomial.eval_C, Polynomial.eval_mul, Polynomial.eval_X, ih, List.length_cons,
      Finset.sum_range_succ', add_comm]
    simp only [List.getD_cons_succ, List.getD_cons_zero, pow_succ, pow_zero, mul_one, Finset.mul_sum]
    congr 1
    refine Finset.sum_congr rfl fun i _ => ?_
    ring

/-- At the image of an integer the value is the image of the sum. -/
theorem seqPolynomial_eval (cs : List Nat) (x : Nat) :
    (seqPolynomial cs).eval (x : ZMod Config.primeP) = (∑ i ∈ Finset.range cs.length, cs.getD i 0 * x ^ i : Nat) := by
  rw [seqPolynomial_eval_eq_sum]
  push_cast
  rfl

/-! ### `poly.eval` (R161) -/

theorem polyEvalLoop_lt (x : Nat) (cs : List Nat) (y pw : Nat) (hy : y < Config.primeP) :
    polyEvalLoop x cs y pw < Config.primeP := by
  induction cs generalizing y pw with
  | nil => exact hy
  | cons c cs ih => exact ih _ _ (pfAdd_lt hy (pfMul_lt c pw))

theorem natCast_polyEvalLoop (x : Nat) (cs : List Nat) (y pw : Nat) (hy : y < Config.primeP) :
    (polyEvalLoop x cs y pw : ZMod Config.primeP) = y + pw * (seqPolynomial cs).eval (x : ZMod Config.primeP) := by
  induction cs generalizing y pw with
  | nil => simp [polyEvalLoop, seqPolynomial]
  | cons c cs ih =>
    rw [polyEvalLoop, ih _ _ (pfAdd_lt hy (pfMul_lt c pw)), natCast_pfAdd hy (pfMul_lt c pw), natCast_pfMul, natCast_pfMul,
      seqPolynomial, Polynomial.eval_add, Polynomial.eval_C, Polynomial.eval_mul, Polynomial.eval_X]
    ring

theorem polyEval_lt (cs : List Nat) (x : Nat) : polyEval cs x < Config.primeP := polyEvalLoop_lt x cs 0 1 primeP_pos

/-- `poly.eval` is the value of the polynomial. -/
theorem natCast_polyEval (cs : List Nat) (x : Nat) :
    (polyEval cs x : ZMod Config.primeP) = (seqPolynomial cs).eval (x : ZMod Config.primeP) := by
  rw [polyEval, natCast_polyEvalLoop x cs 0 1 primeP_pos, Nat.cast_zero, Nat.cast_one, zero_add, one_mul]

/-- A canonical integer is the residue of every number with its image. -/
theorem eq_mod_of_natCast_eq {a b : Nat} (ha : a < Config.primeP) (h : (a : ZMod Config.primeP) = b) :
    a = b % Config.primeP := by
  rwa [ZMod.natCast_eq_natCast_iff', Nat.mod_eq_of_lt ha] at h

theorem polyEval_eq_mod (cs : List Nat) (x : Nat) :
    polyEval cs x = (∑ i ∈ Finset.range cs.length, cs.getD i 0 * x ^ i) % Config.primeP :=
  eq_mod_of_natCast_eq (polyEval_lt cs x) ((natCast_polyEval cs x).trans (seqPolynomial_eval cs x))

theorem getD_map_toNat (xs : List Elem) (i : Nat) : (xs.map BitVec.toNat).getD i 0 = (xs.getD i 0#256).toNat :=
  List.getD_map (d := 0#256) ..

/-! ### `poly.vanish` (R162) -/

/-- The sequence denotes the polynomial with exactly so many canonical coefficients. -/
structure Denotes (cs : List Nat) (n : Nat) (p : Polynomial (ZMod Config.primeP)) : Prop where
  length : cs.length = n
  below : AllBelowP cs
  polynomial : seqPolynomial cs = p

theorem denotes_seqPolynomial {cs : List Nat} (below : AllBelowP cs) : Denotes cs cs.length (seqPolynomial cs) :=
  ⟨rfl, below, rfl⟩

theorem Denotes.zero_cons {cs : List Nat} {n : Nat} {p : Polynomial (ZMod Config.primeP)} (h : Denotes cs n p) :
    Denotes (0 :: cs) (n + 1) (Polynomial.X * p) where
  length := congrArg Nat.succ h.length
  below := (allBelowP_cons ..).2 ⟨primeP_pos, h.below⟩
  polynomial := by rw [seqPolynomial_zero_cons, h.polynomial]

theorem Denotes.append_zero {cs : List Nat} {n : Nat} {p : Polynomial (ZMod Config.primeP)} (h : Denotes cs n p) :
    Denotes (cs ++ [0]) (n + 1) p where
  length := by rw [List.length_append, h.length, List.length_singleton]
  below := (allBelowP_append ..).2 ⟨h.below, (allBelowP_cons ..).2 ⟨primeP_pos, allBelowP_nil⟩⟩
  polynomial := by rw [seqPolynomial_append, seqPolynomial_zero_cons, seqPolynomial, mul_zero, mul_zero, add_zero, h.polynomial]

theorem Denotes.map_pfMul {cs : List Nat} {n : Nat} {p : Polynomial (ZMod Config.primeP)} (h : Denotes cs n p) (c : Nat) :
    Denotes (cs.map (pfMul c)) n (Polynomial.C (c : ZMod Config.primeP) * p) where
  length := (List.length_map ..).trans h.length
  below := allBelowP_map_pfMul c cs
  polynomial := by rw [seqPolynomial_map_pfMul, h.polynomial]

/-- An operation on coefficients that is `a + u·b` in the field, coefficient by coefficient. -/
theorem zipWith_denotes {f : Nat → Nat → Nat} {u : ZMod Config.primeP}
    (lt : ∀ {a b}, a < Config.primeP → b < Config.primeP → f a b < Config.primeP)
    (image : ∀ {a b}, a < Config.primeP → b < Config.primeP → (f a b : ZMod Config.primeP) = a + u * b)
    {as bs : List Nat} {n : Nat} {p q : Polynomial (ZMod Config.primeP)} (ha : Denotes as n p) (hb : Denotes bs n q) :
    Denotes (List.zipWith f as bs) n (p + Polynomial.C u * q) := by
  obtain ⟨lengthA, belowA, rfl⟩ := ha
  obtain ⟨lengthB, belowB, rfl⟩ := hb
  induction as generalizing bs n with
  | nil =>
    obtain rfl : bs = [] := List.length_eq_zero_iff.1 (lengthB.trans lengthA.symm)
    exact ⟨lengthA, allBelowP_nil, by simp [seqPolynomial]⟩
  | cons a as ih =>
    obtain _ | ⟨b, bs⟩ := bs
    · exact absurd (lengthA.trans lengthB.symm) nofun
    · obtain ⟨ha, belowA⟩ := (allBelowP_cons ..).1 belowA
      obtain ⟨hb, belowB⟩ := (allBelowP_cons ..).1 belowB
      obtain ⟨length, below, polynomial⟩ := ih rfl belowA (Nat.succ.inj (lengthB.trans lengthA.symm)) belowB
      refine ⟨(congrArg Nat.succ length).trans lengthA, (allBelowP_cons ..).2 ⟨lt ha hb, below⟩, ?_⟩
      rw [List.zipWith_cons_cons, seqPolynomial, seqPolynomial, seqPolynomial, polynomial, image ha hb, map_add, map_mul]
      ring

theorem zipWith_pfAdd_denotes {as bs : List Nat} {n : Nat} {p q : Polynomial (ZMod Config.primeP)} (ha : Denotes as n p)
    (hb : Denotes bs n q) : Denotes (List.zipWith pfAdd as bs) n (p + q) := by
  have sum := zipWith_denotes (u := 1) pfAdd_lt (fun ha hb => by rw [natCast_pfAdd ha hb, one_mul]) ha hb
  rwa [Polynomial.C_1, one_mul] at sum

theorem zipWith_pfSub_denotes {as bs : List Nat} {n : Nat} {p q : Polynomial (ZMod Config.primeP)} (ha : Denotes as n p)
    (hb : Denotes bs n q) : Denotes (List.zipWith pfSub as bs) n (p - q) := by
  have difference := zipWith_denotes (u := -1) pfSub_lt (fun ha hb => by rw [natCast_pfSub ha hb]; ring) ha hb
  rwa [map_neg, Polynomial.C_1, neg_one_mul, ← sub_eq_add_neg] at difference

/-- The factor of a root. -/
noncomputable def rootFactor (r : Nat) : Polynomial (ZMod Config.primeP) :=
  Polynomial.X - Polynomial.C (r : ZMod Config.primeP)

theorem polyTimesRoot_denotes {cs : List Nat} {n : Nat} {p : Polynomial (ZMod Config.primeP)} (h : Denotes cs n p) (r : Nat) :
    Denotes (polyTimesRoot cs r) (n + 1) (p * rootFactor r) := by
  have difference := zipWith_pfSub_denotes h.zero_cons (h.map_pfMul r).append_zero
  rwa [← sub_mul, mul_comm] at difference

theorem foldl_polyTimesRoot_denotes (roots : List Nat) {cs : List Nat} {n : Nat} {p : Polynomial (ZMod Config.primeP)}
    (h : Denotes cs n p) :
    Denotes (roots.foldl polyTimesRoot cs) (n + roots.length) (p * (roots.map rootFactor).prod) := by
  induction roots generalizing cs n p with
  | nil => simpa using h
  | cons r roots ih =>
    have next := ih (polyTimesRoot_denotes h r)
    rwa [mul_assoc, ← List.prod_cons, ← List.map_cons, Nat.add_assoc, Nat.add_comm 1] at next

/-- `poly.vanish` is the product of the factors of the roots. -/
theorem polyVanish_denotes (roots : List Nat) :
    Denotes (polyVanish roots) (roots.length + 1) (roots.map rootFactor).prod := by
  have one : Denotes [1] 1 1 := ⟨rfl, (allBelowP_cons ..).2 ⟨primeP_prime.one_lt, allBelowP_nil⟩, by simp [seqPolynomial]⟩
  have product := foldl_polyTimesRoot_denotes roots one
  rwa [one_mul, Nat.add_comm 1] at product

/-! ### `poly.mul` (R163) -/

theorem polyAddPadded_denotes {as bs : List Nat} {m n : Nat} {p q : Polynomial (ZMod Config.primeP)} (ha : Denotes as m p)
    (hb : Denotes bs n q) : Denotes (polyAddPadded as bs) (max m n) (p + q) := by
  obtain ⟨rfl, belowA, rfl⟩ := ha
  obtain ⟨rfl, belowB, rfl⟩ := hb
  induction as generalizing bs with
  | nil => exact ⟨(Nat.zero_max _).symm, belowB, (zero_add _).symm⟩
  | cons a as ih =>
    cases bs with
    | nil => exact ⟨(Nat.max_zero _).symm, belowA, (add_zero _).symm⟩
    | cons b bs =>
      obtain ⟨ha, belowA⟩ := (allBelowP_cons ..).1 belowA
      obtain ⟨hb, belowB⟩ := (allBelowP_cons ..).1 belowB
      obtain ⟨length, below, polynomial⟩ := ih belowA belowB
      refine ⟨by simp only [polyAddPadded, List.length_cons, length]; omega,
        (allBelowP_cons ..).2 ⟨pfAdd_lt ha hb, below⟩, ?_⟩
      rw [polyAddPadded, seqPolynomial, seqPolynomial, seqPolynomial, polynomial, natCast_pfAdd ha hb, map_add]
      ring

theorem polyMulRows_denotes {a b : List Nat} (below : AllBelowP b) (ha : a ≠ []) (hb : b ≠ []) :
    Denotes (polyMulRows b a) (a.length + b.length - 1) (seqPolynomial a * seqPolynomial b) := by
  have bPos : 0 < b.length := List.length_pos_of_ne_nil hb
  induction a with
  | nil => exact absurd rfl ha
  | cons x xs ih =>
    have row := (denotes_seqPolynomial below).map_pfMul x
    cases xs with
    | nil =>
      have sum := polyAddPadded_denotes row (denotes_seqPolynomial allBelowP_nil)
      have length : max b.length 0 = [x].length + b.length - 1 := by simp
      rw [seqPolynomial, add_zero, List.length_nil, length] at sum
      rwa [polyMulRows, seqPolynomial, seqPolynomial, mul_zero, add_zero]
    | cons y ys =>
      have sum := polyAddPadded_denotes row (ih (by simp)).zero_cons
      have length : max b.length ((y :: ys).length + b.length - 1 + 1) = (x :: y :: ys).length + b.length - 1 := by
        simp only [List.length_cons]
        omega
      rw [length] at sum
      rw [polyMulRows, seqPolynomial, add_mul, mul_assoc]
      exact sum

theorem polyMul_of_ne_nil {a b : List Nat} (below : AllBelowP b) (ha : a ≠ []) (hb : b ≠ []) :
    Denotes (polyMul a b) (a.length + b.length - 1) (seqPolynomial a * seqPolynomial b) := by
  rw [polyMul, if_neg hb]
  exact polyMulRows_denotes below ha hb

theorem polyMul_of_nil {a b : List Nat} (h : a = [] ∨ b = []) : polyMul a b = [] := by
  rcases h with rfl | rfl
  · simp [polyMul, polyMulRows]
  · rfl

end Sys2Proof.Proofs

/-! Polynomial division and interpolation (42_polynomial.md R164, R165). -/

namespace Sys2Proof.Proofs

open Sys2Proof Sys2Proof.Machine Sys2Proof.Meaning

/-! ### `efflen` (R160) -/

/-- The effective length is at most `n` exactly if every element from index `n` up is 0. -/
theorem effLen_le_iff (cs : List Nat) (n : Nat) : effLen cs ≤ n ↔ ∀ j, n ≤ j → cs.getD j 0 = 0 := by
  induction cs generalizing n with
  | nil => simp [effLen]
  | cons c cs ih =>
    cases n with
    | zero =>
      have split : (∀ j, 0 ≤ j → (c :: cs).getD j 0 = 0) ↔ c = 0 ∧ ∀ j, 0 ≤ j → cs.getD j 0 = 0 :=
        ⟨fun h => ⟨h 0 le_rfl, fun j _ => h (j + 1) (Nat.zero_le _)⟩, fun ⟨head, tail⟩ j _ => by
          cases j with
          | zero => exact head
          | succ j => exact tail j (Nat.zero_le _)⟩
      rw [split, ← ih 0, effLen]
      split_ifs <;> omega
    | succ n =>
      have shift : (∀ j, n + 1 ≤ j → (c :: cs).getD j 0 = 0) ↔ ∀ j, n ≤ j → cs.getD j 0 = 0 :=
        ⟨fun h j hj => h (j + 1) (Nat.succ_le_succ hj), fun h j hj => by
          obtain ⟨j, rfl⟩ : ∃ i, j = i + 1 := ⟨j - 1, by omega⟩
          exact h j (Nat.le_of_succ_le_succ hj)⟩
      rw [shift, ← ih n, effLen]
      split_ifs <;> omega

theorem effLen_eq_succ {cs : List Nat} {d : Nat} (nonzero : cs.getD d 0 ≠ 0) (high : ∀ j, d < j → cs.getD j 0 = 0) :
    effLen cs = d + 1 := by
  have upper : effLen cs ≤ d + 1 := (effLen_le_iff ..).2 high
  have lower : ¬ effLen cs ≤ d := fun le => nonzero ((effLen_le_iff ..).1 le d le_rfl)
  omega

theorem getD_ne_zero_of_effLen {cs : List Nat} {d : Nat} (h : effLen cs = d + 1) : cs.getD d 0 ≠ 0 := by
  intro zero
  have le : effLen cs ≤ d := (effLen_le_iff ..).2 fun j hj => by
    rcases Nat.eq_or_lt_of_le hj with rfl | above
    · exact zero
    · exact (effLen_le_iff cs (d + 1)).1 h.le j above
  omega

theorem lt_length_of_effLen {cs : List Nat} {d : Nat} (h : effLen cs = d + 1) : d < cs.length := by
  by_contra outside
  exact getD_ne_zero_of_effLen h (List.getD_eq_default _ _ (Nat.not_lt.1 outside))

theorem effLen_eq_zero {cs : List Nat} (h : ∀ c ∈ cs, c = 0) : effLen cs = 0 := by
  refine Nat.le_zero.1 ((effLen_le_iff ..).2 fun j _ => ?_)
  rcases Nat.lt_or_ge j cs.length with inside | outside
  · rw [List.getD_eq_getElem _ _ inside]
    exact h _ (List.getElem_mem inside)
  · exact List.getD_eq_default _ _ outside

/-! ### `poly.divrem` (R164) -/

theorem seqPolynomial_coeff_of_length_le {cs : List Nat} {j : Nat} (h : cs.length ≤ j) : (seqPolynomial cs).coeff j = 0 := by
  rw [seqPolynomial_coeff, List.getD_eq_default _ _ h, Nat.cast_zero]

theorem subScaled_denotes (c : Nat) {b r : List Nat} (below : AllBelowP r) (long : b.length ≤ r.length) :
    Denotes (subScaled c b r) r.length (seqPolynomial r - Polynomial.C (c : ZMod Config.primeP) * seqPolynomial b) := by
  induction b generalizing r with
  | nil => exact ⟨rfl, below, by simp [subScaled, seqPolynomial]⟩
  | cons y ys ih =>
    cases r with
    | nil => exact absurd long (by simp)
    | cons x xs =>
      obtain ⟨hx, below⟩ := (allBelowP_cons ..).1 below
      obtain ⟨length, below, polynomial⟩ := ih below (Nat.le_of_succ_le_succ long)
      refine ⟨congrArg Nat.succ length, (allBelowP_cons ..).2 ⟨pfSub_lt hx (pfMul_lt c y), below⟩, ?_⟩
      rw [subScaled, seqPolynomial, seqPolynomial, seqPolynomial, polynomial, natCast_pfSub hx (pfMul_lt c y), natCast_pfMul,
        map_sub, map_mul]
      ring

/-- One pass of long division at place `k`: the remainder less the shifted multiple of the divisor. -/
theorem reduceAt_denotes (c k : Nat) {b r : List Nat} (below : AllBelowP r) (long : k + b.length ≤ r.length) :
    Denotes (r.take k ++ subScaled c b (r.drop k)) r.length
      (seqPolynomial r - Polynomial.C (c : ZMod Config.primeP) * (Polynomial.X ^ k * seqPolynomial b)) := by
  have rest : b.length ≤ (r.drop k).length := by rw [List.length_drop]; omega
  obtain ⟨length, belowRest, polynomial⟩ := subScaled_denotes c (below.drop k) rest
  have lengthTake : (r.take k).length = k := by rw [List.length_take]; omega
  refine ⟨?_, (allBelowP_append ..).2 ⟨below.take k, belowRest⟩, ?_⟩
  · rw [List.length_append, lengthTake, length, List.length_drop]
    omega
  · have whole := seqPolynomial_append (r.take k) (r.drop k)
    rw [List.take_append_drop, lengthTake] at whole
    rw [seqPolynomial_append, polynomial, lengthTake, whole]
    ring

/-- What long division reaches: as many quotient coefficients as places, a remainder of the dividend's room with nothing from
place `d` up, and the division identity for the dividend `a` by `b`. -/
structure DividesAs (a b : Polynomial (ZMod Config.primeP)) (d places room : Nat) (out : List Nat × List Nat) : Prop where
  quotientLength : out.1.length = places
  remainderLength : out.2.length = room
  quotientBelow : AllBelowP out.1
  remainderBelow : AllBelowP out.2
  remainderHigh : ∀ j, d ≤ j → (seqPolynomial out.2).coeff j = 0
  identity : seqPolynomial out.1 * b + seqPolynomial out.2 = a

theorem polyDivLoop_dividesAs {li d : Nat} {b : List Nat} (length : b.length = d + 1)
    (inverse : (b.getD d 0 : ZMod Config.primeP) * li = 1) (k : Nat) (r q : List Nat) (belowR : AllBelowP r)
    (belowQ : AllBelowP q) (long : k + d ≤ r.length) (high : ∀ j, k + d ≤ j → (seqPolynomial r).coeff j = 0) :
    DividesAs (Polynomial.X ^ k * seqPolynomial q * seqPolynomial b + seqPolynomial r) (seqPolynomial b) d (k + q.length)
      r.length (polyDivLoop li d b k r q) := by
  induction k generalizing r q with
  | zero =>
    exact ⟨(Nat.zero_add _).symm, rfl, belowQ, belowR, fun j hj => high j (by omega), by rw [polyDivLoop]; ring⟩
  | succ k ih =>
    rw [polyDivLoop]
    obtain ⟨c, hc⟩ : ∃ c, c = pfMul (r.getD (k + d) 0) li := ⟨_, rfl⟩
    obtain ⟨lengthR, below, polynomial⟩ := reduceAt_denotes c k (b := b) belowR (by omega)
    have cancels : ∀ j, k + d ≤ j → (seqPolynomial (r.take k ++ subScaled c b (r.drop k))).coeff j = 0 := by
      intro j hj
      have place : k ≤ j := by omega
      rw [polynomial, Polynomial.coeff_sub, Polynomial.coeff_C_mul, Polynomial.coeff_X_pow_mul', if_pos place]
      rcases Nat.eq_or_lt_of_le hj with rfl | above
      · rw [Nat.add_sub_cancel_left, seqPolynomial_coeff, seqPolynomial_coeff, hc, natCast_pfMul]
        linear_combination -(r.getD (k + d) 0 : ZMod Config.primeP) * inverse
      · rw [high j (by omega), seqPolynomial_coeff_of_length_le (cs := b) (by omega), mul_zero, sub_zero]
    have belowC : AllBelowP (c :: q) := (allBelowP_cons ..).2 ⟨hc ▸ pfMul_lt _ _, belowQ⟩
    have divided := ih _ (c :: q) below belowC (by omega) cancels
    have dividend : Polynomial.X ^ k * seqPolynomial (c :: q) * seqPolynomial b +
        seqPolynomial (r.take k ++ subScaled c b (r.drop k)) =
          Polynomial.X ^ (k + 1) * seqPolynomial q * seqPolynomial b + seqPolynomial r := by
      rw [polynomial, seqPolynomial]
      ring
    have places : k + (c :: q).length = k + 1 + q.length := by rw [List.length_cons]; omega
    rw [dividend, lengthR, places, hc] at divided
    exact divided

/-- `poly.divrem` by a divisor with leading index `d`: quotient and remainder of the stated lengths. -/
theorem polyDivrem_ok {a b : List Nat} {d : Nat} (belowA : AllBelowP a) (belowB : AllBelowP b) (short : b.length ≤ a.length)
    (leading : effLen b = d + 1) :
    ∃ q r, polyDivrem a b = .ok (q, r) ∧ q.length = a.length - d ∧ r.length = d ∧ AllBelowP q ∧ AllBelowP r ∧
      seqPolynomial a = seqPolynomial q * seqPolynomial b + seqPolynomial r := by
  have inside := lt_length_of_effLen leading
  have nonzero := getD_ne_zero_of_effLen leading
  have below : b.getD d 0 < Config.primeP := by
    rw [List.getD_eq_getElem _ _ inside]
    exact belowB _ (List.getElem_mem inside)
  have cut : seqPolynomial (b.take (d + 1)) = seqPolynomial b := seqPolynomial_take fun j hj => by
    rw [seqPolynomial_coeff, (effLen_le_iff b (d + 1)).1 leading.le j hj, Nat.cast_zero]
  have lead : (b.take (d + 1)).getD d 0 = b.getD d 0 := by
    rw [List.getD_eq_getElem?_getD, List.getElem?_take_of_lt (Nat.lt_succ_self d), ← List.getD_eq_getElem?_getD]
  have divided := polyDivLoop_dividesAs (li := pfInvNonzero (b.getD d 0)) (b := b.take (d + 1)) (d := d)
    (by rw [List.length_take]; omega) (by rw [lead]; exact natCast_mul_pfInvNonzero below nonzero) (a.length - d) a []
    belowA allBelowP_nil (by omega) fun j hj => seqPolynomial_coeff_of_length_le (by omega)
  rw [cut] at divided
  obtain ⟨quotientLength, remainderLength, quotientBelow, remainderBelow, remainderHigh, identity⟩ := divided
  have steps : polyDivrem a b = .ok ((polyDivLoop (pfInvNonzero (b.getD d 0)) d (b.take (d + 1)) (a.length - d) a []).1,
      (polyDivLoop (pfInvNonzero (b.getD d 0)) d (b.take (d + 1)) (a.length - d) a []).2.take d) := by
    rw [polyDivrem, if_neg (by omega), if_neg (by omega), leading, Nat.add_sub_cancel]
    exact (except_bind_ok ..).2 ⟨_, pfInv_of_ne_zero nonzero, rfl⟩
  refine ⟨_, _, steps, quotientLength, ?_, quotientBelow, remainderBelow.take d, ?_⟩
  · rw [List.length_take, remainderLength]
    omega
  · rw [seqPolynomial_take remainderHigh, identity, seqPolynomial, mul_zero, zero_mul, zero_add]

theorem polyDivrem_of_shorter {a b : List Nat} (h : a.length < b.length) : polyDivrem a b = .error .length := if_pos h

theorem polyDivrem_of_zero {a b : List Nat} (long : b.length ≤ a.length) (zero : effLen b = 0) :
    polyDivrem a b = .error .zero := by
  rw [polyDivrem, if_neg (by omega), if_pos zero]

/-! ### `poly.lagrange` (R165) -/

theorem eval_rootFactor (r v : Nat) : (rootFactor r).eval (v : ZMod Config.primeP) = v - r := by
  rw [rootFactor, Polynomial.eval_sub, Polynomial.eval_X, Polynomial.eval_C]

theorem seqPolynomial_rootFactor {x : Nat} (hx : x < Config.primeP) : seqPolynomial [pfNeg x, 1] = rootFactor x := by
  have negative : (pfNeg x : ZMod Config.primeP) = -x := by
    rw [pfNeg, natCast_pfSub primeP_pos hx, Nat.cast_zero, zero_sub]
  simp only [seqPolynomial, negative, rootFactor, map_neg, Nat.cast_one, map_one, mul_zero, add_zero, mul_one]
  ring

/-- A product of root factors vanishes exactly at its roots. -/
theorem eval_prod_rootFactor_eq_zero_iff {roots : List Nat} (below : AllBelowP roots) {v : Nat} (hv : v < Config.primeP) :
    (roots.map rootFactor).prod.eval (v : ZMod Config.primeP) = 0 ↔ v ∈ roots := by
  have : Fact (Nat.Prime Config.primeP) := ⟨primeP_prime⟩
  rw [← Polynomial.coe_evalRingHom, map_list_prod, List.prod_eq_zero_iff, List.map_map, List.mem_map]
  constructor
  · rintro ⟨r, hr, zero⟩
    rw [Function.comp_apply, Polynomial.coe_evalRingHom, eval_rootFactor, sub_eq_zero] at zero
    rwa [eq_of_natCast_eq hv (below r hr) zero]
  · intro hv
    refine ⟨v, hv, ?_⟩
    rw [Function.comp_apply, Polynomial.coe_evalRingHom, eval_rootFactor, sub_self]

/-- Dividing the vanishing polynomial by the factor of a root leaves the factors of the other roots and no remainder. -/
theorem polyDivrem_polyVanish {roots : List Nat} (below : AllBelowP roots) {x : Nat} (hx : x ∈ roots) :
    ∃ q r, polyDivrem (polyVanish roots) [pfNeg x, 1] = .ok (q, r) ∧
      Denotes q roots.length (((roots.erase x).map rootFactor).prod) := by
  have : Fact (Nat.Prime Config.primeP) := ⟨primeP_prime⟩
  have hxP := below x hx
  obtain ⟨length, belowZ, polynomial⟩ := polyVanish_denotes roots
  have nonempty : 0 < roots.length := List.length_pos_of_mem hx
  have belowDivisor : AllBelowP [pfNeg x, 1] :=
    (allBelowP_cons ..).2 ⟨pfSub_lt primeP_pos hxP, (allBelowP_cons ..).2 ⟨primeP_prime.one_lt, allBelowP_nil⟩⟩
  have short : [pfNeg x, 1].length ≤ (polyVanish roots).length := by simp only [List.length_cons, List.length_nil]; omega
  obtain ⟨q, r, steps, lengthQ, lengthR, belowQ, -, identity⟩ :=
    polyDivrem_ok (d := 1) belowZ belowDivisor short (by simp [effLen])
  have factored := List.prod_map_erase rootFactor hx
  rw [polynomial, seqPolynomial_rootFactor hxP, ← factored] at identity
  obtain ⟨r0, rfl⟩ := List.length_eq_one_iff.1 lengthR
  have constant : seqPolynomial [r0] = Polynomial.C (r0 : ZMod Config.primeP) := by simp [seqPolynomial]
  have noRemainder : (r0 : ZMod Config.primeP) = 0 := by
    have value := congrArg (Polynomial.eval (x : ZMod Config.primeP)) identity
    rw [constant, Polynomial.eval_mul, Polynomial.eval_add, Polynomial.eval_mul, Polynomial.eval_C, eval_rootFactor, sub_self,
      zero_mul, mul_zero, zero_add] at value
    exact value.symm
  refine ⟨q, [r0], steps, by omega, belowQ, ?_⟩
  have nonzero : rootFactor x ≠ 0 := Polynomial.X_sub_C_ne_zero _
  rw [constant, noRemainder, map_zero, add_zero, mul_comm] at identity
  exact (mul_right_cancel₀ nonzero identity).symm

/-- The share of a sample takes the sample's value at its abscissa and 0 at every other. -/
structure ShareOf (roots : List Nat) (x y : Nat) (t : List Nat) : Prop where
  length : t.length = roots.length
  below : AllBelowP t
  at_self : (seqPolynomial t).eval (x : ZMod Config.primeP) = y
  at_other : ∀ v ∈ roots, v ≠ x → (seqPolynomial t).eval (v : ZMod Config.primeP) = 0

theorem lagrangeTerm_share {roots : List Nat} (below : AllBelowP roots) (nodup : roots.Nodup) {x : Nat} (hx : x ∈ roots)
    (y : Nat) : ∃ t, lagrangeTerm (polyVanish roots) x y = .ok t ∧ ShareOf roots x y t := by
  obtain ⟨q, r, division, quotient⟩ := polyDivrem_polyVanish below hx
  have others : AllBelowP (roots.erase x) := fun v hv => below v (List.mem_of_mem_erase hv)
  have value : (polyEval q x : ZMod Config.primeP) = (((roots.erase x).map rootFactor).prod).eval (x : ZMod Config.primeP) := by
    rw [natCast_polyEval, quotient.polynomial]
  have nonzero : polyEval q x ≠ 0 := by
    intro zero
    rw [zero, Nat.cast_zero, eq_comm, eval_prod_rootFactor_eq_zero_iff others (below x hx), nodup.mem_erase_iff] at value
    exact value.1 rfl
  have inverse := natCast_mul_pfInvNonzero (polyEval_lt q x) nonzero
  have share := quotient.map_pfMul (pfMul y (pfInvNonzero (polyEval q x)))
  refine ⟨_, (except_bind_ok ..).2 ⟨_, division, (except_bind_ok ..).2 ⟨_, pfInv_of_ne_zero nonzero, rfl⟩⟩,
    share.length, share.below, ?_, fun v hv other => ?_⟩
  · rw [share.polynomial, Polynomial.eval_mul, Polynomial.eval_C, ← value, natCast_pfMul]
    linear_combination (y : ZMod Config.primeP) * inverse
  · have root := (eval_prod_rootFactor_eq_zero_iff others (below v hv)).2 ((List.mem_erase_of_ne other).2 hv)
    rw [share.polynomial, Polynomial.eval_mul, root, mul_zero]

/-- The loop over some of the samples adds their shares: at an abscissa of theirs the value of the sample, elsewhere nothing. -/
theorem lagrangeLoop_ok {roots : List Nat} (below : AllBelowP roots) (nodup : roots.Nodup) (samples : List (Nat × Nat))
    (abscissas : ∀ s ∈ samples, s.1 ∈ roots) (distinct : (samples.map Prod.fst).Nodup) (res : List Nat)
    (lengthRes : res.length = roots.length) (belowRes : AllBelowP res) :
    ∃ cs, lagrangeLoop (polyVanish roots) samples res = .ok cs ∧ cs.length = roots.length ∧ AllBelowP cs ∧
      (∀ s ∈ samples, (seqPolynomial cs).eval (s.1 : ZMod Config.primeP) =
        (seqPolynomial res).eval (s.1 : ZMod Config.primeP) + s.2) ∧
      ∀ v ∈ roots, v ∉ samples.map Prod.fst →
        (seqPolynomial cs).eval (v : ZMod Config.primeP) = (seqPolynomial res).eval (v : ZMod Config.primeP) := by
  induction samples generalizing res with
  | nil => exact ⟨res, rfl, lengthRes, belowRes, nofun, fun _ _ _ => rfl⟩
  | cons s samples ih =>
    obtain ⟨x, y⟩ := s
    obtain ⟨hx, abscissas⟩ := List.forall_mem_cons.1 abscissas
    rw [List.map_cons, List.nodup_cons] at distinct
    obtain ⟨fresh, distinct⟩ := distinct
    obtain ⟨t, term, share⟩ := lagrangeTerm_share below nodup hx y
    have sum := zipWith_pfAdd_denotes (lengthRes ▸ denotes_seqPolynomial belowRes : Denotes res roots.length _)
      (share.length ▸ denotes_seqPolynomial share.below : Denotes t roots.length _)
    obtain ⟨cs, loop, length, belowCs, onSamples, elsewhere⟩ := ih abscissas distinct _ sum.length sum.below
    simp only [sum.polynomial, Polynomial.eval_add] at onSamples elsewhere
    refine ⟨cs, (except_bind_ok ..).2 ⟨t, term, loop⟩, length, belowCs, ?_, fun v hv absent => ?_⟩
    · rw [List.forall_mem_cons]
      constructor
      · rw [elsewhere x hx fresh, share.at_self]
      · intro s hs
        have other : s.1 ≠ x := fun same => fresh (same ▸ List.mem_map.2 ⟨s, hs, rfl⟩)
        rw [onSamples s hs, share.at_other s.1 (abscissas s hs) other, add_zero]
    · rw [List.map_cons, List.mem_cons, not_or] at absent
      rw [elsewhere v hv absent.2, share.at_other v hv absent.1, add_zero]

/-- `poly.lagrange` of samples with distinct abscissas succeeds, and its polynomial passes through every sample. -/
theorem polyLagrange_ok {xs ys : List Nat} (below : AllBelowP xs) (nodup : xs.Nodup) (length : ys.length = xs.length) :
    ∃ cs, polyLagrange xs ys = .ok cs ∧ cs.length = xs.length ∧ AllBelowP cs ∧
      ∀ s ∈ xs.zip ys, (seqPolynomial cs).eval (s.1 : ZMod Config.primeP) = s.2 := by
  have zeros : Denotes (List.replicate xs.length 0) xs.length 0 := by
    refine ⟨List.length_replicate, fun n hn => (List.eq_of_mem_replicate hn).symm ▸ primeP_pos, ?_⟩
    ext j
    rw [seqPolynomial_coeff, List.getD_eq_getElem?_getD, List.getElem?_getD_replicate_default_eq, Nat.cast_zero,
      Polynomial.coeff_zero]
  have firsts : (xs.zip ys).map Prod.fst = xs := List.map_fst_zip length.ge
  obtain ⟨cs, loop, lengthCs, belowCs, onSamples, -⟩ := lagrangeLoop_ok below nodup (xs.zip ys)
    (fun s hs => (List.of_mem_zip hs).1) (firsts.symm ▸ nodup) _ zeros.length zeros.below
  refine ⟨cs, ?_, lengthCs, belowCs, fun s hs => ?_⟩
  · rw [polyLagrange, if_neg (not_not.2 length), if_neg (not_not.2 nodup), loop]
  · rw [onSamples s hs, zeros.polynomial, Polynomial.eval_zero, zero_add]

theorem polyLagrange_of_length_ne {xs ys : List Nat} (h : ys.length ≠ xs.length) : polyLagrange xs ys = .error .length :=
  if_pos h

theorem polyLagrange_of_not_nodup {xs ys : List Nat} (length : ys.length = xs.length) (h : ¬ xs.Nodup) :
    polyLagrange xs ys = .error .distinct := by
  rw [polyLagrange, if_neg (not_not.2 length), if_pos h]

end Sys2Proof.Proofs

/-! The polynomial commands (42_polynomial.md R166 to R172). -/

namespace Sys2Proof.Proofs

open Sys2Proof Sys2Proof.Machine Sys2Proof.Meaning

/-! ### How a command with a sequence as its result ends -/

theorem finishPrimeV_of_ok {r : Except FailCode (List Nat)} {ns : List Nat} (h : r = .ok ns) (rd : VReg) (s : State) :
    finishPrimeV rd r s = .next (s.gaveV rd (ns.map (BitVec.ofNat 256)) 0#64) := by
  rw [h]; rfl

theorem finishPrimeV_of_error {r : Except FailCode (List Nat)} {c : FailCode} (h : r = .error c) (rd : VReg) (s : State) :
    finishPrimeV rd r s = .next (s.failedV rd c.number) := by
  rw [h]; rfl

/-- A command whose operands pass ends as the steps after them do. -/
theorem finishPrimeV_of_operands_ok {β : Type} {operands : Except FailCode β} {b : β} (h : operands = .ok b) (rd : VReg)
    (f : β → Except FailCode (List Nat)) (s : State) : finishPrimeV rd (operands >>= f) s = finishPrimeV rd (f b) s := by
  rw [h]; rfl

/-! ### Sources out of range (60_exceptions.md R241) -/

section
variable {β : Type} {i : Instr} {s : State}

theorem failsOutOfRangeMixed_of_steps {ra : VReg} {rb : EReg} {rest : List Nat × Nat → Except FailCode β}
    (ends : EndsAs (exec i s) (destination i) s (primeVE ra rb s >>= rest)) : FailsOutOfRangeMixed i ra rb s := by
  intro xs y hx hy outside
  have operands := (primeVE_error ra rb s .range).2 (.inr ⟨rfl, xs, y, hx, hy, outside⟩)
  exact ends.of_error .range ((except_bind_error ..).2 (.inl operands))

theorem failsOutOfRangeSequences_of_steps {rd ra rb : VReg} {rest : List Nat × List Nat → Except FailCode β}
    (ends : EndsAs (exec i s) (.v rd) s (primePairV ra rb s >>= rest)) : FailsOutOfRangeSequences i rd ra rb s := by
  intro xs ys hx hy outside
  have operands := (primePairV_error ra rb s .range).2 (.inr ⟨rfl, xs, ys, hx, hy, outside⟩)
  exact ends.of_error .range ((except_bind_error ..).2 (.inl operands))

end

/-! ### `PEVAL` (R166) -/

theorem exec_peval (rd : EReg) (ra : VReg) (rb : EReg) (s : State) :
    exec (.peval rd ra rb) s = finishPrimeE rd (primeVE ra rb s >>= fun p => .ok (polyEval p.1 p.2)) s := rfl

/-- Settles O30: `poly.eval` is the value of the polynomial, which is the sum of the statement. -/
theorem pevalWritesTheSumOfPowers : Obligations.PevalWritesTheSumOfPowers := by
  intro rd ra rb s
  refine ⟨fun cs x hcs hx canonicalCs canonicalX => ?_, failsOutOfRangeMixed_of_steps (finishPrimeE_endsAs ..),
    (missingSourceFailsWithInvalid _ s).1, Laws.opField_encodeR ..⟩
  have operands := (primeVE_ok ra rb s _).2 ⟨cs, x, hcs, hx, canonicalCs, canonicalX, rfl⟩
  rw [exec_peval, finishPrimeE_of_operands_ok operands, polyEval_eq_mod]
  simp only [List.length_map, getD_map_toNat]
  rfl

/-! ### `PVANISH` (R167) -/

theorem exec_pvanish (rd ra : VReg) (s : State) :
    exec (.pvanish rd ra) s = finishPrimeV rd (primeV ra s >>= fun roots =>
      fitsVector (roots.length + 1) s >>= fun _ => .ok (polyVanish roots)) s := rfl

/-- Settles O31: `poly.vanish` denotes the product of the root factors. -/
theorem pvanishWritesTheVanishingPolynomial : Obligations.PvanishWritesTheVanishingPolynomial := by
  intro rd ra s
  have passed : ∀ {roots}, s.v[ra] = some roots → Canonical roots → primeV ra s = .ok (roots.map BitVec.toNat) :=
    fun holds canonical => (primeV_ok ..).2 ⟨_, holds, canonical, rfl⟩
  refine ⟨fun roots holds canonical fits => ?gives, fun roots holds canonical long => ?capacity,
    fun roots holds outside => ?range, (missingSourceFailsWithInvalid _ s).1, Laws.opField_encodeR ..⟩
  case gives =>
    obtain ⟨length, below, polynomial⟩ := polyVanish_denotes (roots.map BitVec.toNat)
    rw [List.length_map] at length
    refine ⟨polyVanish (roots.map BitVec.toNat), ?_, length, below, ?_⟩
    · rw [exec_pvanish, finishPrimeV_of_operands_ok (passed holds canonical), List.length_map]
      exact finishPrimeV_of_ok ((except_bind_ok ..).2 ⟨(), (fitsVector_ok ..).2 fits, rfl⟩) ..
    · rw [polynomial, List.map_map]
      rfl
  case capacity =>
    rw [exec_pvanish, finishPrimeV_of_operands_ok (passed holds canonical), List.length_map]
    exact finishPrimeV_of_error (c := .capacity)
      ((except_bind_error ..).2 (.inl ((fitsVector_error ..).2 ⟨rfl, long⟩))) ..
  case range =>
    have operand := (primeV_error ra s .range).2 (.inr ⟨rfl, roots, holds, outside⟩)
    exact finishPrimeV_of_error (c := .range) ((except_bind_error ..).2 (.inl operand)) ..

/-! ### The commands on two sequences (R168 to R172) -/

theorem primePairV_of_canonical {ra rb : VReg} {s : State} {a b : List Elem} (ha : s.v[ra] = some a) (hb : s.v[rb] = some b)
    (canonicalA : Canonical a) (canonicalB : Canonical b) :
    primePairV ra rb s = .ok (a.map BitVec.toNat, b.map BitVec.toNat) :=
  (primePairV_ok ..).2 ⟨a, b, ha, hb, canonicalA, canonicalB, rfl⟩

theorem exec_ppmul (rd ra rb : VReg) (s : State) :
    exec (.ppmul rd ra rb) s = finishPrimeV rd (primePairV ra rb s >>= fun p =>
      productFits p.1 p.2 s >>= fun _ => .ok (polyMul p.1 p.2)) s := rfl

theorem map_toNat_ne_nil {xs : List Elem} (hne : xs ≠ []) : xs.map BitVec.toNat ≠ [] := by simpa using hne

theorem map_toNat_eq_nil {a b : List Elem} (h : a = [] ∨ b = []) :
    a.map BitVec.toNat = [] ∨ b.map BitVec.toNat = [] := by simpa using h

/-- Settles O32: `poly.mul` denotes the product, of the convolution's length. -/
theorem ppmulWritesTheConvolution : Obligations.PpmulWritesTheConvolution := by
  intro rd ra rb s
  refine ⟨fun a b ha hb canonicalA canonicalB neA neB fits => ?gives, fun a b ha hb canonicalA canonicalB empty => ?empty,
    fun a b ha hb canonicalA canonicalB neA neB long => ?capacity, failsOutOfRangeSequences_of_steps (finishPrimeV_endsAs ..),
    (missingSourceFailsWithInvalid _ s).1, Laws.opField_encodeR ..⟩
  case gives =>
    obtain ⟨length, below, polynomial⟩ := polyMul_of_ne_nil ((allBelowP_map_toNat_iff b).2 canonicalB) (map_toNat_ne_nil neA)
      (map_toNat_ne_nil neB)
    rw [List.length_map, List.length_map] at length
    refine ⟨polyMul (a.map BitVec.toNat) (b.map BitVec.toNat), ?_, length, below, polynomial⟩
    have product := (productFits_ok (a.map BitVec.toNat) (b.map BitVec.toNat) s ()).2 (.inr (.inr (by simpa using fits)))
    rw [exec_ppmul, finishPrimeV_of_operands_ok (primePairV_of_canonical ha hb canonicalA canonicalB)]
    exact finishPrimeV_of_ok ((except_bind_ok ..).2 ⟨(), product, rfl⟩) ..
  case empty =>
    have product := (productFits_ok (a.map BitVec.toNat) (b.map BitVec.toNat) s ()).2
      ((map_toNat_eq_nil empty).imp_right .inl)
    rw [exec_ppmul, finishPrimeV_of_operands_ok (primePairV_of_canonical ha hb canonicalA canonicalB)]
    have steps := (except_bind_ok _ (fun _ => .ok (polyMul (a.map BitVec.toNat) (b.map BitVec.toNat))) _).2 ⟨(), product, rfl⟩
    rw [finishPrimeV_of_ok steps, polyMul_of_nil (map_toNat_eq_nil empty), List.map_nil]
  case capacity =>
    have product := (productFits_error (a.map BitVec.toNat) (b.map BitVec.toNat) s .capacity).2
      ⟨rfl, map_toNat_ne_nil neA, map_toNat_ne_nil neB, by simpa using long⟩
    rw [exec_ppmul, finishPrimeV_of_operands_ok (primePairV_of_canonical ha hb canonicalA canonicalB)]
    exact finishPrimeV_of_error (c := .capacity) ((except_bind_error ..).2 (.inl product)) ..

/-! ### `PPDIV` and `PPREM` (R169, R170) -/

/-- The command divides two canonical sequences and writes a part of the result. -/
structure DivisionCommand (i : Instr) (rd ra rb : VReg) (part : List Nat × List Nat → List Nat) : Prop where
  exec_eq : ∀ s, exec i s = finishPrimeV rd (primePairV ra rb s >>= fun p => polyDivrem p.1 p.2 >>= fun qr => .ok (part qr)) s
  opcode : (opField (encode i)).toNat = opcodeOf i

theorem ppdiv_divisionCommand (rd ra rb : VReg) : DivisionCommand (.ppdiv rd ra rb) rd ra rb Prod.fst :=
  ⟨fun _ => rfl, Laws.OpcodeInWord.ppdiv rd ra rb⟩

theorem pprem_divisionCommand (rd ra rb : VReg) : DivisionCommand (.pprem rd ra rb) rd ra rb Prod.snd :=
  ⟨fun _ => rfl, Laws.OpcodeInWord.pprem rd ra rb⟩

section
variable {i : Instr} {rd ra rb : VReg} {part : List Nat × List Nat → List Nat} {s : State} {a b : List Elem}

theorem DivisionCommand.gives (h : DivisionCommand i rd ra rb part) (ha : s.v[ra] = some a) (hb : s.v[rb] = some b)
    (canonicalA : Canonical a) (canonicalB : Canonical b) {qr : List Nat × List Nat}
    (division : polyDivrem (a.map BitVec.toNat) (b.map BitVec.toNat) = .ok qr) :
    exec i s = .next (s.gaveV rd ((part qr).map (BitVec.ofNat 256)) 0#64) := by
  rw [h.exec_eq, finishPrimeV_of_operands_ok (primePairV_of_canonical ha hb canonicalA canonicalB)]
  exact finishPrimeV_of_ok ((except_bind_ok ..).2 ⟨qr, division, rfl⟩) ..

theorem DivisionCommand.fails (h : DivisionCommand i rd ra rb part) (ha : s.v[ra] = some a) (hb : s.v[rb] = some b)
    (canonicalA : Canonical a) (canonicalB : Canonical b) {c : FailCode}
    (division : polyDivrem (a.map BitVec.toNat) (b.map BitVec.toNat) = .error c) :
    exec i s = .next (s.failedV rd c.number) := by
  rw [h.exec_eq, finishPrimeV_of_operands_ok (primePairV_of_canonical ha hb canonicalA canonicalB)]
  exact finishPrimeV_of_error ((except_bind_error ..).2 (.inl division)) ..

theorem DivisionCommand.failsOutOfRange (h : DivisionCommand i rd ra rb part) (s : State) :
    FailsOutOfRangeSequences i rd ra rb s := by
  refine failsOutOfRangeSequences_of_steps
    (rest := fun p => polyDivrem p.1 p.2 >>= fun qr => .ok (part qr)) ?_
  rw [h.exec_eq]
  exact finishPrimeV_endsAs ..

end

/-- Settles O33: the leading index of the divisor is its effective length less one, and long division gives the two
sequences. -/
theorem ppdivAndPpremDivideWithRemainder : Obligations.PpdivAndPpremDivideWithRemainder := by
  intro rd ra rb s
  refine ⟨fun a b db ha hb canonicalA canonicalB short lead high => ?gives, fun i hi => ?fails⟩
  case gives =>
    have leading : effLen (b.map BitVec.toNat) = db + 1 := by
      refine effLen_eq_succ ?_ fun j hj => ?_
      · rw [getD_map_toNat]
        exact toNat_ne_zero lead
      · rw [getD_map_toNat, high j hj]
        rfl
    obtain ⟨q, r, division, lengthQ, lengthR, belowQ, belowR, identity⟩ :=
      polyDivrem_ok ((allBelowP_map_toNat_iff a).2 canonicalA) ((allBelowP_map_toNat_iff b).2 canonicalB) (by simpa using short)
        leading
    rw [List.length_map] at lengthQ
    exact ⟨q, r, (ppdiv_divisionCommand rd ra rb).gives ha hb canonicalA canonicalB division,
      (pprem_divisionCommand rd ra rb).gives ha hb canonicalA canonicalB division, lengthQ, lengthR,
      (allBelowP_append ..).2 ⟨belowQ, belowR⟩, identity⟩
  case fails =>
    obtain ⟨part, command⟩ : ∃ part, DivisionCommand i rd ra rb part := by
      rcases List.mem_pair.1 hi with rfl | rfl
      · exact ⟨_, ppdiv_divisionCommand rd ra rb⟩
      · exact ⟨_, pprem_divisionCommand rd ra rb⟩
    refine ⟨fun a b ha hb canonicalA canonicalB shorter => ?length, fun a b ha hb canonicalA long zero => ?zero,
      command.failsOutOfRange s, (missingSourceFailsWithInvalid i s).1, command.opcode⟩
    case length => exact command.fails ha hb canonicalA canonicalB (polyDivrem_of_shorter (by simpa using shorter))
    case zero =>
      have canonicalB : Canonical b := fun x hx => zero x hx ▸ primeP_pos
      have zeros : ∀ n ∈ b.map BitVec.toNat, n = 0 := by
        rintro _ hn
        obtain ⟨x, hx, rfl⟩ := List.mem_map.1 hn
        rw [zero x hx]
        rfl
      exact command.fails ha hb canonicalA canonicalB (polyDivrem_of_zero (by simpa using long) (effLen_eq_zero zeros))

/-! ### `PLAG` and `PLAG4` (R171, R172) -/

theorem exec_plag (rd ra rb : VReg) (s : State) :
    exec (.plag rd ra rb) s = finishPrimeV rd (primePairV ra rb s >>= fun p => polyLagrange p.1 p.2) s := rfl

theorem exec_plag4 (rd ra rb : VReg) (s : State) :
    exec (.plag4 rd ra rb) s =
      finishPrimeV rd (primePairV ra rb s >>= fun p => fourSamples p.1 p.2 >>= fun _ => polyLagrange p.1 p.2) s := rfl

theorem nodup_map_toNat_iff (xs : List Elem) : (xs.map BitVec.toNat).Nodup ↔ xs.Nodup :=
  List.nodup_map_iff fun _ _ => BitVec.eq_of_toNat_eq

section
variable {rd ra rb : VReg} {s : State} {xs ys : List Elem}

theorem exec_plag_of_canonical (hx : s.v[ra] = some xs) (hy : s.v[rb] = some ys) (canonicalX : Canonical xs)
    (canonicalY : Canonical ys) :
    exec (.plag rd ra rb) s = finishPrimeV rd (polyLagrange (xs.map BitVec.toNat) (ys.map BitVec.toNat)) s :=
  (exec_plag ..).trans (finishPrimeV_of_operands_ok (primePairV_of_canonical hx hy canonicalX canonicalY) ..)

/-- On four samples `PLAG4` is `PLAG`. -/
theorem exec_plag4_of_four (hx : s.v[ra] = some xs) (hy : s.v[rb] = some ys) (canonicalX : Canonical xs)
    (canonicalY : Canonical ys) (fourX : xs.length = 4) (fourY : ys.length = 4) :
    exec (.plag4 rd ra rb) s = exec (.plag rd ra rb) s := by
  have four := (fourSamples_ok (xs.map BitVec.toNat) (ys.map BitVec.toNat) ()).2 ⟨by simpa using fourX, by simpa using fourY⟩
  rw [exec_plag_of_canonical hx hy canonicalX canonicalY, exec_plag4,
    finishPrimeV_of_operands_ok (primePairV_of_canonical hx hy canonicalX canonicalY), four]
  rfl

/-- On samples with distinct abscissas `PLAG` writes the interpolation polynomial. -/
theorem exec_plag_of_nodup (rd : VReg) (hx : s.v[ra] = some xs) (hy : s.v[rb] = some ys) (canonicalX : Canonical xs)
    (canonicalY : Canonical ys) (length : ys.length = xs.length) (nodup : xs.Nodup) :
    ∃ cs : List Nat, exec (.plag rd ra rb) s = .next (s.gaveV rd (cs.map (BitVec.ofNat 256)) 0#64) ∧ cs.length = xs.length ∧
      AllBelowP cs ∧ ∀ p ∈ (xs.map BitVec.toNat).zip (ys.map BitVec.toNat),
        (seqPolynomial cs).eval (p.1 : ZMod Config.primeP) = p.2 := by
  obtain ⟨cs, steps, lengthCs, below, onSamples⟩ := polyLagrange_ok (ys := ys.map BitVec.toNat)
    ((allBelowP_map_toNat_iff xs).2 canonicalX) ((nodup_map_toNat_iff xs).2 nodup) (by simpa using length)
  rw [List.length_map] at lengthCs
  exact ⟨cs, (exec_plag_of_canonical hx hy canonicalX canonicalY).trans (finishPrimeV_of_ok steps ..), lengthCs, below,
    onSamples⟩

theorem exec_plag_of_not_nodup (rd : VReg) (hx : s.v[ra] = some xs) (hy : s.v[rb] = some ys) (canonicalX : Canonical xs)
    (canonicalY : Canonical ys) (length : ys.length = xs.length) (h : ¬ xs.Nodup) :
    exec (.plag rd ra rb) s = .next (s.failedV rd 3) :=
  (exec_plag_of_canonical hx hy canonicalX canonicalY).trans (finishPrimeV_of_error (c := .distinct)
    (polyLagrange_of_not_nodup (by simpa using length) (mt (nodup_map_toNat_iff xs).1 h)) ..)

end

/-- Settles O34: `poly.lagrange` succeeds on distinct abscissas and passes through every sample. -/
theorem plagInterpolatesTheSamples : Obligations.PlagInterpolatesTheSamples := by
  intro rd ra rb s
  refine ⟨fun xs ys hx hy canonicalX canonicalY length nodup => ?gives, fun xs ys hx hy canonicalX canonicalY length => ?length,
    fun xs ys hx hy canonicalX canonicalY length h => exec_plag_of_not_nodup rd hx hy canonicalX canonicalY length h,
    failsOutOfRangeSequences_of_steps (finishPrimeV_endsAs ..), (missingSourceFailsWithInvalid _ s).1,
    Laws.opField_encodeR ..⟩
  case gives =>
    obtain ⟨cs, gives, lengthCs, below, onSamples⟩ := exec_plag_of_nodup rd hx hy canonicalX canonicalY length nodup
    refine ⟨cs, gives, lengthCs, below, fun i hi => ?_⟩
    have hiY : i < ys.length := length ▸ hi
    have sample : ((xs.getD i 0#256).toNat, (ys.getD i 0#256).toNat) ∈ (xs.map BitVec.toNat).zip (ys.map BitVec.toNat) := by
      rw [List.getD_eq_getElem _ _ hi, List.getD_eq_getElem _ _ hiY, List.mem_iff_getElem]
      exact ⟨i, by simp [hi, hiY], by simp⟩
    have belowY : (ys.getD i 0#256).toNat < Config.primeP := by
      rw [List.getD_eq_getElem _ _ hiY]
      exact canonicalY _ (List.getElem_mem hiY)
    have value := onSamples _ sample
    rw [seqPolynomial_eval] at value
    exact (eq_mod_of_natCast_eq belowY value.symm).symm
  case length =>
    exact (exec_plag_of_canonical hx hy canonicalX canonicalY).trans (finishPrimeV_of_error (c := .length)
      (polyLagrange_of_length_ne (by simpa using length)) ..)

/-- Settles O35: the length check is `PLAG4`'s own; after it the command is `PLAG`. -/
theorem plag4AgreesWithPlagOnFourSamples : Obligations.Plag4AgreesWithPlagOnFourSamples := by
  intro rd ra rb s
  refine ⟨fun xs ys hx hy canonicalX canonicalY fourX fourY nodup => ?gives,
    fun xs ys hx hy canonicalX canonicalY other => ?length,
    fun xs ys hx hy canonicalX canonicalY fourX fourY h => ?distinct,
    failsOutOfRangeSequences_of_steps (finishPrimeV_endsAs ..), (missingSourceFailsWithInvalid _ s).1,
    Laws.opField_encodeR ..⟩
  case gives =>
    have same := exec_plag4_of_four (rd := rd) hx hy canonicalX canonicalY fourX fourY
    obtain ⟨cs, gives, lengthCs, -⟩ := exec_plag_of_nodup rd hx hy canonicalX canonicalY (fourY.trans fourX.symm) nodup
    exact ⟨same, _, same.trans gives, by rw [List.length_map, lengthCs, fourX]⟩
  case length =>
    have lengths := (fourSamples_error (xs.map BitVec.toNat) (ys.map BitVec.toNat) .length).2
      ⟨rfl, by rw [List.length_map, List.length_map, not_and_or]; exact other⟩
    rw [exec_plag4, finishPrimeV_of_operands_ok (primePairV_of_canonical hx hy canonicalX canonicalY)]
    exact finishPrimeV_of_error (c := .length) ((except_bind_error ..).2 (.inl lengths)) ..
  case distinct =>
    rw [exec_plag4_of_four hx hy canonicalX canonicalY fourX fourY]
    exact exec_plag_of_not_nodup rd hx hy canonicalX canonicalY (fourY.trans fourX.symm) h

end Sys2Proof.Proofs

/-! Root-of-unity tables (43_root_of_unity_fft.md R191). A table of `n` entries is the list of the powers of a primitive
`n`-th root of unity of `ZMod P`. -/

namespace Sys2Proof.Proofs

open Sys2Proof Sys2Proof.Machine Sys2Proof.Meaning

/-! ### Orders in the prime field -/

theorem pow_mod_eq_one_iff (g n : Nat) : g ^ n % Config.primeP = 1 ↔ (g : ZMod Config.primeP) ^ n = 1 := by
  rw [← Nat.cast_pow, ← Nat.cast_one (R := ZMod Config.primeP), ZMod.natCast_eq_natCast_iff',
    Nat.mod_eq_of_lt primeP_prime.one_lt]

/-- The spec's order is a primitive root of unity in the field. -/
theorem primitiveRoot_of_hasOrder {g n : Nat} (h : HasOrder g n) : IsPrimitiveRoot (g : ZMod Config.primeP) n := by
  obtain ⟨positive, one, minimal⟩ := h
  exact .mk_of_lt _ positive ((pow_mod_eq_one_iff ..).1 one) fun m hm less => mt (pow_mod_eq_one_iff ..).2 (minimal m less hm)

/-- No power of `γ` from the first to the `n`-th is 1. -/
def NoUnitPower (γ : ZMod Config.primeP) (n : Nat) : Prop := ∀ k, 1 ≤ k → k ≤ n → γ ^ k ≠ 1

theorem noUnitPower_of_noOrderUpTo {g n : Nat} (h : NoOrderUpTo g n) : NoUnitPower (g : ZMod Config.primeP) n :=
  fun k positive inside => mt (pow_mod_eq_one_iff ..).2 (h k positive inside)

section
variable {γ : ZMod Config.primeP} {n : Nat}

theorem NoUnitPower.inv (h : NoUnitPower γ n) : NoUnitPower γ⁻¹ n := fun k positive inside one => by
  have : Fact (Nat.Prime Config.primeP) := ⟨primeP_prime⟩
  rw [inv_pow, inv_eq_one] at one
  exact h k positive inside one

theorem primitiveRoot_inv (h : IsPrimitiveRoot γ n) : IsPrimitiveRoot γ⁻¹ n := by
  have : Fact (Nat.Prime Config.primeP) := ⟨primeP_prime⟩
  exact h.inv

/-- A primitive root of positive order within the bound excludes `NoUnitPower`. -/
theorem NoUnitPower.lt_order {m : Nat} (none : NoUnitPower γ n) (h : IsPrimitiveRoot γ m) (positive : 0 < m) : n < m :=
  Nat.not_le.1 fun inside => none m positive inside h.pow_eq_one

end

/-! ### Power tables -/

/-- The entries of `t` are the powers of `γ` from the `m`-th on, each in canonical form. -/
structure PowersFrom (γ : ZMod Config.primeP) (m : Nat) (t : List Nat) : Prop where
  below : AllBelowP t
  entry : ∀ j < t.length, (t.getD j 0 : ZMod Config.primeP) = γ ^ (m + j)

theorem powersFrom_nil (γ : ZMod Config.primeP) (m : Nat) : PowersFrom γ m [] := ⟨allBelowP_nil, nofun⟩

theorem PowersFrom.cons {γ : ZMod Config.primeP} {m cur : Nat} {t : List Nat} (hcur : cur < Config.primeP)
    (image : (cur : ZMod Config.primeP) = γ ^ m) (h : PowersFrom γ (m + 1) t) : PowersFrom γ m (cur :: t) where
  below := (allBelowP_cons ..).2 ⟨hcur, h.below⟩
  entry j hj := by
    cases j with
    | zero => exact image
    | succ j => exact (h.entry j (Nat.lt_of_succ_lt_succ hj)).trans (congrArg (γ ^ ·) (by omega))

/-- A table of a root of unity: the powers of a primitive root, as many as its order (R190). -/
structure RootTable (γ : ZMod Config.primeP) (t : List Nat) : Prop where
  primitive : IsPrimitiveRoot γ t.length
  powers : PowersFrom γ 0 t

theorem RootTable.entry {γ : ZMod Config.primeP} {t : List Nat} (h : RootTable γ t) {j : Nat} (hj : j < t.length) :
    (t.getD j 0 : ZMod Config.primeP) = γ ^ j := (h.powers.entry j hj).trans (by rw [Nat.zero_add])

/-- Canonical sequences with the same images are equal. -/
theorem eq_of_images {as bs : List Nat} (belowA : AllBelowP as) (belowB : AllBelowP bs) (length : as.length = bs.length)
    (image : ∀ j < as.length, (as.getD j 0 : ZMod Config.primeP) = bs.getD j 0) : as = bs := by
  refine List.ext_getElem length fun j hj hj' => ?_
  have same := image j hj
  rw [List.getD_eq_getElem _ _ hj, List.getD_eq_getElem _ _ hj'] at same
  exact eq_of_natCast_eq (belowA _ (List.getElem_mem hj)) (belowB _ (List.getElem_mem hj')) same

/-- The canonical sequence of `n` residues given by `f`. -/
theorem eq_residues {as : List Nat} {n : Nat} {f : Nat → Nat} (below : AllBelowP as) (length : as.length = n)
    (image : ∀ j < n, (as.getD j 0 : ZMod Config.primeP) = f j) :
    as = (List.range n).map fun j => f j % Config.primeP := by
  refine List.ext_getElem (by simpa using length) fun j hj _ => ?_
  have same := image j (length ▸ hj)
  rw [List.getD_eq_getElem _ _ hj] at same
  rw [List.getElem_map, List.getElem_range]
  exact eq_mod_of_natCast_eq (below _ (List.getElem_mem hj)) same

theorem RootTable.eq_map {g : Nat} {t : List Nat} (h : RootTable (g : ZMod Config.primeP) t) :
    t = (List.range t.length).map fun j => g ^ j % Config.primeP :=
  eq_residues h.powers.below rfl fun j hj => by rw [h.entry hj, Nat.cast_pow]

/-! ### `fft.order` (R191) -/

theorem eq_one_iff_pow {g m cur : Nat} (hcur : cur < Config.primeP)
    (image : (cur : ZMod Config.primeP) = (g : ZMod Config.primeP) ^ m) : cur = 1 ↔ (g : ZMod Config.primeP) ^ m = 1 := by
  rw [← image]
  exact ⟨fun h => by rw [h, Nat.cast_one], fun h => eq_of_natCast_eq hcur primeP_prime.one_lt (h.trans Nat.cast_one.symm)⟩

/-- Powers from the `m`-th on that are not 1: the `m`-th and those from the next one on. -/
theorem forall_shifted {γ : ZMod Config.primeP} {m n : Nat} (now : γ ^ m ≠ 1) (later : ∀ j < n, γ ^ (m + 1 + j) ≠ 1) :
    ∀ j < n + 1, γ ^ (m + j) ≠ 1 := by
  intro j hj
  cases j with
  | zero => exact now
  | succ j => exact Nat.add_right_comm m j 1 ▸ later j (Nat.lt_of_succ_lt_succ hj)

/-- Either the table stops at the first power that is 1, or the room ends before one. -/
theorem rootPowers_outcome (g room m cur : Nat) (hcur : cur < Config.primeP)
    (image : (cur : ZMod Config.primeP) = (g : ZMod Config.primeP) ^ m) :
    (∃ t, rootPowers g room cur = .ok t ∧ t.length ≤ room ∧ PowersFrom (g : ZMod Config.primeP) m t ∧
      (g : ZMod Config.primeP) ^ (m + t.length) = 1 ∧ ∀ j < t.length, (g : ZMod Config.primeP) ^ (m + j) ≠ 1) ∨
    (rootPowers g room cur = .error .capacity ∧ ∀ j ≤ room, (g : ZMod Config.primeP) ^ (m + j) ≠ 1) := by
  induction room generalizing m cur with
  | zero =>
    by_cases one : cur = 1
    · exact .inl ⟨[], if_pos one, le_rfl, powersFrom_nil .., (eq_one_iff_pow hcur image).1 one, nofun⟩
    · refine .inr ⟨if_neg one, fun j hj => ?_⟩
      rw [Nat.le_zero.1 hj]
      exact mt (eq_one_iff_pow hcur image).2 one
  | succ room ih =>
    by_cases one : cur = 1
    · exact .inl ⟨[], if_pos one, Nat.zero_le _, powersFrom_nil .., (eq_one_iff_pow hcur image).1 one, nofun⟩
    · have now := mt (eq_one_iff_pow hcur image).2 one
      have next : (pfMul cur g : ZMod Config.primeP) = (g : ZMod Config.primeP) ^ (m + 1) := by
        rw [natCast_pfMul, image, pow_succ]
      rw [rootPowers, if_neg one]
      rcases ih (m + 1) _ (pfMul_lt ..) next with ⟨t, steps, short, powers, last, before⟩ | ⟨steps, none⟩
      · refine .inl ⟨cur :: t, (except_bind_ok ..).2 ⟨t, steps, rfl⟩, Nat.succ_le_succ short, powers.cons hcur image, ?_, ?_⟩
        · rwa [List.length_cons, ← Nat.add_assoc, Nat.add_right_comm]
        · exact forall_shifted now before
      · refine .inr ⟨(except_bind_error ..).2 (.inl steps), fun j hj => ?_⟩
        exact forall_shifted (n := room + 1) now (fun j hj => none j (Nat.le_of_lt_succ hj)) j (Nat.lt_succ_of_le hj)

/-- The outcome of the search from the first power. -/
theorem rootPowers_first {g : Nat} (hg : g < Config.primeP) (room : Nat) :
    (∃ t, rootPowers g room g = .ok t ∧ t.length ≤ room ∧ RootTable (g : ZMod Config.primeP) (1 :: t)) ∨
      (rootPowers g room g = .error .capacity ∧ NoUnitPower (g : ZMod Config.primeP) (room + 1)) := by
  rcases rootPowers_outcome g room 1 g hg (pow_one _).symm with ⟨t, steps, short, powers, one, before⟩ | ⟨steps, none⟩
  · refine .inl ⟨t, steps, short, ?_, ?_⟩
    · refine .mk_of_lt _ (Nat.succ_pos _) (by rwa [List.length_cons, Nat.add_comm]) fun m positive inside => ?_
      obtain ⟨j, rfl⟩ : ∃ j, m = 1 + j := ⟨m - 1, by omega⟩
      exact before j (by rw [List.length_cons] at inside; omega)
    · exact powers.cons primeP_prime.one_lt (by rw [pow_zero, Nat.cast_one])
  · refine .inr ⟨steps, fun k positive inside => ?_⟩
    obtain ⟨j, rfl⟩ : ∃ j, k = 1 + j := ⟨k - 1, by omega⟩
    exact none j (by omega)

theorem isPowerOfTwo_iff (n : Nat) : isPowerOfTwo n = true ↔ ∃ k, n = 2 ^ k := by
  rw [isPowerOfTwo, beq_iff_eq]
  refine ⟨fun h => ⟨_, h⟩, ?_⟩
  rintro ⟨k, rfl⟩
  rw [Nat.log2_two_pow]

section
variable {nmax root g : Nat} {inverse : Bool}

theorem fftOrder_of_generator (generator : orderGenerator root inverse = .ok g) :
    fftOrder nmax root inverse = rootPowers g (nmax - 1) g >>= fun t =>
      if isPowerOfTwo (1 :: t).length then .ok (1 :: t) else .error .order := by
  rw [fftOrder, generator]
  rfl

/-- A generator of order `n` at most `NMAX` has a table, which is the answer exactly if `n` is a power of two. -/
theorem fftOrder_of_order (generator : orderGenerator root inverse = .ok g) (hg : g < Config.primeP) {n : Nat}
    (order : IsPrimitiveRoot (g : ZMod Config.primeP) n) (positive : 0 < n) (fits : n ≤ nmax) :
    ∃ t, RootTable (g : ZMod Config.primeP) t ∧ t.length = n ∧
      fftOrder nmax root inverse = if isPowerOfTwo n then .ok t else .error .order := by
  rcases rootPowers_first hg (nmax - 1) with ⟨t, steps, -, table⟩ | ⟨-, none⟩
  · have length : (1 :: t).length = n := table.primitive.unique order
    refine ⟨1 :: t, table, length, ?_⟩
    rw [fftOrder_of_generator generator, steps, ← length]
    rfl
  · have := none.lt_order order positive
    omega

theorem fftOrder_of_not_powerOfTwo (generator : orderGenerator root inverse = .ok g) (hg : g < Config.primeP) {n : Nat}
    (order : IsPrimitiveRoot (g : ZMod Config.primeP) n) (positive : 0 < n) (fits : n ≤ nmax) (other : ∀ k, n ≠ 2 ^ k) :
    fftOrder nmax root inverse = .error .order := by
  obtain ⟨t, -, -, steps⟩ := fftOrder_of_order generator hg order positive fits
  rw [steps, if_neg]
  exact mt (isPowerOfTwo_iff n).1 fun ⟨k, hk⟩ => other k hk

theorem fftOrder_of_powerOfTwo (generator : orderGenerator root inverse = .ok g) (hg : g < Config.primeP) {k : Nat}
    (order : IsPrimitiveRoot (g : ZMod Config.primeP) (2 ^ k)) (fits : 2 ^ k ≤ nmax) :
    ∃ t, fftOrder nmax root inverse = .ok t ∧ t.length = 2 ^ k ∧ RootTable (g : ZMod Config.primeP) t := by
  obtain ⟨t, table, length, steps⟩ := fftOrder_of_order generator hg order (Nat.two_pow_pos k) fits
  rw [if_pos ((isPowerOfTwo_iff _).2 ⟨k, rfl⟩)] at steps
  exact ⟨t, steps, length, table⟩

theorem fftOrder_of_noUnitPower (generator : orderGenerator root inverse = .ok g) (hg : g < Config.primeP)
    (none : NoUnitPower (g : ZMod Config.primeP) nmax) (room : 1 ≤ nmax) : fftOrder nmax root inverse = .error .capacity := by
  rcases rootPowers_first hg (nmax - 1) with ⟨t, -, short, table⟩ | ⟨steps, -⟩
  · have := none.lt_order table.primitive (Nat.succ_pos _)
    rw [List.length_cons] at this
    omega
  · rw [fftOrder_of_generator generator, steps]
    rfl

/-- What a table that `fft.order` gives is. -/
theorem fftOrder_ok {t : List Nat} (steps : fftOrder nmax root inverse = .ok t)
    (generator : orderGenerator root inverse = .ok g)
    (hg : g < Config.primeP) : RootTable (g : ZMod Config.primeP) t ∧ (∃ k, t.length = 2 ^ k) ∧ t.length ≤ nmax - 1 + 1 := by
  rw [fftOrder_of_generator generator] at steps
  obtain ⟨rest, powers, checked⟩ := (except_bind_ok ..).1 steps
  split_ifs at checked with two
  cases checked
  rcases rootPowers_first hg (nmax - 1) with ⟨t, other, short, table⟩ | ⟨other, -⟩
  · cases other.symm.trans powers
    exact ⟨table, (isPowerOfTwo_iff _).1 two, Nat.succ_le_succ short⟩
  · cases other.symm.trans powers

end

/-! ### The generator -/

/-- The element the table of `root` is built from: the element itself or its inverse. -/
def generatorImage (root : Nat) (inverse : Bool) : ZMod Config.primeP := if inverse then (root : ZMod Config.primeP)⁻¹ else root

theorem natCast_pfInvNonzero {x : Nat} (hx : x < Config.primeP) (hne : x ≠ 0) :
    (pfInvNonzero x : ZMod Config.primeP) = (x : ZMod Config.primeP)⁻¹ := by
  have : Fact (Nat.Prime Config.primeP) := ⟨primeP_prime⟩
  exact eq_inv_of_mul_eq_one_right (natCast_mul_pfInvNonzero hx hne)

/-- `pf.inv` of the root when the inverse is requested, of a root that has one. -/
theorem orderGenerator_eq_ok {root : Nat} {inverse : Bool} (hroot : root < Config.primeP) (hne : inverse = true → root ≠ 0) :
    ∃ g, orderGenerator root inverse = .ok g ∧ g < Config.primeP ∧
      g = (if inverse then root ^ (Config.primeP - 2) % Config.primeP else root) ∧
      (g : ZMod Config.primeP) = generatorImage root inverse := by
  cases inverse with
  | false => exact ⟨root, rfl, hroot, rfl, rfl⟩
  | true =>
    refine ⟨pfInvNonzero root, pfInv_of_ne_zero (hne rfl), pfInvNonzero_lt root, ?_, natCast_pfInvNonzero hroot (hne rfl)⟩
    rw [if_pos rfl]
    exact pfInvNonzero_eq_mod root

theorem orderGenerator_ok {root g : Nat} {inverse : Bool} (hroot : root < Config.primeP)
    (h : orderGenerator root inverse = .ok g) :
    g < Config.primeP ∧ (g : ZMod Config.primeP) = generatorImage root inverse ∧ (inverse = true → root ≠ 0) := by
  have hne : inverse = true → root ≠ 0 := by
    rintro rfl rfl
    cases h
  obtain ⟨g', generator, below, -, image⟩ := orderGenerator_eq_ok hroot hne
  cases h.symm.trans generator
  exact ⟨below, image, hne⟩

/-- What a table that `fft.order` gives for a canonical root is. -/
theorem rootTable_of_fftOrder {nmax root : Nat} {inverse : Bool} {t : List Nat} (hroot : root < Config.primeP)
    (steps : fftOrder nmax root inverse = .ok t) :
    RootTable (generatorImage root inverse) t ∧ (∃ k, t.length = 2 ^ k) ∧ t.length ≤ nmax - 1 + 1 := by
  obtain ⟨g, generator, -⟩ := (except_bind_ok ..).1 steps
  obtain ⟨hg, image, -⟩ := orderGenerator_ok hroot generator
  rw [← image]
  exact fftOrder_ok steps generator hg

end Sys2Proof.Proofs

/-! The transforms (43_root_of_unity_fft.md R192 to R195). A transform of `y` by `γ` lists the values of `y`'s polynomial at
the powers of `γ`; the direct kernel, the radix-2 recursion and the round trip are statements about these values. -/

namespace Sys2Proof.Proofs

open Sys2Proof Sys2Proof.Machine Sys2Proof.Meaning

/-- `out` lists the first `n` values `w·Y(γ^i)` in canonical form, `Y` the polynomial of `y`. -/
structure Transforms (γ : ZMod Config.primeP) (w : ZMod Config.primeP) (y : List Nat) (n : Nat) (out : List Nat) : Prop where
  length : out.length = n
  below : AllBelowP out
  entry : ∀ i < n, (out.getD i 0 : ZMod Config.primeP) = w * (seqPolynomial y).eval (γ ^ i)

/-- The values determine the sequence. -/
theorem Transforms.unique {γ w : ZMod Config.primeP} {y as bs : List Nat} {n : Nat} (ha : Transforms γ w y n as)
    (hb : Transforms γ w y n bs) : as = bs :=
  eq_of_images ha.below hb.below (ha.length.trans hb.length.symm) fun j hj =>
    (ha.entry j (ha.length ▸ hj)).trans (hb.entry j (ha.length ▸ hj)).symm

/-! ### The direct kernel (R192, R193) -/

/-- A sum of `n` products by `pf.add` and `pf.mul`. -/
theorem foldl_pfAdd_pfMul (a b : Nat → Nat) (n : Nat) :
    let sum := (List.range n).foldl (fun acc j => pfAdd acc (pfMul (a j) (b j))) 0
    sum < Config.primeP ∧ (sum : ZMod Config.primeP) = ∑ j ∈ Finset.range n, (a j : ZMod Config.primeP) * b j := by
  induction n with
  | zero => exact ⟨primeP_pos, by simp⟩
  | succ n ih =>
    obtain ⟨below, image⟩ := ih
    rw [List.range_succ, List.foldl_append, Finset.sum_range_succ]
    refine ⟨pfAdd_lt below (pfMul_lt ..), ?_⟩
    rw [List.foldl_cons, List.foldl_nil, natCast_pfAdd below (pfMul_lt ..), image, natCast_pfMul]

section
variable {γ : ZMod Config.primeP} {t : List Nat}

/-- `fft.dft` at place `i` is the value at the `i`-th power. -/
theorem natCast_dftSum (table : RootTable γ t) (positive : 0 < t.length) (y : List Nat) (i : Nat) :
    (dftSum y t i : ZMod Config.primeP) = (seqPolynomial y).eval (γ ^ i) := by
  have image := (foldl_pfAdd_pfMul (fun j => y.getD j 0) (fun j => t.getD (i * j % t.length) 0) y.length).2
  refine image.trans ?_
  rw [seqPolynomial_eval_eq_sum]
  refine Finset.sum_congr rfl fun j _ => ?_
  rw [table.entry (Nat.mod_lt _ positive), ← pow_eq_pow_mod _ table.primitive.pow_eq_one, pow_mul]

theorem fftDirect_transforms (table : RootTable γ t) (y : List Nat) (w : Nat) :
    Transforms γ w y t.length (fftDirect y t w) where
  length := by rw [fftDirect, fftDft, List.length_map, List.length_map, List.length_range]
  below := allBelowP_map_pfMul w _
  entry i hi := by
    have inside : i < ((fftDft y t).map (pfMul w)).length := by simpa [fftDft] using hi
    rw [fftDirect, List.getD_eq_getElem _ _ inside, List.getElem_map, natCast_pfMul]
    simp only [fftDft, List.getElem_map, List.getElem_range]
    rw [natCast_dftSum table (Nat.zero_lt_of_lt hi)]

end

/-! ### Even and odd places -/

theorem evens_length (l : List Nat) : (evens l).length = (l.length + 1) / 2 := by
  induction l using evens.induct with
  | case1 => rfl
  | case2 x => simp [evens]
  | case3 x y rest ih => simp only [evens, List.length_cons, ih]; omega

theorem odds_length (l : List Nat) : (odds l).length = l.length / 2 := by
  induction l using odds.induct with
  | case1 => rfl
  | case2 x => simp [odds]
  | case3 x y rest ih => simp only [odds, List.length_cons, ih]; omega

theorem evens_getD (l : List Nat) (j : Nat) : (evens l).getD j 0 = l.getD (2 * j) 0 := by
  induction l using evens.induct generalizing j with
  | case1 => simp [evens]
  | case2 x => cases j <;> simp [evens]
  | case3 x y rest ih =>
    cases j with
    | zero => rfl
    | succ j => exact ih j

theorem mem_of_mem_evens {n : Nat} (l : List Nat) (h : n ∈ evens l) : n ∈ l := by
  induction l using evens.induct with
  | case1 => exact h
  | case2 x => exact h
  | case3 x y rest ih =>
    rcases List.mem_cons.1 h with rfl | h
    · exact List.mem_cons_self
    · exact List.mem_cons_of_mem _ (List.mem_cons_of_mem _ (ih h))

/-- A polynomial at `x` from its even and its odd coefficients at `x²`. -/
theorem seqPolynomial_eval_evens_odds (l : List Nat) (x : ZMod Config.primeP) :
    (seqPolynomial l).eval x = (seqPolynomial (evens l)).eval (x ^ 2) + x * (seqPolynomial (odds l)).eval (x ^ 2) := by
  induction l using evens.induct with
  | case1 => simp [seqPolynomial, evens, odds]
  | case2 a => simp [seqPolynomial, evens, odds]
  | case3 a b rest ih =>
    simp only [seqPolynomial, evens, odds, Polynomial.eval_add, Polynomial.eval_mul, Polynomial.eval_C, Polynomial.eval_X, ih]
    ring

/-- The even places of a table are the table of the square. -/
theorem RootTable.evens {γ : ZMod Config.primeP} {t : List Nat} (table : RootTable γ t) {m : Nat} (positive : 0 < m)
    (double : t.length = 2 * m) : RootTable (γ ^ 2) (evens t) where
  primitive := by
    rw [evens_length, double]
    exact table.primitive.pow (by omega) (by omega)
  powers := by
    refine ⟨fun n hn => table.powers.below n (mem_of_mem_evens t hn), fun j hj => ?_⟩
    rw [evens_length] at hj
    rw [evens_getD, table.entry (by omega), Nat.zero_add, pow_mul]

/-! ### The radix-2 recursion (R194) -/

theorem getD_zipWith {f : Nat → Nat → Nat} {as bs : List Nat} {i : Nat} (ha : i < as.length) (hb : i < bs.length) :
    (List.zipWith f as bs).getD i 0 = f (as.getD i 0) (bs.getD i 0) := by
  rw [List.getD_eq_getElem _ _ (by rw [List.length_zipWith]; exact lt_min ha hb), List.getElem_zipWith,
    List.getD_eq_getElem _ _ ha, List.getD_eq_getElem _ _ hb]

theorem AllBelowP.getD {ns : List Nat} (h : AllBelowP ns) (i : Nat) : ns.getD i 0 < Config.primeP := by
  by_cases hi : i < ns.length
  · rw [List.getD_eq_getElem _ _ hi]
    exact h _ (List.getElem_mem hi)
  · rw [List.getD_eq_default _ _ (Nat.not_lt.1 hi)]
    exact primeP_pos

theorem allBelowP_zipWith {f : Nat → Nat → Nat} (lt : ∀ {a b}, a < Config.primeP → b < Config.primeP → f a b < Config.primeP)
    {as bs : List Nat} (ha : AllBelowP as) (hb : AllBelowP bs) : AllBelowP (List.zipWith f as bs) := by
  intro n hn
  rw [← List.map_uncurry_zip_eq_zipWith, List.mem_map] at hn
  obtain ⟨⟨a, b⟩, mem, rfl⟩ := hn
  exact lt (ha a (List.of_mem_zip mem).1) (hb b (List.of_mem_zip mem).2)

/-- Half the order up, a power of the root changes its sign. -/
theorem pow_half_add {γ : ZMod Config.primeP} {m : Nat} (positive : 0 < m) (h : IsPrimitiveRoot γ (2 * m)) (i : Nat) :
    γ ^ (m + i) = -γ ^ i := by
  have : Fact (Nat.Prime Config.primeP) := ⟨primeP_prime⟩
  have half : γ ^ m = -1 := (h.pow (by omega) (Nat.mul_comm 2 m)).eq_neg_one_of_two_right
  rw [pow_add, half, neg_one_mul]

/-- The butterfly joins the transforms of the even and the odd coefficients by the square of the root. -/
theorem butterfly_transforms {γ w : ZMod Config.primeP} {t y l r : List Nat} {m : Nat} (table : RootTable γ t)
    (positive : 0 < m) (double : t.length = 2 * m) (hl : Transforms (γ ^ 2) w (evens y) m l)
    (hr : Transforms (γ ^ 2) w (odds y) m r) : Transforms γ w y t.length (butterfly t l r) := by
  have product : ∀ i < m, (List.zipWith pfMul t r).getD i 0 = pfMul (t.getD i 0) (r.getD i 0) := fun i hi =>
    getD_zipWith (by omega) (hr.length.symm ▸ hi)
  have lengthTR : (List.zipWith pfMul t r).length = m := by rw [List.length_zipWith, hr.length]; omega
  have belowTR : AllBelowP (List.zipWith pfMul t r) := allBelowP_zipWith (fun _ _ => pfMul_lt ..) table.powers.below hr.below
  have odd : ∀ i < m, (pfMul (t.getD i 0) (r.getD i 0) : ZMod Config.primeP) =
      γ ^ i * (w * (seqPolynomial (odds y)).eval ((γ ^ i) ^ 2)) := fun i hi => by
    rw [natCast_pfMul, table.entry (by omega), hr.entry i hi, pow_right_comm]
  have even : ∀ i < m, (l.getD i 0 : ZMod Config.primeP) = w * (seqPolynomial (evens y)).eval ((γ ^ i) ^ 2) := fun i hi => by
    rw [hl.entry i hi, pow_right_comm]
  have lengthSum : (List.zipWith pfAdd l (List.zipWith pfMul t r)).length = m := by
    rw [List.length_zipWith, hl.length, lengthTR, min_self]
  refine ⟨?_, ?_, fun i hi => ?_⟩
  · rw [butterfly, List.length_append, lengthSum, List.length_zipWith, hl.length, lengthTR]
    omega
  · exact (allBelowP_append ..).2 ⟨allBelowP_zipWith pfAdd_lt hl.below belowTR, allBelowP_zipWith pfSub_lt hl.below belowTR⟩
  · rw [seqPolynomial_eval_evens_odds, butterfly]
    by_cases first : i < m
    · rw [List.getD_append _ _ _ _ (lengthSum.symm ▸ first), getD_zipWith (hl.length.symm ▸ first) (lengthTR.symm ▸ first),
        product i first, natCast_pfAdd (hl.below.getD i) (pfMul_lt ..), even i first, odd i first]
      ring
    · obtain ⟨j, rfl⟩ : ∃ j, i = m + j := ⟨i - m, by omega⟩
      have second : j < m := by omega
      rw [List.getD_append_right _ _ _ _ (by omega), lengthSum, Nat.add_sub_cancel_left,
        getD_zipWith (hl.length.symm ▸ second) (lengthTR.symm ▸ second), product j second,
        natCast_pfSub (hl.below.getD j) (pfMul_lt ..), even j second, odd j second,
        pow_half_add positive (double ▸ table.primitive), neg_sq]
      ring

/-- The recursion computes the transform at every depth. -/
theorem fftRadix2Levels_transforms (w depth k : Nat) {γ : ZMod Config.primeP} {t y : List Nat} (table : RootTable γ t)
    (two : t.length = 2 ^ k) (length : y.length = t.length) :
    Transforms γ w y t.length (fftRadix2Levels w depth y t) := by
  induction depth generalizing k γ t y with
  | zero => exact fftDirect_transforms table y w
  | succ depth ih =>
    rw [fftRadix2Levels]
    split
    case isTrue => exact fftDirect_transforms table y w
    case isFalse large =>
      obtain ⟨k, rfl⟩ : ∃ i, k = i + 1 := by
        refine ⟨k - 1, (Nat.sub_add_cancel (Nat.pos_of_ne_zero fun zero => ?_)).symm⟩
        rw [length, two, zero] at large
        exact large (by decide)
      have double : t.length = 2 * 2 ^ k := two.trans (pow_succ' ..)
      have tableE := table.evens (Nat.two_pow_pos k) double
      have lengthT : (evens t).length = 2 ^ k := by rw [evens_length]; omega
      have even := ih k tableE lengthT (y := evens y) (by rw [evens_length]; omega)
      have odd := ih k tableE lengthT (y := odds y) (by rw [odds_length]; omega)
      rw [lengthT] at even odd
      exact butterfly_transforms table (Nat.two_pow_pos k) double even odd

theorem fftRadix2_transforms (w : Nat) {γ : ZMod Config.primeP} {t y : List Nat} (table : RootTable γ t)
    (two : ∃ k, t.length = 2 ^ k) (length : y.length = t.length) : Transforms γ w y t.length (fftRadix2 y t w) := by
  obtain ⟨k, two⟩ := two
  exact fftRadix2Levels_transforms w _ k table two length

/-- Settles O39: the recursion and the direct sum list the same values. -/
theorem radixTwoRecursionComputesTheTransformSum : Obligations.RadixTwoRecursionComputesTheTransformSum := by
  intro nmax root inverse t y w hroot steps length _ _
  obtain ⟨table, two, -⟩ := rootTable_of_fftOrder hroot steps
  exact (fftRadix2_transforms w table two length).unique (fftDirect_transforms table y w)

/-! ### `ForwardTransform` and `InverseTransform` (R197, R198) -/

theorem seqPolynomial_append_zeros (cs : List Nat) (n : Nat) : seqPolynomial (cs ++ List.replicate n 0) = seqPolynomial cs := by
  have zeros : seqPolynomial (List.replicate n 0) = 0 := by
    induction n with
    | zero => rfl
    | succ n ih => rw [List.replicate_succ, seqPolynomial_zero_cons, ih, mul_zero]
  rw [seqPolynomial_append, zeros, mul_zero, add_zero]

section
variable {γ : ZMod Config.primeP} {t : List Nat}

theorem forwardTransform_ok (table : RootTable γ t) (two : ∃ k, t.length = 2 ^ k) {cs : List Nat}
    (fits : cs.length ≤ t.length) : ∃ es, forwardTransform cs t = .ok es ∧ Transforms γ 1 cs t.length es := by
  have padded : (cs ++ List.replicate (t.length - cs.length) 0).length = t.length := by
    rw [List.length_append, List.length_replicate]
    omega
  have values := fftRadix2_transforms 1 table two padded
  refine ⟨_, if_neg (by omega), values.length, values.below, fun i hi => ?_⟩
  rw [values.entry i hi, seqPolynomial_append_zeros, Nat.cast_one]

theorem forwardTransform_of_longer {cs : List Nat} (long : t.length < cs.length) : forwardTransform cs t = .error .length :=
  if_pos long

/-- A power of two is invertible modulo `P`. -/
theorem two_pow_mod_ne_zero (k : Nat) : 2 ^ k % Config.primeP ≠ 0 := by
  intro zero
  have divides : Config.primeP ∣ 2 := primeP_prime.dvd_of_dvd_pow (Nat.dvd_of_mod_eq_zero zero)
  exact absurd (Nat.le_of_dvd Nat.two_pos divides) (by decide)

theorem inverseTransform_ok (table : RootTable γ t) (two : ∃ k, t.length = 2 ^ k) {ys : List Nat}
    (length : ys.length = t.length) : ∃ cs, inverseTransform ys t = .ok cs ∧ Transforms γ (t.length : ZMod Config.primeP)⁻¹ ys t.length cs := by
  have invertible : t.length % Config.primeP ≠ 0 := by
    obtain ⟨k, hk⟩ := two
    exact hk ▸ two_pow_mod_ne_zero k
  have values := fftRadix2_transforms (pfInvNonzero (t.length % Config.primeP)) table two length
  rw [natCast_pfInvNonzero (Nat.mod_lt _ primeP_pos) invertible, ZMod.natCast_mod] at values
  refine ⟨_, ?_, values⟩
  rw [inverseTransform, if_neg (not_not.2 length), pfInv_of_ne_zero invertible]
  rfl

theorem inverseTransform_of_length_ne {ys : List Nat} (h : ys.length ≠ t.length) : inverseTransform ys t = .error .length :=
  if_pos h

end

/-! ### The round trip (R199) -/

/-- The powers of the quotient of two powers of a primitive root add up to nothing, unless the two are the same. -/
theorem sum_pow_mul_inv_pow {γ : ZMod Config.primeP} {n i l : Nat} (h : IsPrimitiveRoot γ n) (hi : i < n) (hl : l < n) :
    ∑ j ∈ Finset.range n, (γ ^ i * γ⁻¹ ^ l) ^ j = if i = l then (n : ZMod Config.primeP) else 0 := by
  have : Fact (Nat.Prime Config.primeP) := ⟨primeP_prime⟩
  have unit : γ ≠ 0 := h.ne_zero (by omega)
  by_cases same : i = l
  · rw [if_pos same, same, inv_pow, mul_inv_cancel₀ (pow_ne_zero l unit)]
    simp
  · rw [if_neg same]
    have other : γ ^ i * γ⁻¹ ^ l ≠ 1 := by
      rw [inv_pow, Ne, mul_inv_eq_one₀ (pow_ne_zero l unit)]
      exact fun powers => same (h.pow_inj hi hl powers)
    have period : (γ ^ i * γ⁻¹ ^ l) ^ n = 1 := by
      rw [mul_pow, pow_right_comm, pow_right_comm γ⁻¹, h.pow_eq_one, inv_pow, h.pow_eq_one, inv_one, one_pow, one_pow, one_mul]
    rw [geom_sum_eq other, period, sub_self, zero_div]

/-- A transform by `γ⁻¹` and then one by `γ`, with factors whose product is the inverse of the size, give the sequence back. -/
theorem transforms_roundTrip {γ v w : ZMod Config.primeP} {ys cs out : List Nat} {n : Nat} (h : IsPrimitiveRoot γ n)
    (scale : w * (v * n) = 1) (below : AllBelowP ys) (length : ys.length = n) (there : Transforms γ⁻¹ v ys n cs)
    (back : Transforms γ w cs n out) : out = ys := by
  refine eq_of_images back.below below (back.length.trans length.symm) fun i hi => ?_
  rw [back.length] at hi
  have exchange : ∑ j ∈ Finset.range n,
      (v * ∑ l ∈ Finset.range n, (ys.getD l 0 : ZMod Config.primeP) * (γ⁻¹ ^ j) ^ l) * (γ ^ i) ^ j =
      v * ∑ l ∈ Finset.range n, (ys.getD l 0 : ZMod Config.primeP) * ∑ j ∈ Finset.range n, (γ ^ i * γ⁻¹ ^ l) ^ j := by
    simp only [Finset.mul_sum, Finset.sum_mul]
    rw [Finset.sum_comm]
    refine Finset.sum_congr rfl fun l _ => Finset.sum_congr rfl fun j _ => ?_
    rw [mul_pow, pow_right_comm γ⁻¹]
    ring
  have pick : ∑ l ∈ Finset.range n, (ys.getD l 0 : ZMod Config.primeP) * ∑ j ∈ Finset.range n, (γ ^ i * γ⁻¹ ^ l) ^ j =
      ys.getD i 0 * n := by
    rw [Finset.sum_congr rfl fun l hl => by rw [sum_pow_mul_inv_pow h hi (Finset.mem_range.1 hl)]]
    simp [hi]
  rw [back.entry i hi, seqPolynomial_eval_eq_sum, there.length, Finset.sum_congr rfl fun j hj => by
    rw [there.entry j (Finset.mem_range.1 hj), seqPolynomial_eval_eq_sum, length], exchange, pick]
  linear_combination (ys.getD i 0 : ZMod Config.primeP) * scale

/-- Settles O40: the two tables are of inverse roots and of one size, so each transform undoes the other. -/
theorem transformsRoundTrip : Obligations.TransformsRoundTrip := by
  intro nmax root t ti ys hroot forward inverse length below
  have : Fact (Nat.Prime Config.primeP) := ⟨primeP_prime⟩
  obtain ⟨table, two, -⟩ := rootTable_of_fftOrder hroot forward
  obtain ⟨tableI, twoI, -⟩ := rootTable_of_fftOrder hroot inverse
  have order : IsPrimitiveRoot (root : ZMod Config.primeP) t.length := table.primitive
  have orderI : IsPrimitiveRoot (root : ZMod Config.primeP)⁻¹ ti.length := tableI.primitive
  have size : ti.length = t.length := orderI.unique order.inv
  have scale : (t.length : ZMod Config.primeP)⁻¹ * t.length = 1 := by
    obtain ⟨k, hk⟩ := two
    refine inv_mul_cancel₀ ?_
    rw [hk, ← ZMod.natCast_mod]
    exact natCast_ne_zero (Nat.mod_lt _ primeP_pos) (two_pow_mod_ne_zero k)
  constructor
  · obtain ⟨cs, stepsI, there⟩ := inverseTransform_ok tableI twoI (length.trans size.symm)
    obtain ⟨out, steps, back⟩ := forwardTransform_ok table two (cs := cs) (by rw [there.length, size])
    rw [size] at there
    obtain rfl := transforms_roundTrip order (by rw [one_mul, scale]) below length there back
    exact ⟨cs, stepsI, steps⟩
  · obtain ⟨es, steps, there⟩ := forwardTransform_ok table two length.le
    obtain ⟨out, stepsI, back⟩ := inverseTransform_ok tableI twoI (ys := es) (by rw [there.length, size])
    rw [size] at back
    have undone : (root : ZMod Config.primeP)⁻¹⁻¹ = generatorImage _ false := inv_inv _
    rw [← undone] at there
    obtain rfl := transforms_roundTrip order.inv (by rw [one_mul, scale]) below length there back
    exact ⟨es, steps, stepsI⟩

end Sys2Proof.Proofs

/-! The root-of-unity and transform commands (43_root_of_unity_fft.md R196 to R198). -/

namespace Sys2Proof.Proofs

open Sys2Proof Sys2Proof.Machine Sys2Proof.Meaning

/-! ### How `fft.order` ends for a canonical root -/

section
variable {nmax x : Nat} {inverse : Bool}

theorem generatorImage_primitive {n : Nat} (h : IsPrimitiveRoot (x : ZMod Config.primeP) n) (inverse : Bool) :
    IsPrimitiveRoot (generatorImage x inverse) n := by
  cases inverse with
  | false => exact h
  | true => exact primitiveRoot_inv h

theorem generatorImage_noUnitPower {n : Nat} (h : NoUnitPower (x : ZMod Config.primeP) n) (inverse : Bool) :
    NoUnitPower (generatorImage x inverse) n := by
  cases inverse with
  | false => exact h
  | true => exact h.inv

/-- The root of order `2^k`, or its inverse, has a table. -/
theorem fftOrder_table (hx : x < Config.primeP) (hne : inverse = true → x ≠ 0) {k : Nat}
    (order : IsPrimitiveRoot (generatorImage x inverse) (2 ^ k)) (fits : 2 ^ k ≤ nmax) :
    ∃ t, fftOrder nmax x inverse = .ok t ∧ t.length = 2 ^ k ∧ RootTable (generatorImage x inverse) t := by
  obtain ⟨g, generator, below, -, image⟩ := orderGenerator_eq_ok hx hne
  rw [← image] at order ⊢
  exact fftOrder_of_powerOfTwo generator below order fits

theorem fftOrder_error_order (hx : x < Config.primeP) (hne : inverse = true → x ≠ 0) {n : Nat}
    (order : IsPrimitiveRoot (generatorImage x inverse) n) (positive : 0 < n) (fits : n ≤ nmax) (other : ∀ k, n ≠ 2 ^ k) :
    fftOrder nmax x inverse = .error .order := by
  obtain ⟨g, generator, below, -, image⟩ := orderGenerator_eq_ok hx hne
  rw [← image] at order
  exact fftOrder_of_not_powerOfTwo generator below order positive fits other

theorem fftOrder_error_capacity (hx : x < Config.primeP) (hne : inverse = true → x ≠ 0)
    (none : NoUnitPower (generatorImage x inverse) nmax) (room : 1 ≤ nmax) : fftOrder nmax x inverse = .error .capacity := by
  obtain ⟨g, generator, below, -, image⟩ := orderGenerator_eq_ok hx hne
  rw [← image] at none
  exact fftOrder_of_noUnitPower generator below none room

theorem fftOrder_zero_inverse (nmax : Nat) : fftOrder nmax 0 true = .error .zero := rfl

end

/-! ### `ORDER` (R196) -/

theorem exec_order (rd : VReg) (ra : EReg) (inverse : Bool) (s : State) :
    exec (.order rd ra inverse) s = finishPrimeV rd (primeE ra s >>= fun x => fftOrder s.nmax.toNat x inverse) s := rfl

theorem exec_order_of_canonical (rd : VReg) {ra : EReg} {x : Elem} {s : State} (inverse : Bool) (holds : s.e[ra] = some x)
    (canonical : x.toNat < Config.primeP) :
    exec (.order rd ra inverse) s = finishPrimeV rd (fftOrder s.nmax.toNat x.toNat inverse) s :=
  (exec_order ..).trans (finishPrimeV_of_operands_ok ((primeE_ok ..).2 ⟨x, holds, canonical, rfl⟩) ..)

/-- Settles O36: the outcome is that of `fft.order` for the root or its inverse. -/
theorem orderWritesTheRootOfUnityTable : Obligations.OrderWritesTheRootOfUnityTable := by
  intro rd ra inv s
  refine ⟨fun x holds canonical hne => ?outcomes, fun requested holds => ?zero, fun x holds outside => ?range,
    (missingSourceFailsWithInvalid _ s).1, Laws.opField_encodeR ..⟩
  case outcomes =>
    obtain ⟨g, generator, below, equation, -⟩ := orderGenerator_eq_ok canonical fun h => toNat_ne_zero (hne h)
    rw [← equation]
    have outcome := exec_order_of_canonical rd inv holds canonical
    refine ⟨fun k order fits => ?_, fun n order fits other => ?_, fun none room => ?_⟩
    · obtain ⟨t, steps, length, table⟩ := fftOrder_of_powerOfTwo generator below (primitiveRoot_of_hasOrder order) fits
      rw [outcome, finishPrimeV_of_ok steps, table.eq_map, length, List.map_map]
      rfl
    · exact outcome.trans (finishPrimeV_of_error
        (fftOrder_of_not_powerOfTwo generator below (primitiveRoot_of_hasOrder order) order.1 fits other) ..)
    · exact outcome.trans (finishPrimeV_of_error
        (fftOrder_of_noUnitPower generator below (noUnitPower_of_noOrderUpTo none) room) ..)
  case zero =>
    subst requested
    exact (exec_order_of_canonical rd true holds primeP_pos).trans (finishPrimeV_of_error (fftOrder_zero_inverse _) ..)
  case range =>
    have operand := (primeE_error ra s .range).2 (.inr ⟨rfl, x, holds, outside⟩)
    exact finishPrimeV_of_error (c := .range) ((except_bind_error ..).2 (.inl operand)) ..

/-! ### `FFT` and `IFFT` (R197, R198) -/

/-- The command transforms a canonical sequence with the table of a canonical root or of its inverse. -/
structure TransformCommand (i : Instr) (rd ra : VReg) (rb : EReg) (inverse : Bool)
    (transform : List Nat → List Nat → Except FailCode (List Nat)) : Prop where
  destination : destination i = .v rd
  exec_eq : ∀ s, exec i s = finishPrimeV rd (primeVE ra rb s >>= fun p =>
    fftOrder s.nmax.toNat p.2 inverse >>= fun t => transform p.1 t) s

theorem fft_transformCommand (rd ra : VReg) (rb : EReg) :
    TransformCommand (.fft rd ra rb) rd ra rb false forwardTransform := ⟨rfl, fun _ => rfl⟩

theorem ifft_transformCommand (rd ra : VReg) (rb : EReg) :
    TransformCommand (.ifft rd ra rb) rd ra rb true inverseTransform := ⟨rfl, fun _ => rfl⟩

section
variable {i : Instr} {rd ra : VReg} {rb : EReg} {inverse : Bool}
  {transform : List Nat → List Nat → Except FailCode (List Nat)} {s : State} {xs : List Elem} {root : Elem}

theorem TransformCommand.failsOutOfRange (h : TransformCommand i rd ra rb inverse transform) (s : State) :
    FailsOutOfRangeMixed i ra rb s := by
  refine failsOutOfRangeMixed_of_steps
    (rest := fun p => fftOrder s.nmax.toNat p.2 inverse >>= fun t => transform p.1 t) ?_
  rw [h.exec_eq, h.destination]
  exact finishPrimeV_endsAs ..

theorem TransformCommand.exec_of_canonical (h : TransformCommand i rd ra rb inverse transform) (hx : s.v[ra] = some xs)
    (hroot : s.e[rb] = some root) (canonical : Canonical xs) (canonicalRoot : root.toNat < Config.primeP) :
    exec i s = finishPrimeV rd (fftOrder s.nmax.toNat root.toNat inverse >>= transform (xs.map BitVec.toNat)) s := by
  have operands := (primeVE_ok ra rb s _).2 ⟨xs, root, hx, hroot, canonical, canonicalRoot, rfl⟩
  exact (h.exec_eq s).trans (finishPrimeV_of_operands_ok operands ..)

/-- A failure of order discovery is the command's. -/
theorem TransformCommand.fails_of_fftOrder (h : TransformCommand i rd ra rb inverse transform) (hx : s.v[ra] = some xs)
    (hroot : s.e[rb] = some root) (canonical : Canonical xs) (canonicalRoot : root.toNat < Config.primeP) {c : FailCode}
    (order : fftOrder s.nmax.toNat root.toNat inverse = .error c) : exec i s = .next (s.failedV rd c.number) :=
  (h.exec_of_canonical hx hroot canonical canonicalRoot).trans
    (finishPrimeV_of_error ((except_bind_error ..).2 (.inl order)) ..)

/-- With the table at hand the command ends as the transform does. -/
theorem TransformCommand.exec_of_table (h : TransformCommand i rd ra rb inverse transform) (hx : s.v[ra] = some xs)
    (hroot : s.e[rb] = some root) (canonical : Canonical xs) (canonicalRoot : root.toNat < Config.primeP) {t : List Nat}
    (order : fftOrder s.nmax.toNat root.toNat inverse = .ok t) :
    exec i s = finishPrimeV rd (transform (xs.map BitVec.toNat) t) s :=
  (h.exec_of_canonical hx hroot canonical canonicalRoot).trans (finishPrimeV_of_operands_ok order ..)

/-- An order that is no power of two. -/
theorem TransformCommand.fails_of_order (h : TransformCommand i rd ra rb inverse transform) (hx : s.v[ra] = some xs)
    (hroot : s.e[rb] = some root) (canonical : Canonical xs) (canonicalRoot : root.toNat < Config.primeP)
    (hne : inverse = true → root.toNat ≠ 0) {n : Nat} (order : HasOrder root.toNat n) (fits : n ≤ s.nmax.toNat)
    (other : ∀ k, n ≠ 2 ^ k) : exec i s = .next (s.failedV rd 4) :=
  h.fails_of_fftOrder (c := .order) hx hroot canonical canonicalRoot (fftOrder_error_order canonicalRoot hne
    (generatorImage_primitive (primitiveRoot_of_hasOrder order) inverse) order.1 fits other)

/-- An order above `NMAX`, or none. -/
theorem TransformCommand.fails_of_noOrder (h : TransformCommand i rd ra rb inverse transform) (hx : s.v[ra] = some xs)
    (hroot : s.e[rb] = some root) (canonical : Canonical xs) (canonicalRoot : root.toNat < Config.primeP)
    (hne : inverse = true → root.toNat ≠ 0) (none : NoOrderUpTo root.toNat s.nmax.toNat) (room : 1 ≤ s.nmax.toNat) :
    exec i s = .next (s.failedV rd 6) :=
  h.fails_of_fftOrder (c := .capacity) hx hroot canonical canonicalRoot (fftOrder_error_capacity canonicalRoot hne
    (generatorImage_noUnitPower (noUnitPower_of_noOrderUpTo none) inverse) room)

end

/-- A base that has a positive order is not 0. -/
theorem ne_zero_of_hasOrder {g n : Nat} (h : HasOrder g n) : g ≠ 0 := by
  rintro rfl
  obtain ⟨positive, one, -⟩ := h
  rw [zero_pow positive.ne', Nat.zero_mod] at one
  exact zero_ne_one one

/-- The Fermat power of a residue that is not 0 is its inverse. -/
theorem natCast_pow_sub_two {x : Nat} (hne : x % Config.primeP ≠ 0) :
    ((x ^ (Config.primeP - 2) : Nat) : ZMod Config.primeP) = (x : ZMod Config.primeP)⁻¹ := by
  have inverse := natCast_pfInvNonzero (Nat.mod_lt x primeP_pos) hne
  rwa [pfInvNonzero_eq_mod, ← Nat.pow_mod, ZMod.natCast_mod, ZMod.natCast_mod] at inverse

/-- The value of a register's polynomial at a power of an integer's image. -/
theorem eval_map_toNat (xs : List Elem) (g i : Nat) :
    (seqPolynomial (xs.map BitVec.toNat)).eval ((g : ZMod Config.primeP) ^ i) =
      (∑ j ∈ Finset.range xs.length, (xs.getD j 0#256).toNat * g ^ (i * j) : Nat) := by
  rw [← Nat.cast_pow, seqPolynomial_eval, List.length_map]
  simp only [getD_map_toNat, pow_mul]

/-- Settles O37: the table is that of the root itself, and the transform lists the values at its powers. -/
theorem fftEvaluatesAtThePowersOfTheRoot : Obligations.FftEvaluatesAtThePowersOfTheRoot := by
  intro rd ra rb s
  have command := fft_transformCommand rd ra rb
  refine ⟨fun cs root hcs hroot canonical canonicalRoot => ⟨fun k order fits short => ?gives,
      fun k order fits long => ?length,
      fun n order fits other => command.fails_of_order hcs hroot canonical canonicalRoot nofun order fits other,
      fun none room => command.fails_of_noOrder hcs hroot canonical canonicalRoot nofun none room⟩,
    command.failsOutOfRange s, (missingSourceFailsWithInvalid _ s).1, Laws.opField_encodeR ..⟩
  all_goals
    obtain ⟨t, steps, size, table⟩ := fftOrder_table (inverse := false) canonicalRoot nofun
      (generatorImage_primitive (primitiveRoot_of_hasOrder order) false) fits
    rw [command.exec_of_table hcs hroot canonical canonicalRoot steps]
  case gives =>
    obtain ⟨es, transform, values⟩ := forwardTransform_ok table ⟨k, size⟩ (cs := cs.map BitVec.toNat) (by
      rwa [List.length_map, size])
    have residues : es = (List.range (2 ^ k)).map fun i =>
        (∑ j ∈ Finset.range cs.length, (cs.getD j 0#256).toNat * root.toNat ^ (i * j)) % Config.primeP :=
      eq_residues values.below (values.length.trans size) fun i hi => by
        have point : generatorImage root.toNat false = root.toNat := rfl
        rw [values.entry i (size.symm ▸ hi), one_mul, point, eval_map_toNat]
    rw [finishPrimeV_of_ok transform, residues, List.map_map]
    rfl
  case length =>
    exact finishPrimeV_of_error (c := .length) (forwardTransform_of_longer (by rwa [List.length_map, size])) ..

/-- Settles O38: the table is that of the inverse root, and the twist factor is the inverse of the size. -/
theorem ifftRecoversFromThePowersOfTheRoot : Obligations.IfftRecoversFromThePowersOfTheRoot := by
  intro rd ra rb s
  have command := ifft_transformCommand rd ra rb
  refine ⟨fun ys root hys hroot canonical canonicalRoot => ⟨fun k order fits same => ?gives,
      fun k order fits other => ?length,
      fun n order fits other => command.fails_of_order hys hroot canonical canonicalRoot (fun _ => ne_zero_of_hasOrder order)
        order fits other,
      fun hne none room => command.fails_of_noOrder hys hroot canonical canonicalRoot (fun _ => toNat_ne_zero hne) none room,
      fun zero => ?zero⟩,
    command.failsOutOfRange s, (missingSourceFailsWithInvalid _ s).1, Laws.opField_encodeR ..⟩
  case zero =>
    subst zero
    exact command.fails_of_fftOrder (c := .zero) hys hroot canonical canonicalRoot (fftOrder_zero_inverse _)
  all_goals
    obtain ⟨t, steps, size, table⟩ := fftOrder_table (inverse := true) canonicalRoot (fun _ => ne_zero_of_hasOrder order)
      (generatorImage_primitive (primitiveRoot_of_hasOrder order) true) fits
    rw [command.exec_of_table hys hroot canonical canonicalRoot steps]
  case gives =>
    obtain ⟨cs, transform, values⟩ := inverseTransform_ok table ⟨k, size⟩ (ys := ys.map BitVec.toNat) (by
      rw [List.length_map, size, same])
    have residues : cs = (List.range (2 ^ k)).map fun i => (2 ^ k) ^ (Config.primeP - 2) *
        (∑ j ∈ Finset.range (2 ^ k), (ys.getD j 0#256).toNat * (root.toNat ^ (Config.primeP - 2)) ^ (i * j)) %
          Config.primeP :=
      eq_residues values.below (values.length.trans size) fun i hi => by
        have point : generatorImage root.toNat true = (root.toNat ^ (Config.primeP - 2) : Nat) :=
          (natCast_pow_sub_two (by rw [Nat.mod_eq_of_lt canonicalRoot]; exact ne_zero_of_hasOrder order)).symm
        rw [values.entry i (size.symm ▸ hi), point, eval_map_toNat, same, size, Nat.cast_mul,
          natCast_pow_sub_two (two_pow_mod_ne_zero k)]
    rw [finishPrimeV_of_ok transform, residues, List.map_map]
    rfl
  case length =>
    exact finishPrimeV_of_error (c := .length)
      (inverseTransform_of_length_ne (by rwa [List.length_map, size])) ..

end Sys2Proof.Proofs

/-! `PLOADV` (44_byte_loading.md R221, R223). -/

namespace Sys2Proof.Proofs

open Sys2Proof Sys2Proof.Machine Sys2Proof.Meaning

/-- Byte `n` of the range of `len` bytes at `off`, a zero byte past its end. -/
def paddedByte (m : Memory) (off len n : Nat) : Byte := if n < len then Memory.read m (off + n) else 0#8

theorem toNat_paddedByte (m : Memory) (off len n : Nat) :
    (paddedByte m off len n).toNat = if n < len then (Memory.read m (off + n)).toNat else 0 := by
  rw [paddedByte, apply_ite BitVec.toNat]
  rfl

/-- A chunk of bytes read from memory, its padding included. -/
theorem chunkAt_memRead (m : Memory) (off len w k : Nat) :
    chunkAt (memRead m off len) w k = (List.range w).map fun j => paddedByte m off len (k * w + j) := by
  have short : (((memRead m off len).drop (k * w)).take w).length = min w (len - k * w) := by simp [memRead]
  refine List.ext_getElem (by rw [chunkAt, List.length_append, List.length_replicate, short]; simp) fun j _ hj => ?_
  rw [List.length_map, List.length_range] at hj
  simp only [chunkAt, List.getElem_map, List.getElem_range, paddedByte]
  split
  case isTrue inside =>
    rw [List.getElem_append_left (by omega)]
    simp [memRead]
  case isFalse outside =>
    rw [List.getElem_append_right (by omega), List.getElem_replicate]

theorem memRead_length (m : Memory) (off len : Nat) : (memRead m off len).length = len := by simp [memRead]

/-- The chunks of bytes read from memory, as the sums of their bytes at their places. -/
theorem loadChunks_memRead (m : Memory) (off len w : Nat) :
    loadChunks (memRead m off len) w = (List.range (chunkCount len w)).map fun k =>
      (∑ j ∈ Finset.range w, (if k * w + j < len then (Memory.read m (off + k * w + j)).toNat else 0) * 256 ^ (w - 1 - j)) %
        Config.primeP := by
  rw [loadChunks, memRead_length]
  refine List.map_congr_left fun k _ => ?_
  simp only [loadFromBytes, chunkAt_memRead, bigEndian_map_range, toNat_paddedByte, Nat.add_assoc]

theorem exec_ploadv (rd : VReg) (off len : Nat) (w : ChunkWidth) (s : State) :
    exec (.ploadv rd off len w) s = finishPrimeV rd (bufferOperand off len s >>= fun bytes =>
      fitsVector (chunkCount len (chunkBytes w)) s >>= fun _ => .ok (loadChunks bytes (chunkBytes w))) s := rfl

section
variable {off len : Nat} {w : ChunkWidth} {s : State}

theorem exec_ploadv_of_within_bfill (rd : VReg) (within : off + len ≤ s.bfill.toNat) :
    exec (.ploadv rd off len w) s = finishPrimeV rd (fitsVector (chunkCount len (chunkBytes w)) s >>= fun _ =>
      .ok (loadChunks (memRead s.buf off len) (chunkBytes w))) s :=
  (exec_ploadv ..).trans (finishPrimeV_of_operands_ok ((bufferOperand_ok ..).2 ⟨within, rfl⟩) ..)

theorem exec_ploadv_of_fits (rd : VReg) (within : off + len ≤ s.bfill.toNat)
    (fits : chunkCount len (chunkBytes w) ≤ s.vcap.toNat) :
    exec (.ploadv rd off len w) s =
      .next (s.gaveV rd ((loadChunks (memRead s.buf off len) (chunkBytes w)).map (BitVec.ofNat 256)) 0#64) :=
  (exec_ploadv_of_within_bfill rd within).trans
    (finishPrimeV_of_ok ((except_bind_ok ..).2 ⟨(), (fitsVector_ok ..).2 fits, rfl⟩) ..)

theorem exec_ploadv_of_past_bfill (rd : VReg) (past : s.bfill.toNat < off + len) :
    exec (.ploadv rd off len w) s = .next (s.failedV rd 2) :=
  (exec_ploadv ..).trans (finishPrimeV_of_error (c := .range)
    ((except_bind_error ..).2 (.inl ((bufferOperand_error ..).2 ⟨rfl, past⟩))) ..)

theorem exec_ploadv_of_long (rd : VReg) (within : off + len ≤ s.bfill.toNat)
    (long : s.vcap.toNat < chunkCount len (chunkBytes w)) : exec (.ploadv rd off len w) s = .next (s.failedV rd 6) :=
  (exec_ploadv_of_within_bfill rd within).trans (finishPrimeV_of_error (c := .capacity)
    ((except_bind_error ..).2 (.inl ((fitsVector_error ..).2 ⟨rfl, long⟩))) ..)

end

/-- Settles O42: the three widths are those of the chunks, and a chunk's number is the sum of its bytes. -/
theorem ploadvLoadsPaddedChunks : Obligations.PloadvLoadsPaddedChunks := by
  intro rd off len s p hp
  obtain ⟨w, width⟩ := p
  obtain rfl : chunkBytes w = width := by
    simp only [List.mem_cons, Prod.mk.injEq, List.not_mem_nil, or_false] at hp
    rcases hp with ⟨rfl, rfl⟩ | ⟨rfl, rfl⟩ | ⟨rfl, rfl⟩ <;> rfl
  refine ⟨fun within fits => ?gives, exec_ploadv_of_past_bfill rd, exec_ploadv_of_long rd, Laws.opField_encodeL ..⟩
  rw [exec_ploadv_of_fits rd within fits, loadChunks_memRead, List.map_map]
  rfl

end Sys2Proof.Proofs

/-! What a command's steps can do: which failures they raise and what the result they give satisfies. One such fact for each
function of the model gives the failures of all commands (60_exceptions.md section 4), canonical results (40_prime_field.md
R100) and results that fit a vector register (10_state.md R23). -/

namespace Sys2Proof.Proofs

open Sys2Proof Sys2Proof.Machine Sys2Proof.Meaning

/-! ### Failures and post-condition of a computation -/

/-- The computation raises only failures of the list, and a result it gives satisfies the post-condition. -/
structure Yields {α : Type} (r : Except FailCode α) (failures : List FailCode) (post : α → Prop) : Prop where
  ok : ∀ a, r = .ok a → post a
  error : ∀ c, r = .error c → c ∈ failures

section
variable {α β : Type} {r : Except FailCode α} {f : α → Except FailCode β} {es es' : List FailCode} {p q : α → Prop}

theorem Yields.gives {a : α} (h : p a) : Yields (.ok a) es p := ⟨fun _ same => Except.ok.inj same ▸ h, nofun⟩

theorem Yields.of_ok {a : α} (h : p a) : Yields (.ok a) [] p := .gives h

theorem Yields.of_error {c : FailCode} (h : c ∈ es) : Yields (.error c) es p :=
  ⟨nofun, fun _ same => Except.error.inj same ▸ h⟩

theorem Yields.mono (h : Yields r es p) (failures : ∀ c ∈ es, c ∈ es') (post : ∀ a, p a → q a) : Yields r es' q :=
  ⟨fun a same => post a (h.ok a same), fun c same => failures c (h.error c same)⟩

theorem Yields.bind {p' : β → Prop} (h : Yields r es p) (hf : ∀ a, p a → Yields (f a) es' p') :
    Yields (r >>= f) (es ++ es') p' where
  ok b same := by
    obtain ⟨a, first, second⟩ := (except_bind_ok ..).1 same
    exact (hf a (h.ok a first)).ok b second
  error c same := by
    rcases (except_bind_error ..).1 same with first | ⟨a, first, second⟩
    · exact List.mem_append_left _ (h.error c first)
    · exact List.mem_append_right _ ((hf a (h.ok a first)).error c second)

theorem Yields.map {p' : β → Prop} {g : α → β} (h : Yields r es p) (hg : ∀ a, p a → p' (g a)) : Yields (r.map g) es p' where
  ok b same := by
    obtain ⟨a, first, rfl⟩ := (except_map_ok ..).1 same
    exact hg a (h.ok a first)
  error c same := h.error c ((except_map_error ..).1 same)

theorem Yields.ite {c : Prop} [Decidable c] {r' : Except FailCode α} (h : c → Yields r es p) (h' : ¬ c → Yields r' es p) :
    Yields (if c then r else r') es p := by
  by_cases hc : c
  · rw [if_pos hc]
    exact h hc
  · rw [if_neg hc]
    exact h' hc

end

/-! ### Operands -/

/-- The canonical sequence in a register. -/
structure SourceSequence (s : State) (ra : VReg) (ns : List Nat) : Prop where
  below : AllBelowP ns
  length : ns.length = (s.v[ra].getD []).length

section
variable (s : State)

theorem sourceE_yields (ra : EReg) : Yields (sourceE ra s) [.invalid] fun _ => True :=
  ⟨fun _ _ => trivial, fun c h => by simp [((sourceE_error ..).1 h).1]⟩

theorem sourceV_yields (ra : VReg) : Yields (sourceV ra s) [.invalid] fun xs => s.v[ra] = some xs :=
  ⟨fun _ h => (sourceV_ok ..).1 h, fun c h => by simp [((sourceV_error ..).1 h).1]⟩

theorem canonical_yields (x : Elem) : Yields (canonical x) [.range] (· < Config.primeP) :=
  ⟨fun _ h => by obtain ⟨below, rfl⟩ := (canonical_ok ..).1 h; exact below, fun c h => by simp [((canonical_error ..).1 h).1]⟩

theorem canonicalSeq_yields (xs : List Elem) :
    Yields (canonicalSeq xs) [.range] fun ns => AllBelowP ns ∧ ns.length = xs.length where
  ok ns h := by
    obtain ⟨canonical, rfl⟩ := (canonicalSeq_ok ..).1 h
    exact ⟨(allBelowP_map_toNat_iff xs).2 canonical, List.length_map ..⟩
  error c h := by simp [((canonicalSeq_error ..).1 h).1]

theorem pairE_yields (ra rb : EReg) : Yields (pairE ra rb s) [.invalid] fun _ => True :=
  ((sourceE_yields s ra).bind fun _ _ => (sourceE_yields s rb).bind fun _ _ => .of_ok trivial).mono
    (by simp) fun _ => id

theorem primeE_yields (ra : EReg) : Yields (primeE ra s) [.invalid, .range] (· < Config.primeP) :=
  (sourceE_yields s ra).bind fun x _ => canonical_yields x

theorem primePairE_yields (ra rb : EReg) :
    Yields (primePairE ra rb s) [.invalid, .range] fun p => p.1 < Config.primeP ∧ p.2 < Config.primeP :=
  ((sourceE_yields s ra).bind fun x _ => (sourceE_yields s rb).bind fun y _ => (canonical_yields x).bind fun _ ha =>
    (canonical_yields y).bind fun _ hb => .of_ok ⟨ha, hb⟩).mono (by simp) fun _ => id

theorem primeBaseExponent_yields (ra rb : EReg) :
    Yields (primeBaseExponent ra rb s) [.invalid, .range] fun p => p.1 < Config.primeP :=
  ((sourceE_yields s ra).bind fun x _ => (sourceE_yields s rb).bind fun y _ => (canonical_yields x).bind fun _ ha =>
    .of_ok ha).mono (by simp) fun _ => id

theorem sourceSequence_of_canonicalSeq {ra : VReg} {xs : List Elem} {ns : List Nat} (holds : s.v[ra] = some xs)
    (h : AllBelowP ns ∧ ns.length = xs.length) : SourceSequence s ra ns :=
  ⟨h.1, by rw [holds]; exact h.2⟩

theorem primeV_yields (ra : VReg) : Yields (primeV ra s) [.invalid, .range] (SourceSequence s ra) :=
  (sourceV_yields s ra).bind fun xs hx =>
    (canonicalSeq_yields xs).mono (fun _ => id) fun _ => sourceSequence_of_canonicalSeq s hx

theorem primePairV_yields (ra rb : VReg) :
    Yields (primePairV ra rb s) [.invalid, .range] fun p => SourceSequence s ra p.1 ∧ SourceSequence s rb p.2 :=
  ((sourceV_yields s ra).bind fun xs hx => (sourceV_yields s rb).bind fun ys hy => (canonicalSeq_yields xs).bind fun _ ha =>
    (canonicalSeq_yields ys).bind fun _ hb =>
      .of_ok ⟨sourceSequence_of_canonicalSeq s hx ha, sourceSequence_of_canonicalSeq s hy hb⟩).mono (by simp) fun _ => id

theorem primeVE_yields (ra : VReg) (rb : EReg) :
    Yields (primeVE ra rb s) [.invalid, .range] fun p => SourceSequence s ra p.1 ∧ p.2 < Config.primeP :=
  ((sourceV_yields s ra).bind fun xs hx => (sourceE_yields s rb).bind fun y _ => (canonicalSeq_yields xs).bind fun _ ha =>
    (canonical_yields y).bind fun _ hb => .of_ok ⟨sourceSequence_of_canonicalSeq s hx ha, hb⟩).mono (by simp) fun _ => id

theorem bufferOperand_yields (off len : Nat) :
    Yields (bufferOperand off len s) [.range] fun bytes => bytes.length = len where
  ok bytes h := by
    obtain ⟨-, rfl⟩ := (bufferOperand_ok ..).1 h
    exact memRead_length ..
  error c h := by simp [((bufferOperand_error ..).1 h).1]

/-! ### The checks and the pure functions of the commands -/

theorem fitsVector_yields (n : Nat) : Yields (fitsVector n s) [.capacity] fun _ => n ≤ s.vcap.toNat :=
  ⟨fun _ h => (fitsVector_ok ..).1 h, fun c h => by simp [((fitsVector_error ..).1 h).1]⟩

theorem productFits_yields (a b : List Nat) :
    Yields (productFits a b s) [.capacity] fun _ => a = [] ∨ b = [] ∨ a.length + b.length - 1 ≤ s.vcap.toNat :=
  ⟨fun _ h => (productFits_ok ..).1 h, fun c h => by simp [((productFits_error ..).1 h).1]⟩

end

theorem fourSamples_yields (xs ys : List Nat) : Yields (fourSamples xs ys) [.length] fun _ => True :=
  ⟨fun _ _ => trivial, fun c h => by simp [((fourSamples_error ..).1 h).1]⟩

theorem pfInv_yields (x : Nat) : Yields (pfInv x) [.zero] (· < Config.primeP) :=
  .ite (fun _ => .of_error (by simp)) fun _ => .gives (pfInvNonzero_lt x)

theorem bfInv_yields (x : Elem) : Yields (bfInv x) [.zero] fun _ => True :=
  .ite (fun _ => .of_error (by simp)) fun _ => .gives trivial

theorem bfDiv_yields (x y : Elem) : Yields (bfDiv x y) [.zero] fun _ => True :=
  (bfInv_yields y).bind fun _ _ => .of_ok trivial

theorem pfBatchInv_below (xs : List Nat) : AllBelowP (pfBatchInv xs) := by
  intro n hn
  obtain ⟨x, -, rfl⟩ := List.mem_map.1 hn
  split
  · exact primeP_pos
  · exact pfInvNonzero_lt x

theorem polyMul_below {a b : List Nat} (below : AllBelowP b) : AllBelowP (polyMul a b) := by
  by_cases empty : a = [] ∨ b = []
  · rw [polyMul_of_nil empty]
    exact allBelowP_nil
  · obtain ⟨ha, hb⟩ := not_or.1 empty
    exact (polyMul_of_ne_nil below ha hb).below

theorem polyMul_length_le {a b : List Nat} (below : AllBelowP b) {n : Nat}
    (fits : a = [] ∨ b = [] ∨ a.length + b.length - 1 ≤ n) :
    (polyMul a b).length ≤ n := by
  by_cases empty : a = [] ∨ b = []
  · rw [polyMul_of_nil empty]
    exact Nat.zero_le n
  · obtain ⟨ha, hb⟩ := not_or.1 empty
    rw [(polyMul_of_ne_nil below ha hb).length]
    exact (fits.resolve_left ha).resolve_left hb

/-- A canonical sequence of at most `n` elements. -/
structure ShortSequence (n : Nat) (ns : List Nat) : Prop where
  below : AllBelowP ns
  short : ns.length ≤ n

theorem polyDivrem_yields {a b : List Nat} (belowA : AllBelowP a) (belowB : AllBelowP b) :
    Yields (polyDivrem a b) [.length, .zero] fun qr => ShortSequence a.length qr.1 ∧ ShortSequence a.length qr.2 := by
  rcases Nat.lt_or_ge a.length b.length with shorter | long
  · rw [polyDivrem_of_shorter shorter]
    exact .of_error (by simp)
  · cases leading : effLen b with
    | zero =>
      rw [polyDivrem_of_zero long leading]
      exact .of_error (by simp)
    | succ d =>
      obtain ⟨q, r, steps, lengthQ, lengthR, belowQ, belowR, -⟩ := polyDivrem_ok belowA belowB long leading
      have inside := lt_length_of_effLen leading
      have shortQ : q.length ≤ a.length := by omega
      have shortR : r.length ≤ a.length := by omega
      rw [steps]
      exact .gives ⟨⟨belowQ, shortQ⟩, ⟨belowR, shortR⟩⟩

theorem polyLagrange_yields {xs : List Nat} (below : AllBelowP xs) (ys : List Nat) :
    Yields (polyLagrange xs ys) [.length, .distinct] (ShortSequence xs.length) := by
  by_cases length : ys.length = xs.length
  · by_cases nodup : xs.Nodup
    · obtain ⟨cs, steps, lengthCs, belowCs, -⟩ := polyLagrange_ok below nodup length
      rw [steps]
      exact .gives ⟨belowCs, lengthCs.le⟩
    · rw [polyLagrange_of_not_nodup length nodup]
      exact .of_error (by simp)
  · rw [polyLagrange_of_length_ne length]
    exact .of_error (by simp)

/-- A table that `fft.order` gives with `NMAX` as given. -/
structure OrderTable (γ : ZMod Config.primeP) (nmax : Nat) (t : List Nat) : Prop where
  table : RootTable γ t
  two : ∃ k, t.length = 2 ^ k
  short : t.length ≤ nmax - 1 + 1

theorem rootPowers_yields {g : Nat} (hg : g < Config.primeP) (room : Nat) :
    Yields (rootPowers g room g) [.capacity] fun _ => True := by
  rcases rootPowers_first hg room with ⟨t, steps, -, -⟩ | ⟨steps, -⟩
  · rw [steps]
    exact .gives trivial
  · rw [steps]
    exact .of_error (by simp)

/-- The failures of order discovery, `E_ZERO` for the inverse of 0 only. -/
def orderFailures (inverse : Bool) : List FailCode := if inverse then [.zero, .capacity, .order] else [.capacity, .order]

theorem fftOrder_yields (nmax : Nat) {root : Nat} (hroot : root < Config.primeP) (inverse : Bool) :
    Yields (fftOrder nmax root inverse) (orderFailures inverse) (OrderTable (generatorImage root inverse) nmax) where
  ok t steps := by
    obtain ⟨table, two, short⟩ := rootTable_of_fftOrder hroot steps
    exact ⟨table, two, short⟩
  error c steps := by
    have search : ∀ g < Config.primeP, Yields (rootPowers g (nmax - 1) g >>= fun t =>
        if isPowerOfTwo (1 :: t).length then .ok (1 :: t) else .error .order) [.capacity, .order] fun _ => True :=
      fun g hg => (rootPowers_yields hg _).bind fun t _ =>
        .ite (fun _ => .gives trivial) fun _ => .of_error (by simp)
    cases inverse with
    | false => exact (search root hroot).error c steps
    | true => exact ((pfInv_yields root).bind search).error c steps

section
variable {γ : ZMod Config.primeP} {nmax : Nat} {t : List Nat}

theorem forwardTransform_yields (cs : List Nat) (h : OrderTable γ nmax t) :
    Yields (forwardTransform cs t) [.length] (ShortSequence (nmax - 1 + 1)) := by
  rcases Nat.lt_or_ge t.length cs.length with long | fits
  · rw [forwardTransform_of_longer long]
    exact .of_error (by simp)
  · obtain ⟨es, steps, values⟩ := forwardTransform_ok h.table h.two fits
    rw [steps]
    exact .gives ⟨values.below, values.length.le.trans h.short⟩

theorem inverseTransform_yields (ys : List Nat) (h : OrderTable γ nmax t) :
    Yields (inverseTransform ys t) [.length] (ShortSequence (nmax - 1 + 1)) := by
  by_cases length : ys.length = t.length
  · obtain ⟨cs, steps, values⟩ := inverseTransform_ok h.table h.two length
    rw [steps]
    exact .gives ⟨values.below, values.length.le.trans h.short⟩
  · rw [inverseTransform_of_length_ne length]
    exact .of_error (by simp)

end

theorem loadFromBytes_lt (bytes : List Byte) : loadFromBytes bytes < Config.primeP := Nat.mod_lt _ primeP_pos

theorem loadChunks_below (bytes : List Byte) (w : Nat) : AllBelowP (loadChunks bytes w) := by
  intro n hn
  obtain ⟨k, -, rfl⟩ := List.mem_map.1 hn
  exact loadFromBytes_lt _

theorem loadChunks_length (bytes : List Byte) (w : Nat) : (loadChunks bytes w).length = chunkCount bytes.length w := by
  rw [loadChunks, List.length_map, List.length_range]

/-! ### Results -/

/-- The values a result writes. -/
def Result.elements : {d : Reg} → Result d → List Elem
  | .e _, x => [x]
  | .v _, (xs, _) => xs

/-- The vector registers and the parameters leave room for every result (legal states do). -/
structure Roomy (s : State) : Prop where
  vectors : s.vectorsFit
  order : 1 ≤ s.nmax.toNat
  table : s.nmax.toNat ≤ s.vcap.toNat

/-- A prime-field result is canonical, and in a roomy state the result fits a vector register. -/
structure Result.Sound (prime : Bool) (s : State) {d : Reg} (r : Result d) : Prop where
  canonical : prime = true → Canonical r.elements
  fits : Roomy s → r.elements.length ≤ s.vcap.toNat

/-- A canonical sequence that fits a vector register. -/
structure FittingSequence (s : State) (ns : List Nat) : Prop where
  below : AllBelowP ns
  fits : Roomy s → ns.length ≤ s.vcap.toNat

section
variable {s : State} {es : List FailCode}

theorem element_fits {rd : EReg} (x : Result (.e rd)) (room : Roomy s) : x.elements.length ≤ s.vcap.toNat :=
  room.order.trans room.table

theorem binaryResult_sound {rd : EReg} (x : Result (.e rd)) : x.Sound false s := ⟨nofun, element_fits x⟩

theorem primeResult_yields (rd : EReg) {r : Except FailCode Nat} (h : Yields r es (· < Config.primeP)) :
    Yields (primeResult rd r) es (Result.Sound true s) :=
  h.map fun n hn => ⟨fun _ => toElems_canonical (xs := [n]) (List.forall_mem_singleton.2 hn), element_fits _⟩

theorem toElems_sound {rd : VReg} {ns : List Nat} (h : FittingSequence s ns) (zskip : Bool) :
    Result.Sound true s (d := .v rd) (toElems ns, zskip) where
  canonical _ := toElems_canonical h.below
  fits room := (toElems_length ns).le.trans (h.fits room)

theorem primeSequence_yields (rd : VReg) {r : Except FailCode (List Nat)} (h : Yields r es (FittingSequence s)) :
    Yields (primeSequence rd r) es (Result.Sound true s) :=
  h.map fun _ hn => toElems_sound hn false

theorem SourceSequence.length_le {ra : VReg} {ns : List Nat} (h : SourceSequence s ra ns) (room : Roomy s) :
    ns.length ≤ s.vcap.toNat := h.length.le.trans (room.vectors ra)

theorem ShortSequence.fitting_of_source {ra : VReg} {as ns : List Nat} (h : ShortSequence as.length ns)
    (source : SourceSequence s ra as) : FittingSequence s ns := ⟨h.below, fun room => h.short.trans (source.length_le room)⟩

theorem ShortSequence.fitting_of_order {ns : List Nat} (h : ShortSequence (s.nmax.toNat - 1 + 1) ns) : FittingSequence s ns :=
  ⟨h.below, fun room => h.short.trans (by have := room.order; have := room.table; omega)⟩

theorem OrderTable.shortSequence {γ : ZMod Config.primeP} {nmax : Nat} {t : List Nat} (h : OrderTable γ nmax t) :
    ShortSequence (nmax - 1 + 1) t := ⟨h.table.powers.below, h.short⟩

end

/-- What a command can do: raise a failure its rule lists, or give a sound result. -/
theorem run_yields (i : Instr) (s : State) : Yields (run i s) (listedFailures i) (Result.Sound (givesPrimeResult i) s) := by
  cases i with
  | padd rd ra rb =>
    exact primeResult_yields rd ((primePairE_yields s ra rb).bind fun _ ⟨hx, hy⟩ => .of_ok (pfAdd_lt hx hy))
  | psub rd ra rb =>
    exact primeResult_yields rd ((primePairE_yields s ra rb).bind fun _ ⟨hx, hy⟩ => .of_ok (pfSub_lt hx hy))
  | pmul rd ra rb => exact primeResult_yields rd ((primePairE_yields s ra rb).bind fun _ _ => .of_ok (pfMul_lt ..))
  | pexp rd ra rb => exact primeResult_yields rd ((primeBaseExponent_yields s ra rb).bind fun _ _ => .of_ok (pfExp_lt ..))
  | pinv rd ra | pinve rd ra => exact primeResult_yields rd ((primeE_yields s ra).bind fun x _ => pfInv_yields x)
  | pbinv rd ra =>
    refine (primeV_yields s ra).bind fun xs source => .of_ok (toElems_sound ⟨pfBatchInv_below xs, fun room => ?_⟩ _)
    exact (List.length_map ..).le.trans (source.length_le room)
  | badd _ ra rb | bsub _ ra rb | bmul _ ra rb | bexp _ ra rb =>
    exact (pairE_yields s ra rb).bind fun _ _ => .of_ok (binaryResult_sound _)
  | binv _ ra | binve _ ra =>
    exact (sourceE_yields s ra).bind fun x _ => (bfInv_yields x).mono (fun _ => id) fun _ _ => binaryResult_sound _
  | bdiv _ ra rb =>
    exact (pairE_yields s ra rb).bind fun p _ => (bfDiv_yields p.1 p.2).mono (fun _ => id) fun _ _ => binaryResult_sound _
  | peval rd ra rb => exact primeResult_yields rd ((primeVE_yields s ra rb).bind fun _ _ => .of_ok (polyEval_lt ..))
  | pvanish rd ra =>
    refine primeSequence_yields rd ((primeV_yields s ra).bind fun roots _ => (fitsVector_yields s _).bind fun _ fits =>
      .of_ok ⟨(polyVanish_denotes roots).below, fun _ => ?_⟩)
    rwa [(polyVanish_denotes roots).length]
  | ppmul rd ra rb =>
    exact primeSequence_yields rd ((primePairV_yields s ra rb).bind fun _ ⟨_, hb⟩ => (productFits_yields s _ _).bind
      fun _ fits => .of_ok ⟨polyMul_below hb.below, fun _ => polyMul_length_le hb.below fits⟩)
  | ppdiv rd ra rb =>
    exact primeSequence_yields rd ((primePairV_yields s ra rb).bind fun _ ⟨ha, hb⟩ =>
      (polyDivrem_yields ha.below hb.below).bind fun _ ⟨quotient, _⟩ => .of_ok (quotient.fitting_of_source ha))
  | pprem rd ra rb =>
    exact primeSequence_yields rd ((primePairV_yields s ra rb).bind fun _ ⟨ha, hb⟩ =>
      (polyDivrem_yields ha.below hb.below).bind fun _ ⟨_, remainder⟩ => .of_ok (remainder.fitting_of_source ha))
  | plag rd ra rb =>
    exact primeSequence_yields rd ((primePairV_yields s ra rb).bind fun _ ⟨hx, _⟩ =>
      (polyLagrange_yields hx.below _).mono (fun _ => id) fun _ h => h.fitting_of_source hx)
  | plag4 rd ra rb =>
    refine primeSequence_yields rd ((primePairV_yields s ra rb).bind fun _ ⟨hx, _⟩ => ?_)
    exact ((fourSamples_yields _ _).bind fun _ _ => polyLagrange_yields hx.below _).mono
      (by simp) fun _ h => h.fitting_of_source hx
  | order rd ra inverse =>
    refine primeSequence_yields rd ((primeE_yields s ra).bind fun _ hroot => ?_)
    exact (fftOrder_yields s.nmax.toNat hroot inverse).mono (by cases inverse <;> simp [orderFailures])
      fun _ h => h.shortSequence.fitting_of_order
  | fft rd ra rb =>
    exact primeSequence_yields rd ((primeVE_yields s ra rb).bind fun _ ⟨_, hroot⟩ =>
      (fftOrder_yields s.nmax.toNat hroot false).bind fun _ table =>
        (forwardTransform_yields _ table).mono (fun _ => id) fun _ h => h.fitting_of_order)
  | ifft rd ra rb =>
    exact primeSequence_yields rd ((primeVE_yields s ra rb).bind fun _ ⟨_, hroot⟩ =>
      (fftOrder_yields s.nmax.toNat hroot true).bind fun _ table =>
        (inverseTransform_yields _ table).mono (fun _ => id) fun _ h => h.fitting_of_order)
  | pfromb rd off len =>
    exact primeResult_yields rd ((bufferOperand_yields s off len).bind fun bytes _ => .of_ok (loadFromBytes_lt bytes))
  | ploadv rd off len w =>
    refine primeSequence_yields rd ((bufferOperand_yields s off len).bind fun bytes length =>
      (fitsVector_yields s _).bind fun _ fits => .of_ok ⟨loadChunks_below bytes _, fun _ => ?_⟩)
    rwa [loadChunks_length, length]

end Sys2Proof.Proofs

/-! What holds of every command (60_exceptions.md section 4, 10_state.md R23 to R38): it ends whole in success or in a listed
failure, its prime-field results are canonical, and every step keeps the state legal. -/

namespace Sys2Proof.Proofs

open Sys2Proof Sys2Proof.Machine Sys2Proof.Meaning

/-! ### Failures -/

/-- Settles O45: `STATUS` has a code other than 0 only after a failure, which is a listed one. -/
theorem commandsRaiseOnlyTheirListedFailures : Obligations.CommandsRaiseOnlyTheirListedFailures := by
  intro i s t h code
  rw [eq_endState_of_exec h, endState_status] at code ⊢
  cases ran : run i s with
  | error c => exact ⟨c, (run_yields i s).error c ran, failureStatus_code c⟩
  | ok r =>
    rw [ran] at code
    exact absurd (successStatus_code _) code

/-- `E_ILLEGAL` belongs to no command. -/
theorem number_le_of_listed {i : Instr} {c : FailCode} (h : c ∈ listedFailures i) : c.number ≤ 7 := by
  cases c with
  | illegal => cases i <;> simp [listedFailures] at h
  | length | range | distinct | order | zero | capacity | invalid => decide

/-- Settles O44: the result's class is that of the destination, and only `PBINV` can set `ZSKIP`. -/
theorem everyCommandEndsWholeInSuccessOrFailure : Obligations.EveryCommandEndsWholeInSuccessOrFailure := by
  intro i s
  cases ran : run i s with
  | error c =>
    exact .inr (.inr (.inr ⟨c.number, c.number_bounds.1, number_le_of_listed ((run_yields i s).error c ran),
      exec_of_run_error ran⟩))
  | ok r =>
    have ends := exec_of_run_ok ran
    by_cases flag : r.zskip = true
    · obtain ⟨rd, ra, xs, rfl, -⟩ := (zskip_of_run_iff i s).1 ⟨r, ran, flag⟩
      obtain ⟨ys, zskip⟩ := r
      obtain rfl : zskip = true := flag
      exact .inr (.inr (.inl ⟨rd, ra, ys, rfl, ends⟩))
    · clear ran
      generalize destination i = d at r ends flag ⊢
      cases d with
      | e rd => exact .inl ⟨rd, r, rfl, ends⟩
      | v rd =>
        obtain ⟨ys, zskip⟩ := r
        obtain rfl : zskip = false := Bool.eq_false_iff.2 flag
        exact .inr (.inl ⟨rd, ys, rfl, ends⟩)

/-! ### Canonical results -/

/-- The values in a destination are the elements of the result. -/
theorem forall_contents {d : Reg} (r : Result d) {p : Elem → Prop} (h : ∀ x ∈ r.elements, p x) :
    (∀ x, r.contents.1 = some x → p x) ∧ ∀ xs, r.contents.2 = some xs → ∀ x ∈ xs, p x := by
  cases d with
  | e rd => exact ⟨fun x same => Option.some.inj same ▸ h r List.mem_cons_self, nofun⟩
  | v rd => exact ⟨nofun, fun xs same => Option.some.inj same ▸ h⟩

/-- Settles O46: a failed command leaves `none`, and every result of these commands is canonical. -/
theorem primeResultsAreCanonical : Obligations.PrimeResultsAreCanonical := by
  intro i s t prime h
  rw [eq_endState_of_exec h, endState_contents]
  cases ran : run i s with
  | error c => exact ⟨nofun, nofun⟩
  | ok r => exact forall_contents r (((run_yields i s).ok r ran).canonical prime)

/-! ### Legal states -/

theorem roomy_of_legal {s : State} (h : s.Legal) : Roomy s := by
  obtain ⟨-, low, -, room, -⟩ := h.params
  exact ⟨h.vectors, by omega, room⟩

/-- A command writes at most its destination, with a result that fits. -/
theorem endState_vectorsFit {s : State} {d : Reg} {r : Except FailCode (Result d)} (vectors : s.vectorsFit)
    (fits : ∀ a, r = .ok a → a.elements.length ≤ s.vcap.toNat) : (endState s d r).vectorsFit := by
  intro i
  rw [endState_vcap]
  cases d with
  | e rd => cases r <;> exact vectors i
  | v rd =>
    have written : ∀ xs : Option (List Elem), (xs.getD []).length ≤ s.vcap.toNat →
        (((s.setV rd xs).v[i]).getD []).length ≤ s.vcap.toNat := fun xs short => by
      by_cases same : rd = i
      · subst same
        rwa [setV_get_same]
      · rw [setV_get_other s _ _ _ same]
        exact vectors i
    cases r with
    | error c => exact written none (Nat.zero_le _)
    | ok a => exact written (some a.1) (fits a rfl)

theorem failureStatus_legal (c : FailCode) : (failureStatus c).toNat ≤ 8 := (failureStatus_toNat c).le.trans c.number_bounds.2

theorem endStatus_legal {d : Reg} (r : Except FailCode (Result d)) : endStatus r = 0x100#64 ∨ (endStatus r).toNat ≤ 8 := by
  cases r with
  | error c => exact .inr (failureStatus_legal c)
  | ok a =>
    cases flag : a.zskip with
    | false => exact .inr (by simp [endStatus, successStatus, flag])
    | true => exact .inl (by simp [endStatus, successStatus, flag])

/-- A bit of `ERRSUM` after a step that only adds codes is a legal one. -/
theorem errsumLegal_of_adds {s : State} {errsum : Csr} (legal : s.errsumLegal)
    (adds : ∀ k, s.errsum.getLsbD k = false → errsum.getLsbD k = true → 1 ≤ k ∧ k ≤ 8) (k : Nat)
    (set : errsum.getLsbD k = true) : 1 ≤ k ∧ k ≤ 8 := by
  cases before : s.errsum.getLsbD k with
  | true => exact legal k before
  | false => exact adds k before set

/-- A command keeps the state legal. -/
theorem endState_legal {s : State} (h : s.Legal) (i : Instr) : (endState s (destination i) (run i s)).Legal where
  params := by simpa [State.paramsLegal] using h.params
  vectors := endState_vectorsFit h.vectors fun a ran => ((run_yields i s).ok a ran).fits (roomy_of_legal h)
  buffer := by simpa [State.bufferLegal] using h.buffer
  status := by
    rw [State.statusLegal, endState_status]
    exact endStatus_legal _
  errsum := errsumLegal_of_adds h.errsum fun k clear set => by
    obtain ⟨low, high, -⟩ := (endState_errsum s (destination i) (run i s) k).2 clear set
    exact ⟨low, high⟩

/-- Whatever the port does with an event keeps the state legal. -/
theorem Settles.legal {s t : State} {ev : HostEvent} (settles : Settles s ev t) (h : s.Legal) : t.Legal := by
  cases settles with
  | access _ e v answer fits =>
    refine ⟨h.params, fun i => ?_, h.buffer, h.status, h.errsum⟩
    rcases fits i with same | short
    · exact (congrArg (fun r => (r.getD []).length) same).le.trans (h.vectors i)
    · exact short
  | load bytes fits =>
    obtain ⟨canonical, inside, -⟩ := h.buffer
    obtain ⟨-, -, -, -, -, small⟩ := h.params
    have length : (BitVec.ofNat 64 bytes.length).toNat = bytes.length := by
      rw [BitVec.toNat_ofNat, Nat.mod_eq_of_lt (by omega)]
    refine ⟨h.params, h.vectors, ⟨Memory.writeBytes_wf 0 bytes canonical, ?_, length.le.trans fits⟩, h.status, h.errsum⟩
    exact Memory.writeBytes_bound 0 bytes inside ((Nat.zero_add _).le.trans fits)
  | clear mask =>
    exact ⟨h.params, h.vectors, h.buffer, h.status, fun k set => h.errsum k ((errsum_clear_iff s.errsum mask k).1 set).1⟩
  | illegal w =>
    refine ⟨h.params, h.vectors, h.buffer, .inr (failureStatus_legal .illegal),
      errsumLegal_of_adds h.errsum fun k clear set => ?_⟩
    obtain ⟨low, high, -⟩ := (errsum_raise s.errsum .illegal k).2 clear set
    exact ⟨low, high⟩
  | reset => exact platformReset_legal h.params

/-- Taking an event off the list is nothing of the engine's. -/
theorem legal_with_pending {s : State} (h : s.Legal) (rest : List HostEvent) : ({ s with pending := rest } : State).Legal :=
  ⟨h.params, h.vectors, h.buffer, h.status, h.errsum⟩

theorem answerStatus_legal {s : State} (h : s.Legal) : (answerStatus s).Legal :=
  ⟨h.params, h.vectors, h.buffer, h.status, h.errsum⟩

/-- Settles O10: each kind of step keeps the state legal. -/
theorem everyStepKeepsTheStateLegal : Obligations.EveryStepKeepsTheStateLegal := by
  intro s t h stepped
  cases steps_of_step stepped with
  | idle => exact h
  | settled _ settles => exact settles.legal (legal_with_pending h _)
  | command i _ => exact answerStatus_legal (endState_legal (legal_with_pending h _) i)

end Sys2Proof.Proofs
